-- ==== Sys2Proof/Word.lean ====
section
/-! DEFINITION. The word types of GP2-DSP (00_scope.md R9, R14). -/

namespace Sys2Proof

/-- R9: every register, payload word and response word is one 32-bit word; a binary32 value
travels as its bit pattern. -/
abbrev Word := BitVec 32

/-- One byte of an IQ word or one PS character. -/
abbrev Byte := BitVec 8

/-- R14: a complex sample, a pair of f32 bit patterns. -/
structure Cplx where
  re : Word
  im : Word
deriving DecidableEq, Repr

end Sys2Proof
end

