-- ==== Sys2Proof/Config.lean ====
section
/-! DEFINITION. The parameters of 00_scope.md R7 and the values the spec leaves open (R11, R13).
The four opaque constants have no body: no proof can use a value of theirs. -/

namespace Sys2Proof.Config

open Sys2Proof

/-- R7: the largest legal tap count of every FIR engine. -/
def TMAX : Nat := 1023

/-- R7: the largest legal decimation factor. -/
def DMAX : Nat := 65535

/-- R7: the largest sample count of one command. -/
def NMAX : Nat := 65535

/-- R7: the binary32 factor from clipped sample to PCM, 32767.0. -/
def PCM_SCALE : Word := 0x46FFFE00#32

/-- R7: the binary32 constant used for 2π. -/
def TWO_PI_F32 : Word := 0x40C90FDB#32

/-- R13, D51: binary32 cosine, a total function of its operand and nothing more (log entry 2). -/
opaque fcos : Word → Word

/-- R13, D51: binary32 sine, a total function of its operand and nothing more (log entry 2). -/
opaque fsin : Word → Word

/-- R13, D52: binary32 two-argument arctangent, `fatan2 y x` (log entry 3). -/
opaque fatan2 : Word → Word → Word

/-- R11, D53: the sign bit and the 22 payload bits of the k-th NaN result; every other bit of a
quiet NaN is fixed (log entry 1). -/
opaque nanBits : Nat → BitVec 23

end Sys2Proof.Config
end

