-- ==== Sys2Proof/Machine/State.lean ====
section
/-! DEFINITION. The state of GP2-DSP (10_state.md), as plain data, its value after power-on reset
(R42, R59, 70_reset_and_hazards.md R610), and the reasons a step can stop. -/

namespace Sys2Proof.Machine

open Sys2Proof

/-- Entries of a tap memory or a delay line, by index, in canonical form: indexes strictly rising, no
entry equal to what an unlisted index reads as, which is +0.0 (10_state.md R52, R53). -/
abbrev Memory (α : Type) := List (Nat × α)

/-- One FIR engine (10_state.md R51 to R53): tap count T, decimation factor D, decimation phase,
write cursor, tap memory and delay line. -/
structure Fir (α : Type) where
  t     : BitVec 16
  d     : BitVec 16
  phase : BitVec 16
  wptr  : BitVec 16
  taps  : Memory Word
  dl    : Memory α
deriving DecidableEq, Repr

/-- The three real FIR engines (10_state.md R50). -/
inductive RealInst where
  | au | rb | rl
deriving DecidableEq, Repr

/-- The four FIR engines, numbered 0 to 3 in this order (10_state.md R50). -/
inductive Inst where
  | ch
  | real (i : RealInst)
deriving DecidableEq, Repr

/-- The registers of the register space (10_state.md R42). -/
inductive Reg where
  | ctrl | status | err
  | groupCount | psPubCount | syncCount
  | audGain | deemphA | deemphY
  | ncoInc | ncoPhase
  | chipInc | chipAcc | chipBuf | prevBit | shift | bitcnt
  | group0 | group1 | group2 | group3
  | psBuf0 | psBuf1 | psPub0 | psPub1 | psMask
  | fmdPrevI | fmdPrevQ | fmdHasPrev
  | firT (i : Inst) | firD (i : Inst) | firPhase (i : Inst) | firWptr (i : Inst)
  | tap (i : Inst) (k : Nat)
deriving DecidableEq, Repr

/-- The causes recorded in ERR (60_exceptions.md R562). -/
inductive ErrCause where
  | illegal | badReg | badCfg
deriving DecidableEq, Repr

/-- Everything the spec gives the machine, and `nanDraws`, the model's own. -/
structure State where
  /-- R57: the command stream as supplied so far. -/
  stream     : List Word
  /-- R41: the index in the stream of the next unread word. -/
  cp         : Nat
  /-- R57: the response stream, oldest word first. -/
  resp       : List Word
  /-- R43: RDS_EN, PS_IE, ERR_IE, DIFF_RST, MAN_SLIP in bits 0 to 4. -/
  ctrl       : BitVec 5
  /-- R45: ILLEGAL, BAD_REG, BAD_CFG in bits 0 to 2. -/
  err        : BitVec 3
  /-- R44: STATUS.PS_NEW. -/
  psNew      : Bool
  /-- R46. -/
  groupCount : Word
  /-- R46. -/
  psPubCount : Word
  /-- R46. -/
  syncCount  : Word
  /-- R47. -/
  audGain    : Word
  /-- R47. -/
  deemphA    : Word
  /-- R47. -/
  deemphY    : Word
  /-- R48. -/
  ncoInc     : Word
  /-- R48. -/
  ncoPhase   : Word
  /-- R49. -/
  chipInc    : Word
  /-- R49. -/
  chipAcc    : Word
  /-- R49: CHIP_BUF.PEND. -/
  chipPend   : Bool
  /-- R49: CHIP_BUF.CHIP0. -/
  chip0      : Bool
  /-- R49: PREV_BIT.PREV. -/
  prevBit    : Bool
  /-- R49: SHIFT.WINDOW, the newest bit in bit 0. -/
  shift      : BitVec 26
  /-- R49: BITCNT.COUNT. -/
  bitcnt     : BitVec 5
  /-- R49: SYNCED when true, read through STATUS.HAVE_SYNC. -/
  haveSync   : Bool
  /-- R49: the expected block slot, read through STATUS.SLOT. -/
  slot       : BitVec 2
  /-- R49: the datum of block A. -/
  group0     : BitVec 16
  /-- R49: the datum of block B. -/
  group1     : BitVec 16
  /-- R49: the datum of block C or C'. -/
  group2     : BitVec 16
  /-- R49: the datum of block D. -/
  group3     : BitVec 16
  /-- R55: characters 0 to 3, character 0 in bits 7:0. -/
  psBuf0     : Word
  /-- R55: characters 4 to 7. -/
  psBuf1     : Word
  /-- R55: characters 0 to 3 of the published name. -/
  psPub0     : Word
  /-- R55: characters 4 to 7 of the published name. -/
  psPub1     : Word
  /-- R55: the segments received since the last PS reset. -/
  psMask     : BitVec 4
  /-- R55: read through STATUS.PS_VALID. -/
  psValid    : Bool
  /-- R54. -/
  fmdPrevI   : Word
  /-- R54. -/
  fmdPrevQ   : Word
  /-- R54. -/
  fmdHasPrev : Bool
  /-- R50: FIR number 0, complex. -/
  ch         : Fir Cplx
  /-- R50: FIR number 1. -/
  au         : Fir Word
  /-- R50: FIR number 2. -/
  rb         : Fir Word
  /-- R50: FIR number 3. -/
  rl         : Fir Word
  /-- The MODEL's field: how many NaN results have been drawn (R11, log entry 1). -/
  nanDraws   : Nat
deriving DecidableEq, Repr

/-- A FIR engine after power-on reset: T = D = 1, every tap and delay entry +0.0 (R42, R53). -/
def Fir.initial (α : Type) : Fir α :=
  { t := 1, d := 1, phase := 0, wptr := 0, taps := [], dl := [] }

/-- 70_reset_and_hazards.md R610: the machine right after power-on reset (R42, R59). -/
def State.reset : State where
  stream := []
  cp := 0
  resp := []
  ctrl := 1
  err := 0
  psNew := false
  groupCount := 0
  psPubCount := 0
  syncCount := 0
  audGain := 0x3F800000#32
  deemphA := 0x3F800000#32
  deemphY := 0
  ncoInc := 0
  ncoPhase := 0
  chipInc := 0
  chipAcc := 0
  chipPend := false
  chip0 := false
  prevBit := false
  shift := 0
  bitcnt := 0
  haveSync := false
  slot := 0
  group0 := 0
  group1 := 0
  group2 := 0
  group3 := 0
  psBuf0 := 0x20202020#32
  psBuf1 := 0x20202020#32
  psPub0 := 0
  psPub1 := 0
  psMask := 0
  psValid := false
  fmdPrevI := 0
  fmdPrevQ := 0
  fmdHasPrev := false
  ch := Fir.initial Cplx
  au := Fir.initial Word
  rb := Fir.initial Word
  rl := Fir.initial Word
  nanDraws := 0

/-- What stops the machine with a fault: nothing (60_exceptions.md R571, "There is no trap entry").
No constructor: no step can fault. Safe, since a command that errs goes on as the spec says. -/
inductive Fault where
deriving DecidableEq, Repr

/-- Why the model gives an instruction no meaning. -/
inductive Refusal where
  /-- Raised by an arm of `exec` whose instruction has no meaning yet, and by nothing else; safe.
  No arm of this model raises it. -/
  | notModelled (mnemonic : String)
deriving DecidableEq, Repr

end Sys2Proof.Machine
end

