-- ==== Sys2Proof/Machine/Operands.lean ====
section
/-! DEFINITION. The operand and response forms of 30_encoding.md R141, R148 and R149: which bits of SEL
and of a payload word count, and how a result is laid out in a response word. Every other payload
bit is ignored (R148). -/

namespace Sys2Proof.Machine

open Sys2Proof

/-- R148, 20_memory.md R104: the I byte of an IQ word, bits 7:0. -/
def iqI (w : Word) : Byte := w.extractLsb' 0 8

/-- R148, 20_memory.md R104: the Q byte of an IQ word, bits 15:8. -/
def iqQ (w : Word) : Byte := w.extractLsb' 8 8

/-- R148: a chip or a bit is bit 0 of its payload word. -/
def operandBit (w : Word) : Bool := w.getLsbD 0

/-- R148: an RDS block datum is bits 15:0 of its payload word. -/
def operandDatum (w : Word) : BitVec 16 := w.extractLsb' 0 16

/-- R148: the window of CRC_SYN is bits 25:0 of its payload word. -/
def operandWindow (w : Word) : BitVec 26 := w.extractLsb' 0 26

/-- R141, 40_fir.md R209: the FIR number of SEL, 0 to 3. -/
def instOfSel (sel : BitVec 8) : Option Inst :=
  match sel.toNat with
  | 0 => some .ch
  | 1 => some (.real .au)
  | 2 => some (.real .rb)
  | 3 => some (.real .rl)
  | _ => none

/-- 40_fir.md R207: the real FIR number of SEL, 1 to 3. -/
def realOfSel (sel : BitVec 8) : Option RealInst :=
  match sel.toNat with
  | 1 => some .au
  | 2 => some .rb
  | 3 => some .rl
  | _ => none

/-- R149: a PCM sample is `sext_32(q[15:0])`. -/
def pcmWord (q : Int) : Word := (BitVec.ofInt 16 q).signExtend 32

/-- 45_rds_sync.md R423: class code in bits 18:16, syndrome in bits 9:0, all other bits 0. -/
def crcWord (cls : BitVec 3) (syn : BitVec 10) : Word := (cls ++ (0#6 ++ syn)).setWidth 32

end Sys2Proof.Machine
end

