-- ==== Sys2Proof/Syntax.lean ====
section
/-! DEFINITION. The command set of GP2-DSP (30_encoding.md R140 to R144): one constructor of `Instr`
per row of the opcode table. A constructor carries SEL, and IMM where IMM is not a sample count,
exactly as sent, legal or not: each command's rule tests them itself (R146). A sample count n is
the length of the payload list. -/

namespace Sys2Proof

/-- The 20 opcodes of 30_encoding.md R144. -/
inductive Opcode where
  | nop | reset | regRead | regWrite
  | firProcC | firProcR | firReset
  | ncoSet | ncoNext | mix
  | convU8 | fmdProc
  | audProc
  | rdsProc | rdsSlice | rdsChip | rdsBit | crcSyn | rdsGroup
  | chainU8
deriving DecidableEq, Repr

/-- One command: its word's fields and its payload words (R140, R141, R148). -/
inductive Instr where
  /-- NOP, 47_control.md R510. -/
  | nop (sel : BitVec 8) (imm : BitVec 16)
  /-- RESET, 47_control.md R511: `sel` is the unit mask. -/
  | reset (sel : BitVec 8) (imm : BitVec 16)
  /-- REG_READ, 47_control.md R512. -/
  | regRead (sel : BitVec 8) (addr : BitVec 16)
  /-- REG_WRITE, 47_control.md R513: `v` is the payload word. -/
  | regWrite (sel : BitVec 8) (addr : BitVec 16) (v : Word)
  /-- FIR_PROC_C, 40_fir.md R206. -/
  | firProcC (sel : BitVec 8) (cap : Word) (xs : List Cplx)
  /-- FIR_PROC_R, 40_fir.md R207: `sel` is the FIR number. -/
  | firProcR (sel : BitVec 8) (cap : Word) (xs : List Word)
  /-- FIR_RESET, 40_fir.md R209: `sel` is the FIR number. -/
  | firReset (sel : BitVec 8) (imm : BitVec 16)
  /-- NCO_SET, 41_nco_mixer.md R250: sample rate, then frequency. -/
  | ncoSet (sel : BitVec 8) (imm : BitVec 16) (fs f : Word)
  /-- NCO_NEXT, 41_nco_mixer.md R252: no payload, `n` is IMM. -/
  | ncoNext (sel : BitVec 8) (n : BitVec 16)
  /-- MIX, 41_nco_mixer.md R254. -/
  | mix (sel : BitVec 8) (xs : List Cplx)
  /-- CONV_U8, 42_input_demod.md R291: IQ words. -/
  | convU8 (sel : BitVec 8) (ws : List Word)
  /-- FMD_PROC, 42_input_demod.md R293. -/
  | fmdProc (sel : BitVec 8) (cap : Word) (xs : List Cplx)
  /-- AUD_PROC, 43_audio.md R333. -/
  | audProc (sel : BitVec 8) (cap : Word) (xs : List Word)
  /-- RDS_PROC, 44_rds_bits.md R371. -/
  | rdsProc (sel : BitVec 8) (xs : List Word)
  /-- RDS_SLICE, 44_rds_bits.md R373. -/
  | rdsSlice (sel : BitVec 8) (xs : List Word)
  /-- RDS_CHIP, 44_rds_bits.md R375: chip words, bit 0 counts. -/
  | rdsChip (sel : BitVec 8) (ws : List Word)
  /-- RDS_BIT, 45_rds_sync.md R427: bit words, bit 0 counts. -/
  | rdsBit (sel : BitVec 8) (ws : List Word)
  /-- CRC_SYN, 45_rds_sync.md R423: the window word. -/
  | crcSyn (sel : BitVec 8) (imm : BitVec 16) (w : Word)
  /-- RDS_GROUP, 46_rds_group.md R471: the words of blocks A, B, C and D. -/
  | rdsGroup (sel : BitVec 8) (imm : BitVec 16) (a b c d : Word)
  /-- CHAIN_U8, 47_control.md R516: IQ words. -/
  | chainU8 (sel : BitVec 8) (ws : List Word)
deriving DecidableEq, Repr

end Sys2Proof
end

