-- ==== Sys2Proof/WellFormed.lean ====
section
/-! DEFINITION. Which commands are legal (30_encoding.md R146, the legal columns of R144) and which
payload lists a command word can announce (R141: n is at most NMAX). -/

namespace Sys2Proof

/-- R146: SEL and IMM are in the legal columns of R144. -/
def Instr.legal : Instr → Bool
  | .nop sel imm => sel == 0 && imm == 0
  | .reset sel imm => sel.toNat < 32 && imm == 0
  | .regRead sel _ => sel == 0
  | .regWrite sel _ _ => sel == 0
  | .firProcC sel _ _ => sel == 0
  | .firProcR sel _ _ => 1 ≤ sel.toNat && sel.toNat ≤ 3
  | .firReset sel imm => sel.toNat ≤ 3 && imm == 0
  | .ncoSet sel imm _ _ => sel == 0 && imm == 0
  | .ncoNext sel _ => sel == 0
  | .mix sel _ => sel == 0
  | .convU8 sel _ => sel == 0
  | .fmdProc sel _ _ => sel == 0
  | .audProc sel _ _ => sel == 0
  | .rdsProc sel _ => sel == 0
  | .rdsSlice sel _ => sel == 0
  | .rdsChip sel _ => sel == 0
  | .rdsBit sel _ => sel == 0
  | .crcSyn sel imm _ => sel == 0 && imm == 0
  | .rdsGroup sel imm _ _ _ _ => sel == 0 && imm == 0
  | .chainU8 sel _ => sel == 0

/-- The sample count n a payload list stands for (R141); 0 for a command that takes no list. -/
def Instr.count : Instr → Nat
  | .nop _ _ => 0
  | .reset _ _ => 0
  | .regRead _ _ => 0
  | .regWrite _ _ _ => 0
  | .firProcC _ _ xs => xs.length
  | .firProcR _ _ xs => xs.length
  | .firReset _ _ => 0
  | .ncoSet _ _ _ _ => 0
  | .ncoNext _ n => n.toNat
  | .mix _ xs => xs.length
  | .convU8 _ ws => ws.length
  | .fmdProc _ _ xs => xs.length
  | .audProc _ _ xs => xs.length
  | .rdsProc _ xs => xs.length
  | .rdsSlice _ xs => xs.length
  | .rdsChip _ ws => ws.length
  | .rdsBit _ ws => ws.length
  | .crcSyn _ _ _ => 0
  | .rdsGroup _ _ _ _ _ _ => 0
  | .chainU8 _ ws => ws.length

/-- R141: the sample count fits IMM, so that a command word can announce the payload. -/
def Instr.framed (i : Instr) : Bool := i.count ≤ Config.NMAX

/-- A command a host may send and have executed with its own effect. An instruction that is framed
and not legal can still be sent: it raises ILLEGAL (60_exceptions.md R560). -/
def Instr.wellFormed (i : Instr) : Bool := i.framed && i.legal

end Sys2Proof
end

