-- ==== Sys2Proof/Decode.lean ====
section
/-! DEFINITION. The command decoder and encoder (30_encoding.md R140 to R147). The decoder reads
OPC, takes the payload length from OPC and IMM alone (R142), and answers the command only when all
its payload words are present (R143). Illegal SEL and IMM values of a known opcode decode: the
command itself raises ILLEGAL (R146). -/

namespace Sys2Proof

/-- The opcode byte of each command (30_encoding.md R144). -/
def opcodeByte : Opcode → BitVec 8
  | .nop => 0x00#8
  | .reset => 0x01#8
  | .regRead => 0x02#8
  | .regWrite => 0x03#8
  | .firProcC => 0x10#8
  | .firProcR => 0x11#8
  | .firReset => 0x12#8
  | .ncoSet => 0x20#8
  | .ncoNext => 0x21#8
  | .mix => 0x22#8
  | .convU8 => 0x30#8
  | .fmdProc => 0x31#8
  | .audProc => 0x40#8
  | .rdsProc => 0x50#8
  | .rdsSlice => 0x51#8
  | .rdsChip => 0x52#8
  | .rdsBit => 0x53#8
  | .crcSyn => 0x54#8
  | .rdsGroup => 0x55#8
  | .chainU8 => 0x60#8

/-- The opcodes in the order of R144. -/
def opcodes : List Opcode :=
  [.nop, .reset, .regRead, .regWrite, .firProcC, .firProcR, .firReset, .ncoSet, .ncoNext, .mix,
   .convU8, .fmdProc, .audProc, .rdsProc, .rdsSlice, .rdsChip, .rdsBit, .crcSyn, .rdsGroup,
   .chainU8]

/-- The opcode of a byte; none for a reserved one (R147). -/
def opcodeOf (b : BitVec 8) : Option Opcode := opcodes.find? fun o => opcodeByte o == b

/-- R142, R144: the number of payload words Lp, a function of the opcode and n alone. -/
def payloadLen (o : Opcode) (n : Nat) : Nat :=
  match o with
  | .nop => 0
  | .reset => 0
  | .regRead => 0
  | .regWrite => 1
  | .firProcC => 1 + 2 * n
  | .firProcR => 1 + n
  | .firReset => 0
  | .ncoSet => 2
  | .ncoNext => 0
  | .mix => 2 * n
  | .convU8 => n
  | .fmdProc => 1 + 2 * n
  | .audProc => 1 + n
  | .rdsProc => n
  | .rdsSlice => n
  | .rdsChip => n
  | .rdsBit => n
  | .crcSyn => 1
  | .rdsGroup => 4
  | .chainU8 => n

/-- R140: bits 31:24. -/
def fieldOpc (w : Word) : BitVec 8 := w.extractLsb' 24 8

/-- R140: bits 23:16. -/
def fieldSel (w : Word) : BitVec 8 := w.extractLsb' 16 8

/-- R140: bits 15:0. -/
def fieldImm (w : Word) : BitVec 16 := w.extractLsb' 0 16

/-- R14, R148: complex samples as consecutive words, the real part first. -/
def pairSamples : List Word → List Cplx
  | a :: b :: rest => ⟨a, b⟩ :: pairSamples rest
  | _ => []

/-- The words of complex samples, the real part first (R14). -/
def flattenSamples : List Cplx → List Word
  | [] => []
  | z :: rest => z.re :: z.im :: flattenSamples rest

/-- R15: the k-th payload word. -/
def payloadWord (p : List Word) (k : Nat) : Word := p.getD k 0

/-- The command of an opcode with its fields and its payload words (R141, R148). -/
def assemble (o : Opcode) (sel : BitVec 8) (imm : BitVec 16) (p : List Word) : Instr :=
  match o with
  | .nop => .nop sel imm
  | .reset => .reset sel imm
  | .regRead => .regRead sel imm
  | .regWrite => .regWrite sel imm (payloadWord p 0)
  | .firProcC => .firProcC sel (payloadWord p 0) (pairSamples (p.drop 1))
  | .firProcR => .firProcR sel (payloadWord p 0) (p.drop 1)
  | .firReset => .firReset sel imm
  | .ncoSet => .ncoSet sel imm (payloadWord p 0) (payloadWord p 1)
  | .ncoNext => .ncoNext sel imm
  | .mix => .mix sel (pairSamples p)
  | .convU8 => .convU8 sel p
  | .fmdProc => .fmdProc sel (payloadWord p 0) (pairSamples (p.drop 1))
  | .audProc => .audProc sel (payloadWord p 0) (p.drop 1)
  | .rdsProc => .rdsProc sel p
  | .rdsSlice => .rdsSlice sel p
  | .rdsChip => .rdsChip sel p
  | .rdsBit => .rdsBit sel p
  | .crcSyn => .crcSyn sel imm (payloadWord p 0)
  | .rdsGroup =>
    .rdsGroup sel imm (payloadWord p 0) (payloadWord p 1) (payloadWord p 2) (payloadWord p 3)
  | .chainU8 => .chainU8 sel p

/-- Why no command can be read at the head of a list of words. -/
inductive Reject where
  /-- No word is present: the machine waits (R143). -/
  | noWord
  /-- The opcode is reserved (R147): the word alone is an illegal command (60_exceptions.md R561). -/
  | unknownOpcode (opc : BitVec 8)
  /-- Payload words are missing: the machine waits (R143, 70_reset_and_hazards.md R619). -/
  | payloadMissing (o : Opcode) (missing : Nat)
deriving DecidableEq, Repr

/-- R143: the command at the head of the words, with the words after it. Total on any words. -/
def decode : List Word → Except Reject (Instr × List Word)
  | [] => .error .noWord
  | w :: rest =>
    match opcodeOf (fieldOpc w) with
    | none => .error (.unknownOpcode (fieldOpc w))
    | some o =>
      let lp := payloadLen o (fieldImm w).toNat
      if lp ≤ rest.length then
        .ok (assemble o (fieldSel w) (fieldImm w) (rest.take lp), rest.drop lp)
      else .error (.payloadMissing o (lp - rest.length))

/-- The opcode of a command. -/
def instrOpcode : Instr → Opcode
  | .nop _ _ => .nop
  | .reset _ _ => .reset
  | .regRead _ _ => .regRead
  | .regWrite _ _ _ => .regWrite
  | .firProcC _ _ _ => .firProcC
  | .firProcR _ _ _ => .firProcR
  | .firReset _ _ => .firReset
  | .ncoSet _ _ _ _ => .ncoSet
  | .ncoNext _ _ => .ncoNext
  | .mix _ _ => .mix
  | .convU8 _ _ => .convU8
  | .fmdProc _ _ _ => .fmdProc
  | .audProc _ _ _ => .audProc
  | .rdsProc _ _ => .rdsProc
  | .rdsSlice _ _ => .rdsSlice
  | .rdsChip _ _ => .rdsChip
  | .rdsBit _ _ => .rdsBit
  | .crcSyn _ _ _ => .crcSyn
  | .rdsGroup _ _ _ _ _ _ => .rdsGroup
  | .chainU8 _ _ => .chainU8

/-- The SEL field of a command. -/
def instrSel : Instr → BitVec 8
  | .nop sel _ => sel
  | .reset sel _ => sel
  | .regRead sel _ => sel
  | .regWrite sel _ _ => sel
  | .firProcC sel _ _ => sel
  | .firProcR sel _ _ => sel
  | .firReset sel _ => sel
  | .ncoSet sel _ _ _ => sel
  | .ncoNext sel _ => sel
  | .mix sel _ => sel
  | .convU8 sel _ => sel
  | .fmdProc sel _ _ => sel
  | .audProc sel _ _ => sel
  | .rdsProc sel _ => sel
  | .rdsSlice sel _ => sel
  | .rdsChip sel _ => sel
  | .rdsBit sel _ => sel
  | .crcSyn sel _ _ => sel
  | .rdsGroup sel _ _ _ _ _ => sel
  | .chainU8 sel _ => sel

/-- The IMM field of a command: the sample count n for a command that takes one (R141). -/
def instrImm : Instr → BitVec 16
  | .nop _ imm => imm
  | .reset _ imm => imm
  | .regRead _ addr => addr
  | .regWrite _ addr _ => addr
  | .firProcC _ _ xs => BitVec.ofNat 16 xs.length
  | .firProcR _ _ xs => BitVec.ofNat 16 xs.length
  | .firReset _ imm => imm
  | .ncoSet _ imm _ _ => imm
  | .ncoNext _ n => n
  | .mix _ xs => BitVec.ofNat 16 xs.length
  | .convU8 _ ws => BitVec.ofNat 16 ws.length
  | .fmdProc _ _ xs => BitVec.ofNat 16 xs.length
  | .audProc _ _ xs => BitVec.ofNat 16 xs.length
  | .rdsProc _ xs => BitVec.ofNat 16 xs.length
  | .rdsSlice _ xs => BitVec.ofNat 16 xs.length
  | .rdsChip _ ws => BitVec.ofNat 16 ws.length
  | .rdsBit _ ws => BitVec.ofNat 16 ws.length
  | .crcSyn _ imm _ => imm
  | .rdsGroup _ imm _ _ _ _ => imm
  | .chainU8 _ ws => BitVec.ofNat 16 ws.length

/-- The payload words of a command (R148). -/
def instrPayload : Instr → List Word
  | .nop _ _ => []
  | .reset _ _ => []
  | .regRead _ _ => []
  | .regWrite _ _ v => [v]
  | .firProcC _ cap xs => cap :: flattenSamples xs
  | .firProcR _ cap xs => cap :: xs
  | .firReset _ _ => []
  | .ncoSet _ _ fs f => [fs, f]
  | .ncoNext _ _ => []
  | .mix _ xs => flattenSamples xs
  | .convU8 _ ws => ws
  | .fmdProc _ cap xs => cap :: flattenSamples xs
  | .audProc _ cap xs => cap :: xs
  | .rdsProc _ xs => xs
  | .rdsSlice _ xs => xs
  | .rdsChip _ ws => ws
  | .rdsBit _ ws => ws
  | .crcSyn _ _ w => [w]
  | .rdsGroup _ _ a b c d => [a, b, c, d]
  | .chainU8 _ ws => ws

/-- R140: a command word from its three fields. -/
def commandWord (o : Opcode) (sel : BitVec 8) (imm : BitVec 16) : Word :=
  opcodeByte o ++ sel ++ imm

/-- The words of a command, its command word first (R140). -/
def encode (i : Instr) : List Word :=
  commandWord (instrOpcode i) (instrSel i) (instrImm i) :: instrPayload i

/-- R143: the total length L = 1 + Lp of a command, in words. -/
def instrLength (i : Instr) : Nat := 1 + payloadLen (instrOpcode i) i.count

/-- The words of the opcode-table number `w` of `nbits` bits: the command word is its low 32 bits,
and as many payload words follow as the command word announces, taken from the bits above (all 0
above `nbits`). -/
def tableWords (nbits w : Nat) : List Word :=
  let v := w % 2 ^ nbits
  let first : Word := BitVec.ofNat 32 v
  let lp := match opcodeOf (fieldOpc first) with
    | none => 0
    | some o => payloadLen o (fieldImm first).toNat
  first :: (List.range lp).map fun k => BitVec.ofNat 32 (v >>> (32 * (k + 1)))

/-- The command the decoder reads from an opcode-table number; none where it refuses. -/
def decodeTableWord (nbits w : Nat) : Option Instr :=
  match decode (tableWords nbits w) with
  | .ok (i, _) => some i
  | .error _ => none

end Sys2Proof
end

