-- ==== Sys2Proof/Machine/F32.lean ====
section
/-! DEFINITION. IEEE 754 binary32 on bit patterns (00_scope.md R9 to R12). Every operation is computed
exactly on integers and rounded once. A finite value is an integer number of units of 2^-149, the
smallest subnormal, so that no operand is ever scaled by a negative exponent. An operation answers
`none` where its result is a NaN: which NaN is drawn where the operation is used (R11). -/

namespace Sys2Proof.Machine.F32

open Sys2Proof

/-- +0.0. -/
def posZero : Word := 0x00000000#32
/-- -0.0. -/
def negZero : Word := 0x80000000#32
/-- 1.0. -/
def one : Word := 0x3F800000#32
/-- -1.0. -/
def negOne : Word := 0xBF800000#32
/-- 127.5. -/
def c127_5 : Word := 0x42FF0000#32
/-- 128.0. -/
def c128 : Word := 0x43000000#32

/-- The magnitude of an infinity: exponent all ones, fraction 0. -/
def infMag : Nat := 0x7F800000

/-- R9: the sign, bit 31. -/
def sign (a : Word) : Bool := a.getLsbD 31

/-- R9: the biased exponent, bits 30:23. -/
def expo (a : Word) : Nat := (a.extractLsb' 23 8).toNat

/-- R9: the fraction, bits 22:0. -/
def frac (a : Word) : Nat := (a.extractLsb' 0 23).toNat

/-- Exponent all ones and a fraction that is not 0. -/
def isNaN (a : Word) : Bool := expo a == 255 && frac a != 0

/-- Exponent all ones and fraction 0. -/
def isInf (a : Word) : Bool := expo a == 255 && frac a == 0

/-- Either zero. -/
def isZero (a : Word) : Bool := expo a == 0 && frac a == 0

/-- Neither a NaN nor an infinity. -/
def isFinite (a : Word) : Bool := expo a != 255

/-- The magnitude of a finite value in units of 2^-149; a subnormal has no implicit bit. For an
infinity it is a number above every finite magnitude, so that comparisons need no case for it. -/
def units (a : Word) : Nat :=
  if expo a = 0 then frac a else (2 ^ 23 + frac a) * 2 ^ (expo a - 1)

/-- The signed value in units of 2^-149. -/
def value (a : Word) : Int := if sign a then -(units a : Int) else (units a : Int)

/-- 1.0 in units of 2^-149. -/
def unitsPerOne : Nat := 2 ^ 149

/-- Rounding to nearest, ties to even (R10), of the magnitude `num / den` units: the low 31 bits of
the binary32 result. Below 2^24 units the spacing of binary32 values is one unit, and above it
2^sh units with 24 significant bits; the sum `sh * 2^23 + q` is the encoding, and a carry out of
the fraction runs into the exponent. From the magnitude of an infinity on, the result overflows to
that infinity. -/
def roundMag (num den : Nat) : Nat :=
  let sh := Nat.log2 (num / den) - 23
  let step := den * 2 ^ sh
  let q := num / step
  let r := num % step
  let q' := if 2 * r > step || (2 * r == step && q % 2 == 1) then q + 1 else q
  min (sh * 2 ^ 23 + q') infMag

/-- A bit pattern from a sign and the low 31 bits. -/
def pack (neg : Bool) (mag : Nat) : Word := BitVec.ofNat 32 (if neg then 2 ^ 31 + mag else mag)

/-- R10: `fneg` flips the sign bit only. -/
def neg (a : Word) : Word := a ^^^ 0x80000000#32

/-- R10: `fadd`. An exact sum of zero is +0.0 unless both operands are -0.0. -/
def add (a b : Word) : Option Word :=
  if isNaN a || isNaN b then none
  else if isInf a then (if isInf b && sign a != sign b then none else some a)
  else if isInf b then some b
  else
    let v := value a + value b
    if v = 0 then some (if sign a && sign b then negZero else posZero)
    else some (pack (v < 0) (roundMag v.natAbs 1))

/-- R10: `fsub`, the sum with the second operand's sign flipped. -/
def sub (a b : Word) : Option Word := add a (neg b)

/-- R10: `fmul`. -/
def mul (a b : Word) : Option Word :=
  let sgn := sign a != sign b
  if isNaN a || isNaN b then none
  else if isInf a || isInf b then
    (if isZero a || isZero b then none else some (pack sgn infMag))
  else some (pack sgn (roundMag (units a * units b) unitsPerOne))

/-- R10: `fdiv`. -/
def div (a b : Word) : Option Word :=
  let sgn := sign a != sign b
  if isNaN a || isNaN b then none
  else if isInf a then (if isInf b then none else some (pack sgn infMag))
  else if isInf b then some (pack sgn 0)
  else if isZero b then (if isZero a then none else some (pack sgn infMag))
  else some (pack sgn (roundMag (units a * unitsPerOne) (units b)))

/-- R11: the ordered comparison `a < b`; false with a NaN, and the two zeros are equal. -/
def lt (a b : Word) : Bool := !isNaN a && !isNaN b && value a < value b

/-- R11: the ordered comparison `a > b`. -/
def gt (a b : Word) : Bool := lt b a

/-- R11: the ordered comparison `a ≥ b`. -/
def ge (a b : Word) : Bool := !isNaN a && !isNaN b && value b ≤ value a

/-- R11: the ordered comparison `a ≤ b`. -/
def le (a b : Word) : Bool := ge b a

/-- R12: the exact binary32 value of an integer 0..255. -/
def ofByte (b : Byte) : Word := pack false (roundMag (b.toNat * unitsPerOne) 1)

/-- R12: `round_half_away` of a finite value: the nearest integer, a tie away from zero. -/
def roundHalfAway (a : Word) : Int :=
  let m : Int := (((2 * units a + unitsPerOne) / (2 * unitsPerOne) : Nat) : Int)
  if sign a then -m else m

/-- R11: the quiet NaN with the given sign bit and payload bits. -/
def quietNaN (bits : BitVec 23) : Word :=
  bits.extractLsb' 22 1 ++ 0x1FF#9 ++ bits.extractLsb' 0 22

end Sys2Proof.Machine.F32
end

