-- ==== Sys2Proof/Machine/Ops.lean ====
section
/-! DEFINITION. The named operations the meanings are written in: sparse memories, the command and
response streams, raising an error and ending a command, the binary32 operations with the free NaN
of 00_scope.md R11, and the FIR records. -/

namespace Sys2Proof.Machine

open Sys2Proof

/-! ## Sparse memories (10_state.md R52, R53) -/

/-- The entry at an index; an unlisted index reads as `zero`, which is +0.0 everywhere it is used. -/
def Memory.read {α : Type} (zero : α) : Memory α → Nat → α
  | [], _ => zero
  | (j, v) :: m, k => if j = k then v else Memory.read zero m k

/-- Writes one entry and keeps the canonical form: writing `zero` removes the entry. -/
def Memory.write {α : Type} [DecidableEq α] (zero : α) : Memory α → Nat → α → Memory α
  | [], k, v => if v = zero then [] else [(k, v)]
  | (j, u) :: m, k, v =>
    if k < j then (if v = zero then (j, u) :: m else (k, v) :: (j, u) :: m)
    else if k = j then (if v = zero then m else (k, v) :: m)
    else (j, u) :: Memory.write zero m k v

/-- The canonical form: indexes strictly rising, no entry equal to `zero`. -/
def Memory.wf {α : Type} [DecidableEq α] (zero : α) : Memory α → Bool
  | [] => true
  | (k, v) :: m => decide (v ≠ zero) && m.all (fun e => decide (k < e.1)) && Memory.wf zero m

/-- Every listed index is below the bound. -/
def Memory.below {α : Type} (bound : Nat) (m : Memory α) : Bool := m.all fun e => decide (e.1 < bound)

/-- The complex +0.0, both parts (10_state.md R53). -/
def cplxZero : Cplx := ⟨F32.posZero, F32.posZero⟩

/-! ## Streams, errors and the end of a command -/

/-- R143: the words not yet read, the next one first. -/
def fetch (s : State) : List Word := s.stream.drop s.cp

/-- R15, R57: `emit(v)` appends to the response stream. -/
def State.emit (s : State) (v : Word) : State := { s with resp := s.resp ++ [v] }

/-- The bit of ERR a cause sets (60_exceptions.md R562). -/
def ErrCause.bit : ErrCause → BitVec 3
  | .illegal => 0b001#3
  | .badReg => 0b010#3
  | .badCfg => 0b100#3

/-- R15: `raise Error(F)` sets one sticky bit of ERR and has no other effect. Nothing is saved and
control goes nowhere (60_exceptions.md R571). -/
def State.raise (s : State) (e : ErrCause) : State := { s with err := s.err ||| e.bit }

/-- R15, R41: `cp <- cp + L`. -/
def State.advance (s : State) (len : Nat) : State := { s with cp := s.cp + len }

/-- The frame of every command. A legal one has its effect; an illegal one raises ILLEGAL and does
nothing else (30_encoding.md R146, 60_exceptions.md R560, R561); both consume the whole command. -/
def command (legal : Bool) (len : Nat) (body : State → State) (s : State) :
    Host.Outcome State Fault Refusal :=
  .next ((if legal then body s else s.raise .illegal).advance len)

/-- 60_exceptions.md R561: an unknown opcode is an illegal command of one word. -/
def unknownOpcode (s : State) : Host.Outcome State Fault Refusal :=
  command false 1 id s

/-- 70_reset_and_hazards.md R619: with no complete command present the machine waits, changing
nothing. -/
def wait (s : State) : Host.Outcome State Fault Refusal := .next s

/-- R57: the host appends words to the command stream. -/
def State.supply (s : State) (ws : List Word) : State := { s with stream := s.stream ++ ws }

/-- 70_reset_and_hazards.md R610: power-on reset, an event from outside: every piece of state takes
its reset value and a partly received command is discarded. -/
def State.powerOn (_ : State) : State := State.reset

/-- Exactly `n` words: the list cut, or filled with 0. -/
def takePadded (n : Nat) (ws : List Word) : List Word :=
  ws.take n ++ List.replicate (n - ws.length) 0

/-- The state with the given words standing in the command stream from `cp` on, in place of the
words that stood there. -/
def State.placeWords (s : State) (ws : List Word) : State :=
  { s with stream := takePadded s.cp s.stream ++ ws ++ s.stream.drop (s.cp + ws.length) }

/-! ## Computations that draw NaNs -/

/-- A computation over the state. -/
abbrev M (α : Type) := StateM State α

/-- The state a computation leaves. -/
def runM (m : M Unit) (s : State) : State := (m s).2

/-- R11, D53: a NaN result is some quiet NaN, drawn anew per result (log entry 1). -/
def drawNaN : M Word := fun s =>
  (F32.quietNaN (Config.nanBits s.nanDraws), { s with nanDraws := s.nanDraws + 1 })

/-- The result of an operation, a NaN being drawn where it has none. -/
def orNaN : Option Word → M Word
  | some w => pure w
  | none => drawNaN

/-- R10. -/
def fadd (a b : Word) : M Word := orNaN (F32.add a b)
/-- R10. -/
def fsub (a b : Word) : M Word := orNaN (F32.sub a b)
/-- R10. -/
def fmul (a b : Word) : M Word := orNaN (F32.mul a b)
/-- R10. -/
def fdiv (a b : Word) : M Word := orNaN (F32.div a b)

/-- R15: `for k in a..b`, over the elements of a list in order. -/
def forEach {α : Type} (f : α → M Unit) : List α → M Unit
  | [] => pure ()
  | x :: xs => do
    f x
    forEach f xs

/-- A computation for each element in order, the results in order. -/
def mapEach {α β : Type} (f : α → M β) : List α → M (List β)
  | [] => pure []
  | x :: xs => do
    let y ← f x
    let ys ← mapEach f xs
    pure (y :: ys)

/-- Emits words in order. -/
def State.emitAll (s : State) (ws : List Word) : State := { s with resp := s.resp ++ ws }

/-- An output count as a response word (30_encoding.md R149). -/
def countWord (m : Nat) : Word := BitVec.ofNat 32 m

/-! ## FIR records (10_state.md R50, R51) -/

/-- The real engine of a number. -/
def State.fir (s : State) : RealInst → Fir Word
  | .au => s.au
  | .rb => s.rb
  | .rl => s.rl

/-- Replaces a real engine. -/
def State.setFir (s : State) (i : RealInst) (f : Fir Word) : State :=
  match i with
  | .au => { s with au := f }
  | .rb => { s with rb := f }
  | .rl => { s with rl := f }

/-- 40_fir.md R208: the delay line (all +0.0), the cursor and the phase; T, D and taps are kept. -/
def Fir.reset {α : Type} (f : Fir α) : Fir α := { f with dl := [], wptr := 0, phase := 0 }

/-- `fir_reset(i)` of 40_fir.md R208. -/
def State.firReset (s : State) : Inst → State
  | .ch => { s with ch := s.ch.reset }
  | .real i => s.setFir i (s.fir i).reset

end Sys2Proof.Machine
end

