-- ==== Sys2Proof/Machine/Fir.lean ====
section
/-! DEFINITION. The decimating FIR engine and its three commands (40_fir.md). -/

namespace Sys2Proof.Machine

open Sys2Proof

/-- R201, R202: the next input completes a group of D, so that the phase wraps and an output is due. -/
def Fir.due {α : Type} (f : Fir α) : Bool := f.phase + 1 == f.d

/-- R201: the input goes to the slot at the cursor, then the cursor and the phase move on. -/
def Fir.insert {α : Type} [DecidableEq α] (zero : α) (f : Fir α) (x : α) : Fir α :=
  { f with
    dl := Memory.write zero f.dl f.wptr.toNat x
    wptr := BitVec.ofNat 16 ((f.wptr.toNat + 1) % f.t.toNat)
    phase := if f.due then 0 else f.phase + 1 }

/-- R203: tap k. -/
def Fir.tap {α : Type} (f : Fir α) (k : Nat) : Word := Memory.read F32.posZero f.taps k

/-- R203: the k-th oldest sample, `DL[i][(w + k) mod T]`. -/
def Fir.sample {α : Type} (zero : α) (f : Fir α) (k : Nat) : α :=
  Memory.read zero f.dl ((f.wptr.toNat + k) % f.t.toNat)

/-- R203: the products of the given taps and samples added to an accumulator, in order. -/
def accumulateR (f : Fir Word) : List Nat → Word → M Word
  | [], acc => pure acc
  | k :: ks, acc => do
    let product ← fmul (f.tap k) (f.sample F32.posZero k)
    let acc ← fadd acc product
    accumulateR f ks acc

/-- R203: `fir_dot` of a real engine, from the oldest sample to the newest. -/
def firDotR (f : Fir Word) : M Word := accumulateR f (List.range f.t.toNat) F32.posZero

/-- R204: as `accumulateR`, the two parts accumulated separately. -/
def accumulateC (f : Fir Cplx) : List Nat → Cplx → M Cplx
  | [], acc => pure acc
  | k :: ks, acc => do
    let productR ← fmul (f.tap k) (f.sample cplxZero k).re
    let accR ← fadd acc.re productR
    let productI ← fmul (f.tap k) (f.sample cplxZero k).im
    let accI ← fadd acc.im productI
    accumulateC f ks ⟨accR, accI⟩

/-- R204: `fir_dot` of the complex engine. -/
def firDotC (f : Fir Cplx) : M Cplx := accumulateC f (List.range f.t.toNat) cplxZero

/-- R201: `fir_step` of a real engine. -/
def firStepR (i : RealInst) (x : Word) : M (Option Word) := do
  let s ← get
  let f := (s.fir i).insert F32.posZero x
  set (s.setFir i f)
  if (s.fir i).due then
    let y ← firDotR f
    pure (some y)
  else pure none

/-- R201: `fir_step` of the complex engine. -/
def firStepC (x : Cplx) : M (Option Cplx) := do
  let s ← get
  let f := s.ch.insert cplxZero x
  set { s with ch := f }
  if s.ch.due then
    let y ← firDotC f
    pure (some y)
  else pure none

/-- R205: every input is stepped, an output is kept while `keep` admits one more after the `m`
kept so far, and later outputs are computed and dropped. -/
def keepOutputs {α β : Type} (stp : α → M (Option β)) (keep : Nat → Bool) :
    List α → Nat → M (List β)
  | [], _ => pure []
  | x :: xs, m => do
    match ← stp x with
    | some y =>
      if keep m then
        let ys ← keepOutputs stp keep xs (m + 1)
        pure (y :: ys)
      else keepOutputs stp keep xs m
    | none => keepOutputs stp keep xs m

/-- R205: fewer than `cap` outputs are kept so far, `cap` a 32-bit unsigned integer. -/
def underCap (cap : Word) (m : Nat) : Bool := decide (m < cap.toNat)

/-- R206, R207: the outputs' words, then the count of outputs kept. -/
def State.emitCounted (s : State) (words : List Word) (m : Nat) : State :=
  s.emitAll (words ++ [countWord m])

/-- The effect of FIR_PROC_C on legal operands (R206). -/
def firProcCBody (cap : Word) (xs : List Cplx) : M Unit := do
  let kept ← keepOutputs firStepC (underCap cap) xs 0
  modify fun s => s.emitCounted (flattenSamples kept) kept.length

/-- FIR_PROC_C (R206). -/
def execFirProcC (sel : BitVec 8) (cap : Word) (xs : List Cplx) (s : State) :
    Host.Outcome State Fault Refusal :=
  command (sel == 0) (2 + 2 * xs.length) (runM (firProcCBody cap xs)) s

/-- The effect of FIR_PROC_R on legal operands (R207). -/
def firProcRBody (i : RealInst) (cap : Word) (xs : List Word) : M Unit := do
  let kept ← keepOutputs (firStepR i) (underCap cap) xs 0
  modify fun s => s.emitCounted kept kept.length

/-- FIR_PROC_R (R207). -/
def execFirProcR (sel : BitVec 8) (cap : Word) (xs : List Word) (s : State) :
    Host.Outcome State Fault Refusal :=
  match realOfSel sel with
  | none => command false (2 + xs.length) id s
  | some i => command true (2 + xs.length) (runM (firProcRBody i cap xs)) s

/-- FIR_RESET (R209). -/
def execFirReset (sel : BitVec 8) (imm : BitVec 16) (s : State) :
    Host.Outcome State Fault Refusal :=
  match instOfSel sel with
  | none => command false 1 id s
  | some i => command (imm == 0) 1 (fun s => s.firReset i) s

end Sys2Proof.Machine
end

