-- ==== Sys2Proof/Machine/Audio.lean ====
section
/-! DEFINITION. The audio resampler with de-emphasis and its command (43_audio.md). -/

namespace Sys2Proof.Machine

open Sys2Proof

/-- R330: `deemph(x)`. -/
def deemph (x : Word) : M Word := do
  let s ← get
  let diff ← fsub x s.deemphY
  let scaled ← fmul s.deemphA diff
  let y ← fadd s.deemphY scaled
  modify fun s => { s with deemphY := y }
  pure y

/-- R331: the clip to [-1.0, 1.0], a NaN to 0.0. -/
def clip (v : Word) : Word :=
  if F32.isNaN v then F32.posZero
  else if F32.gt v F32.one then F32.one
  else if F32.lt v F32.negOne then F32.negOne
  else v

/-- R331: `quantize(z)`. -/
def quantize (z : Word) : M Int := do
  let s ← get
  let v ← fmul z s.audGain
  let scaled ← fmul (clip v) Config.PCM_SCALE
  pure (F32.roundHalfAway scaled)

/-- R332: `aud_step(x)`. -/
def audStep (x : Word) : M (Option Int) := do
  let y ← deemph x
  match ← firStepR .au y with
  | some z =>
    let q ← quantize z
    pure (some q)
  | none => pure none

/-- The effect of AUD_PROC on legal operands (R333). -/
def audProcBody (cap : Word) (xs : List Word) : M Unit := do
  let kept ← keepOutputs audStep (underCap cap) xs 0
  modify fun s => s.emitCounted (kept.map pcmWord) kept.length

/-- AUD_PROC (R333). -/
def execAudProc (sel : BitVec 8) (cap : Word) (xs : List Word) (s : State) :
    Host.Outcome State Fault Refusal :=
  command (sel == 0) (2 + xs.length) (runM (audProcBody cap xs)) s

end Sys2Proof.Machine
end

