-- ==== Sys2Proof/Machine/InputDemod.lean ====
section
/-! DEFINITION. The IQ input conversion, the FM demodulator and their two commands
(42_input_demod.md). -/

namespace Sys2Proof.Machine

open Sys2Proof

/-- R290: one byte, less 127.5 and divided by 128. -/
def convByte (b : Byte) : M Word := do
  let centred ← fsub (F32.ofByte b) F32.c127_5
  fdiv centred F32.c128

/-- R290: `iq_conv(w)`. -/
def iqConv (w : Word) : M Cplx := do
  let re ← convByte (iqI w)
  let im ← convByte (iqQ w)
  pure ⟨re, im⟩

/-- The effect of CONV_U8 on legal operands (R291). -/
def convU8Body (ws : List Word) : M Unit :=
  forEach (fun w => do
    let z ← iqConv w
    modify fun s => (s.emit z.re).emit z.im) ws

/-- CONV_U8 (R291). -/
def execConvU8 (sel : BitVec 8) (ws : List Word) (s : State) : Host.Outcome State Fault Refusal :=
  command (sel == 0) (1 + ws.length) (runM (convU8Body ws)) s

/-- R292: the discriminator, the angle of conj(p)·x. -/
def discriminate (p x : Cplx) : M Word := do
  let rr ← fmul p.re x.re
  let ii ← fmul p.im x.im
  let re ← fadd rr ii
  let ri ← fmul p.re x.im
  let ir ← fmul p.im x.re
  let im ← fsub ri ir
  pure (Config.fatan2 im re)

/-- R292: the output for a sample: +0.0 for the first one after a reset. -/
def fmdOutput (s : State) (x : Cplx) : M Word :=
  if s.fmdHasPrev then discriminate ⟨s.fmdPrevI, s.fmdPrevQ⟩ x else pure F32.posZero

/-- R292: `fmd_step(x)`; every sample becomes `prev`. -/
def fmdStep (x : Cplx) : M Word := do
  let s ← get
  let out ← fmdOutput s x
  modify fun s => { s with fmdPrevI := x.re, fmdPrevQ := x.im, fmdHasPrev := true }
  pure out

/-- The effect of FMD_PROC on legal operands (R293): inputs past the capacity are not processed. -/
def fmdProcBody (cap : Word) (xs : List Cplx) : M Unit := do
  let outs ← mapEach fmdStep (xs.take (min xs.length cap.toNat))
  modify fun s => s.emitAll (outs ++ [countWord (min xs.length cap.toNat)])

/-- FMD_PROC (R293). -/
def execFmdProc (sel : BitVec 8) (cap : Word) (xs : List Cplx) (s : State) :
    Host.Outcome State Fault Refusal :=
  command (sel == 0) (2 + 2 * xs.length) (runM (fmdProcBody cap xs)) s

end Sys2Proof.Machine
end

