-- ==== Sys2Proof/Machine/Nco.lean ====
section
/-! DEFINITION. The NCO, the complex mixer and their three commands (41_nco_mixer.md). -/

namespace Sys2Proof.Machine

open Sys2Proof

/-- R251: the one conditional correction of an advanced phase by TWO_PI_F32. -/
def wrapPhase (p : Word) : M Word :=
  if F32.ge p Config.TWO_PI_F32 then fsub p Config.TWO_PI_F32
  else if F32.lt p F32.posZero then fadd p Config.TWO_PI_F32
  else pure p

/-- R251: the conjugate sinusoid sample at a phase. -/
def conjSample (phi : Word) : Cplx := ⟨Config.fcos phi, F32.neg (Config.fsin phi)⟩

/-- R251: `nco_next()`: the sample at the current phase; the phase advances by the increment. -/
def ncoNext : M Cplx := do
  let s ← get
  let p ← fadd s.ncoPhase s.ncoInc
  let p ← wrapPhase p
  modify fun s => { s with ncoPhase := p }
  pure (conjSample s.ncoPhase)

/-- R253: `mix(x, c)`. -/
def mixSample (x c : Cplx) : M Cplx := do
  let rr ← fmul x.re c.re
  let ii ← fmul x.im c.im
  let re ← fsub rr ii
  let ri ← fmul x.re c.im
  let ir ← fmul x.im c.re
  let im ← fadd ri ir
  pure ⟨re, im⟩

/-- The effect of NCO_SET on legal operands (R250): NCO_PHASE is not written. -/
def ncoSetBody (fs f : Word) : M Unit := do
  let product ← fmul Config.TWO_PI_F32 f
  let inc ← fdiv product fs
  modify fun s => { s with ncoInc := inc }

/-- NCO_SET (R250). -/
def execNcoSet (sel : BitVec 8) (imm : BitVec 16) (fs f : Word) (s : State) :
    Host.Outcome State Fault Refusal :=
  command (sel == 0 && imm == 0) 3 (runM (ncoSetBody fs f)) s

/-- The effect of NCO_NEXT on legal operands (R252). -/
def ncoNextBody (n : Nat) : M Unit :=
  forEach (fun _ => do
    let c ← ncoNext
    modify fun s => (s.emit c.re).emit c.im) (List.range n)

/-- NCO_NEXT (R252). -/
def execNcoNext (sel : BitVec 8) (n : BitVec 16) (s : State) :
    Host.Outcome State Fault Refusal :=
  command (sel == 0) 1 (runM (ncoNextBody n.toNat)) s

/-- The effect of MIX on legal operands (R254). -/
def mixBody (xs : List Cplx) : M Unit :=
  forEach (fun x => do
    let c ← ncoNext
    let y ← mixSample x c
    modify fun s => (s.emit y.re).emit y.im) xs

/-- MIX (R254). -/
def execMix (sel : BitVec 8) (xs : List Cplx) (s : State) : Host.Outcome State Fault Refusal :=
  command (sel == 0) (1 + 2 * xs.length) (runM (mixBody xs)) s

end Sys2Proof.Machine
end

