-- ==== Sys2Proof/Machine/Flags.lean ====
section
/-! DEFINITION. The fields of CTRL, STATUS and ERR (10_state.md R43 to R45), the interrupt level
(R56, 60_exceptions.md R570), and the write-1-to-clear rules (47_control.md R514). -/

namespace Sys2Proof.Machine

open Sys2Proof

/-- CTRL bit 0 (R43). -/
def State.rdsEn (s : State) : Bool := s.ctrl.getLsbD 0
/-- CTRL bit 1 (R43). -/
def State.psIe (s : State) : Bool := s.ctrl.getLsbD 1
/-- CTRL bit 2 (R43). -/
def State.errIe (s : State) : Bool := s.ctrl.getLsbD 2
/-- CTRL bit 3 (R43). -/
def State.diffRst (s : State) : Bool := s.ctrl.getLsbD 3
/-- CTRL bit 4 (R43). -/
def State.manSlip (s : State) : Bool := s.ctrl.getLsbD 4

/-- R56: the level of the interrupt output, a view of CTRL, STATUS.PS_NEW and ERR (log entry 4). -/
def State.irq (s : State) : Bool := (s.psIe && s.psNew) || (s.errIe && s.err != 0)

/-- R44: the STATUS word, IRQ in bit 5 down to HAVE_SYNC in bit 0. -/
def State.statusWord (s : State) : Word :=
  (BitVec.ofBool s.irq ++ (BitVec.ofBool s.psNew ++ (BitVec.ofBool s.psValid ++
    (s.slot ++ BitVec.ofBool s.haveSync)))).setWidth 32

/-- R514: CTRL[4:0] <- v[4:0]. -/
def State.writeCtrl (s : State) (v : Word) : State := { s with ctrl := v.extractLsb' 0 5 }

/-- R514: a write of 1 to STATUS bit 4 clears PS_NEW; every other bit is ignored. -/
def State.writeStatus (s : State) (v : Word) : State :=
  if v.getLsbD 4 then { s with psNew := false } else s

/-- R514: ERR[2:0] <- ERR[2:0] & ~v[2:0]. -/
def State.writeErr (s : State) (v : Word) : State :=
  { s with err := s.err &&& ~~~(v.extractLsb' 0 3) }

end Sys2Proof.Machine
end

