-- ==== Sys2Proof/Machine/RdsGroup.lean ====
section
/-! DEFINITION. The RDS group parser, the PS-name accumulator and RDS_GROUP (46_rds_group.md). -/

namespace Sys2Proof.Machine

open Sys2Proof

/-- R473: a byte outside 32..126 becomes a space. -/
def printable (c : Byte) : Byte := if 32 ≤ c.toNat && c.toNat ≤ 126 then c else 0x20#8

/-- 10_state.md R55: a word with byte j replaced, byte 0 in bits 7:0. -/
def setByte (w : Word) (j : Nat) (c : Byte) : Word :=
  (w &&& ~~~(0xFF#32 <<< (8 * j))) ||| (c.setWidth 32 <<< (8 * j))

/-- 10_state.md R55: character c of the PS buffer is byte c mod 4 of PS_BUF(c div 4). -/
def State.setPsChar (s : State) (c : Nat) (ch : Byte) : State :=
  if c / 4 = 0 then { s with psBuf0 := setByte s.psBuf0 (c % 4) ch }
  else { s with psBuf1 := setByte s.psBuf1 (c % 4) ch }

/-- R474: `publish()`. -/
def State.publish (s : State) : State :=
  { s with
    psPub0 := s.psBuf0
    psPub1 := s.psBuf1
    psValid := true
    psNew := true
    psPubCount := s.psPubCount + 1 }

/-- R470: the condition of a publication: the buffer is complete, and nothing or another name is
published. -/
def State.publishes (s : State) : Bool :=
  s.psMask == 0xF#4 && (!s.psValid || s.psBuf0 != s.psPub0 || s.psBuf1 != s.psPub1)

/-- R470: the segment of a type-0 group goes into the PS buffer and PS_MASK. -/
def State.storeSegment (s : State) (seg : Nat) (d : BitVec 16) : State :=
  let s := s.setPsChar (2 * seg) (printable (d.extractLsb' 8 8))
  let s := s.setPsChar (2 * seg + 1) (printable (d.extractLsb' 0 8))
  { s with psMask := s.psMask ||| (1#4 <<< seg) }

/-- R470: `group_dispatch(a, b, c, d)`; blocks A and C are not used. -/
def groupDispatch (_a b _c d : BitVec 16) (s : State) : State :=
  let s := { s with groupCount := s.groupCount + 1 }
  if b.extractLsb' 12 4 != 0 then s
  else
    let s := s.storeSegment (b.extractLsb' 0 2).toNat d
    if s.publishes then s.publish else s

/-- RDS_GROUP (R471). -/
def execRdsGroup (sel : BitVec 8) (imm : BitVec 16) (a b c d : Word) (s : State) :
    Host.Outcome State Fault Refusal :=
  command (sel == 0 && imm == 0) 5
    (groupDispatch (operandDatum a) (operandDatum b) (operandDatum c) (operandDatum d)) s

end Sys2Proof.Machine
end

