-- ==== Sys2Proof/Machine/RdsSync.lean ====
section
/-! DEFINITION. The CRC-10 syndrome calculator, the block synchronizer, CRC_SYN and RDS_BIT
(45_rds_sync.md). -/

namespace Sys2Proof.Machine

open Sys2Proof

/-- R421: the generator 0x1B9, without its x^10 term. -/
def crcPoly : BitVec 10 := 0x1B9#10

/-- R421: one bit of the division, most significant bit first. -/
def crcStep (r : BitVec 10) (b : Bool) : BitVec 10 :=
  if r.getLsbD 9 != b then (r <<< 1) ^^^ crcPoly else r <<< 1

/-- R421: `crc10(d)`. -/
def crc10 (d : BitVec 16) : BitVec 10 :=
  (List.range 16).foldl (fun r k => crcStep r (d.getLsbD (15 - k))) 0

/-- R420: the data field of a window, bits 25:10. -/
def windowData (w : BitVec 26) : BitVec 16 := w.extractLsb' 10 16

/-- R420: the check field of a window, bits 9:0. -/
def windowCheck (w : BitVec 26) : BitVec 10 := w.extractLsb' 0 10

/-- R421: `syndrome(w)`. -/
def syndrome (w : BitVec 26) : BitVec 10 := windowCheck w ^^^ crc10 (windowData w)

/-- R422: the offset word of block A. -/
def offsetA : BitVec 10 := 0x0FC#10
/-- R422: the offset word of block B. -/
def offsetB : BitVec 10 := 0x198#10
/-- R422: the offset word of block C. -/
def offsetC : BitVec 10 := 0x168#10
/-- R422: the offset word of block C'. -/
def offsetC' : BitVec 10 := 0x350#10
/-- R422: the offset word of block D. -/
def offsetD : BitVec 10 := 0x1B4#10

/-- R422: `classify(s)`, a class code 0 to 5. -/
def classify (syn : BitVec 10) : BitVec 3 :=
  if syn = offsetA then 1
  else if syn = offsetB then 2
  else if syn = offsetC then 3
  else if syn = offsetC' then 4
  else if syn = offsetD then 5
  else 0

/-- CRC_SYN (R423). -/
def execCrcSyn (sel : BitVec 8) (imm : BitVec 16) (w : Word) (s : State) :
    Host.Outcome State Fault Refusal :=
  let syn := syndrome (operandWindow w)
  command (sel == 0 && imm == 0) 2 (fun s => s.emit (crcWord (classify syn) syn)) s

/-- R425: the count of bits in the window, up to 26. -/
def State.countBit (s : State) : State :=
  if s.bitcnt.toNat < 26 then { s with bitcnt := s.bitcnt + 1 } else s

/-- R425: block A is found; block B comes next. -/
def State.lock (s : State) : State :=
  { s with
    haveSync := true
    group0 := windowData s.shift
    slot := 1
    bitcnt := 0
    syncCount := s.syncCount + 1 }

/-- R425: the window is full and has the syndrome of block A. -/
def State.locks (s : State) : Bool := s.bitcnt == 26 && syndrome s.shift == offsetA

/-- R425: `hunt_step()`. -/
def huntStep (s : State) : State :=
  if s.countBit.locks then s.countBit.lock else s.countBit

/-- R426: `R(GROUP[slot]) <- v`. -/
def State.storeBlock (s : State) (slot : BitVec 2) (v : BitVec 16) : State :=
  if slot = 0 then { s with group0 := v }
  else if slot = 1 then { s with group1 := v }
  else if slot = 2 then { s with group2 := v }
  else { s with group3 := v }

/-- R426: the count restarts and the slot moves on; after slot D the group is dispatched. -/
def State.nextSlot (s : State) : State :=
  let s := { s with bitcnt := 0 }
  if s.slot = 3 then
    groupDispatch s.group0 s.group1 s.group2 s.group3 { s with slot := 0 }
  else { s with slot := s.slot + 1 }

/-- R426: the window is a complete block: it is stored in its slot whatever its syndrome is. -/
def State.completeBlock (s : State) : State :=
  (s.storeBlock s.slot (windowData s.shift)).nextSlot

/-- R426: `sync_step()`; no syndrome is computed. -/
def syncStep (s : State) : State :=
  let s := { s with bitcnt := s.bitcnt + 1 }
  if s.bitcnt == 26 then s.completeBlock else s

/-- R424: `block_step(d)`; the oldest bit of the window falls out. -/
def blockStep (d : Bool) (s : State) : State :=
  let s := { s with shift := (s.shift.extractLsb' 0 25).concat d }
  if s.haveSync then syncStep s else huntStep s

/-- The effect of RDS_BIT on legal operands (R427). -/
def rdsBitBody (ws : List Word) (s : State) : State :=
  ws.foldl (fun s w => blockStep (operandBit w) s) s

/-- RDS_BIT (R427). -/
def execRdsBit (sel : BitVec 8) (ws : List Word) (s : State) : Host.Outcome State Fault Refusal :=
  command (sel == 0) (1 + ws.length) (rdsBitBody ws) s

end Sys2Proof.Machine
end

