-- ==== Sys2Proof/Machine/RdsBits.lean ====
section
/-! DEFINITION. The RDS front end, chip slicer, Manchester and differential decoders, and RDS_PROC,
RDS_SLICE and RDS_CHIP (44_rds_bits.md). -/

namespace Sys2Proof.Machine

open Sys2Proof

/-- R379: `sync_loss()`. -/
def syncLoss (s : State) : State :=
  { s with
    haveSync := false
    slot := 0
    bitcnt := 0
    shift := 0
    prevBit := if s.diffRst then false else s.prevBit }

/-- R378: `diff(b)`; the preceding bit is the previous Manchester output. -/
def diffStep (b : Bool) (s : State) : State :=
  blockStep (b != s.prevBit) { s with prevBit := b }

/-- R377: `invalid_pair(second)`. -/
def invalidPair (second : Bool) (s : State) : State :=
  let s := syncLoss s
  if s.manSlip then { s with chip0 := second, chipPend := true } else s

/-- R376: `decode_pair(first, second)`. -/
def decodePair (first second : Bool) (s : State) : State :=
  match first, second with
  | false, true => diffStep true s
  | true, false => diffStep false s
  | false, false => invalidPair second s
  | true, true => invalidPair second s

/-- R374: `manchester(chip)`. -/
def manchester (chip : Bool) (s : State) : State :=
  if s.chipPend then decodePair s.chip0 chip { s with chipPend := false, chip0 := false }
  else { s with chip0 := chip, chipPend := true }

/-- R372: the chip of a sample, 1 when it is greater than 0.0. -/
def chipOf (l : Word) : Bool := F32.gt l F32.posZero

/-- R372: `slice(l)`. -/
def slice (l : Word) : M Unit := do
  let s ← get
  let acc ← fadd s.chipAcc s.chipInc
  if F32.ge acc F32.one then
    let acc ← fsub acc F32.one
    modify fun s => manchester (chipOf l) { s with chipAcc := acc }
  else modify fun s => { s with chipAcc := acc }

/-- R370: the real part of (b + j0)·c, as 41_nco_mixer.md R253 computes it. -/
def mixReal (b : Word) (c : Cplx) : M Word := do
  let rr ← fmul b c.re
  let ii ← fmul F32.posZero c.im
  fsub rr ii

/-- R370: `rds_front(m)`. -/
def rdsFront (m : Word) : M Unit := do
  match ← firStepR .rb m with
  | none => pure ()
  | some b =>
    let c ← ncoNext
    let r ← mixReal b c
    match ← firStepR .rl r with
    | none => pure ()
    | some l => slice l

/-- RDS_PROC (R371); it runs whatever CTRL.RDS_EN is (10_state.md R43). -/
def execRdsProc (sel : BitVec 8) (xs : List Word) (s : State) :
    Host.Outcome State Fault Refusal :=
  command (sel == 0) (1 + xs.length) (runM (forEach rdsFront xs)) s

/-- RDS_SLICE (R373). -/
def execRdsSlice (sel : BitVec 8) (xs : List Word) (s : State) :
    Host.Outcome State Fault Refusal :=
  command (sel == 0) (1 + xs.length) (runM (forEach slice xs)) s

/-- The effect of RDS_CHIP on legal operands (R375). -/
def rdsChipBody (ws : List Word) (s : State) : State :=
  ws.foldl (fun s w => manchester (operandBit w) s) s

/-- RDS_CHIP (R375). -/
def execRdsChip (sel : BitVec 8) (ws : List Word) (s : State) : Host.Outcome State Fault Refusal :=
  command (sel == 0) (1 + ws.length) (rdsChipBody ws) s

end Sys2Proof.Machine
end

