-- ==== Sys2Proof/Machine/Chain.lean ====
section
/-! DEFINITION. The processing chain and CHAIN_U8 (47_control.md R515, R516). -/

namespace Sys2Proof.Machine

open Sys2Proof

/-- R515: the RDS front end when CTRL.RDS_EN is 1. -/
def rdsGated (m : Word) : M Unit := do
  let s ← get
  if s.rdsEn then rdsFront m else pure ()

/-- R515: the stages after the channel filter: the demodulator, the RDS front end when it is enabled,
then the audio resampler. -/
def chainTail (c : Cplx) : M (Option Int) := do
  let mpx ← fmdStep c
  rdsGated mpx
  audStep mpx

/-- R515: `chain_step(w)`. -/
def chainStep (w : Word) : M (Option Int) := do
  let x ← iqConv w
  match ← firStepC x with
  | none => pure none
  | some c => chainTail c

/-- The effect of CHAIN_U8 on legal operands (R516): there is no capacity, every PCM sample is
emitted, then their count. -/
def chainU8Body (ws : List Word) : M Unit := do
  let kept ← keepOutputs chainStep (fun _ => true) ws 0
  modify fun s => s.emitCounted (kept.map pcmWord) kept.length

/-- CHAIN_U8 (R516). -/
def execChainU8 (sel : BitVec 8) (ws : List Word) (s : State) : Host.Outcome State Fault Refusal :=
  command (sel == 0) (1 + ws.length) (runM (chainU8Body ws)) s

end Sys2Proof.Machine
end

