-- ==== Sys2Proof/Machine/Registers.lean ====
section
/-! DEFINITION. The register space: the address map (20_memory.md R102, 10_state.md R42), `MemRead`,
and the write effects of 47_control.md R514. -/

namespace Sys2Proof.Machine

open Sys2Proof

/-- The four FIR engines in the order of their numbers (R50). -/
def insts : List Inst := [.ch, .real .au, .real .rb, .real .rl]

/-- The registers of the range 0x0000..0x0FFF that are no FIR registers (R42). -/
def plainRegs : List (Nat × Reg) :=
  [(0x0000, .ctrl), (0x0001, .status), (0x0002, .err),
   (0x0003, .groupCount), (0x0004, .psPubCount), (0x0005, .syncCount),
   (0x0008, .audGain), (0x0009, .deemphA), (0x000A, .deemphY),
   (0x0010, .ncoInc), (0x0011, .ncoPhase),
   (0x0018, .chipInc), (0x0019, .chipAcc), (0x001A, .chipBuf), (0x001B, .prevBit),
   (0x001C, .shift), (0x001D, .bitcnt),
   (0x0020, .group0), (0x0021, .group1), (0x0022, .group2), (0x0023, .group3),
   (0x0028, .psBuf0), (0x0029, .psBuf1), (0x002A, .psPub0), (0x002B, .psPub1), (0x002C, .psMask),
   (0x0030, .fmdPrevI), (0x0031, .fmdPrevQ), (0x0032, .fmdHasPrev)]

/-- The FIR registers of engine number n, at 0x0040 + 4n (R42). -/
def firRegs (n : Nat) (i : Inst) : List (Nat × Reg) :=
  [(0x0040 + 4 * n, .firT i), (0x0041 + 4 * n, .firD i),
   (0x0042 + 4 * n, .firPhase i), (0x0043 + 4 * n, .firWptr i)]

/-- Every register but the taps, with its address (R42). -/
def regTable : List (Nat × Reg) :=
  plainRegs ++ (firRegs 0 .ch ++ (firRegs 1 (.real .au) ++ (firRegs 2 (.real .rb) ++
    firRegs 3 (.real .rl))))

/-- R102: the register at a word address; none for an unmapped one. -/
def regAt (addr : BitVec 16) : Option Reg :=
  let a := addr.toNat
  if a < 0x1000 then (regTable.find? fun row => row.1 == a).map (·.2)
  else if a % 0x1000 < Config.TMAX then insts[a / 0x1000 - 1]?.map fun i => .tap i (a % 0x1000)
  else none

/-- R42: the registers with some writable field; every other one is wholly read only. -/
def Reg.writable : Reg → Bool
  | .ctrl | .status | .err => true
  | .audGain | .deemphA | .ncoInc | .chipInc => true
  | .firT _ | .firD _ | .tap _ _ => true
  | .groupCount | .psPubCount | .syncCount | .deemphY | .ncoPhase => false
  | .chipAcc | .chipBuf | .prevBit | .shift | .bitcnt => false
  | .group0 | .group1 | .group2 | .group3 => false
  | .psBuf0 | .psBuf1 | .psPub0 | .psPub1 | .psMask => false
  | .fmdPrevI | .fmdPrevQ | .fmdHasPrev => false
  | .firPhase _ | .firWptr _ => false

/-- The tap count of an engine. -/
def State.firT (s : State) : Inst → BitVec 16
  | .ch => s.ch.t
  | .real i => (s.fir i).t

/-- The decimation factor of an engine. -/
def State.firD (s : State) : Inst → BitVec 16
  | .ch => s.ch.d
  | .real i => (s.fir i).d

/-- The decimation phase of an engine. -/
def State.firPhase (s : State) : Inst → BitVec 16
  | .ch => s.ch.phase
  | .real i => (s.fir i).phase

/-- The write cursor of an engine. -/
def State.firWptr (s : State) : Inst → BitVec 16
  | .ch => s.ch.wptr
  | .real i => (s.fir i).wptr

/-- The tap memory of an engine. -/
def State.taps (s : State) : Inst → Memory Word
  | .ch => s.ch.taps
  | .real i => (s.fir i).taps

/-- R42, R512: the word a register reads as; reserved bits are 0. -/
def memRead (r : Reg) (s : State) : Word :=
  match r with
  | .ctrl => s.ctrl.setWidth 32
  | .status => s.statusWord
  | .err => s.err.setWidth 32
  | .groupCount => s.groupCount
  | .psPubCount => s.psPubCount
  | .syncCount => s.syncCount
  | .audGain => s.audGain
  | .deemphA => s.deemphA
  | .deemphY => s.deemphY
  | .ncoInc => s.ncoInc
  | .ncoPhase => s.ncoPhase
  | .chipInc => s.chipInc
  | .chipAcc => s.chipAcc
  | .chipBuf => (BitVec.ofBool s.chip0 ++ BitVec.ofBool s.chipPend).setWidth 32
  | .prevBit => (BitVec.ofBool s.prevBit).setWidth 32
  | .shift => s.shift.setWidth 32
  | .bitcnt => s.bitcnt.setWidth 32
  | .group0 => s.group0.setWidth 32
  | .group1 => s.group1.setWidth 32
  | .group2 => s.group2.setWidth 32
  | .group3 => s.group3.setWidth 32
  | .psBuf0 => s.psBuf0
  | .psBuf1 => s.psBuf1
  | .psPub0 => s.psPub0
  | .psPub1 => s.psPub1
  | .psMask => s.psMask.setWidth 32
  | .fmdPrevI => s.fmdPrevI
  | .fmdPrevQ => s.fmdPrevQ
  | .fmdHasPrev => (BitVec.ofBool s.fmdHasPrev).setWidth 32
  | .firT i => (s.firT i).setWidth 32
  | .firD i => (s.firD i).setWidth 32
  | .firPhase i => (s.firPhase i).setWidth 32
  | .firWptr i => (s.firWptr i).setWidth 32
  | .tap i k => Memory.read F32.posZero (s.taps i) k

/-- 10_state.md R51: a legal tap count, odd and at most TMAX, nothing in bits 31:16. -/
def legalT (v : Word) : Bool :=
  v.extractLsb' 16 16 == 0 && v.getLsbD 0 && decide (v.toNat ≤ Config.TMAX)

/-- 10_state.md R51: a legal decimation factor, 1 to DMAX, nothing in bits 31:16. -/
def legalD (v : Word) : Bool :=
  v.extractLsb' 16 16 == 0 && v != 0 && decide (v.toNat ≤ Config.DMAX)

/-- The engine with a tap count stored. -/
def State.storeT (s : State) (i : Inst) (t : BitVec 16) : State :=
  match i with
  | .ch => { s with ch := { s.ch with t := t } }
  | .real j => s.setFir j { s.fir j with t := t }

/-- The engine with a decimation factor stored. -/
def State.storeD (s : State) (i : Inst) (d : BitVec 16) : State :=
  match i with
  | .ch => { s with ch := { s.ch with d := d } }
  | .real j => s.setFir j { s.fir j with d := d }

/-- The engine with one tap stored. -/
def State.storeTap (s : State) (i : Inst) (k : Nat) (v : Word) : State :=
  match i with
  | .ch => { s with ch := { s.ch with taps := Memory.write F32.posZero s.ch.taps k v } }
  | .real j =>
    s.setFir j { s.fir j with taps := Memory.write F32.posZero (s.fir j).taps k v }

/-- R514: `write_effect` of FIR_T[i]: a legal value is stored and the engine reset; any other
raises BAD_CFG and stores nothing. -/
def State.writeFirT (s : State) (i : Inst) (v : Word) : State :=
  if legalT v then (s.storeT i (v.extractLsb' 0 16)).firReset i else s.raise .badCfg

/-- R514: `write_effect` of FIR_D[i]. -/
def State.writeFirD (s : State) (i : Inst) (v : Word) : State :=
  if legalD v then (s.storeD i (v.extractLsb' 0 16)).firReset i else s.raise .badCfg

/-- R514: `write_effect(addr, v)`. A wholly read-only register is refused before this is asked
(R513), and is left as it is here. -/
def memWrite (r : Reg) (v : Word) (s : State) : State :=
  match r with
  | .ctrl => s.writeCtrl v
  | .status => s.writeStatus v
  | .err => s.writeErr v
  | .audGain => { s with audGain := v }
  | .deemphA => { s with deemphA := v }
  | .ncoInc => { s with ncoInc := v }
  | .chipInc => { s with chipInc := v }
  | .firT i => s.writeFirT i v
  | .firD i => s.writeFirD i v
  | .tap i k => s.storeTap i k v
  | .groupCount | .psPubCount | .syncCount | .deemphY | .ncoPhase => s
  | .chipAcc | .chipBuf | .prevBit | .shift | .bitcnt => s
  | .group0 | .group1 | .group2 | .group3 => s
  | .psBuf0 | .psBuf1 | .psPub0 | .psPub1 | .psMask => s
  | .fmdPrevI | .fmdPrevQ | .fmdHasPrev => s
  | .firPhase _ | .firWptr _ => s

end Sys2Proof.Machine
end

