-- ==== Sys2Proof/Machine/Control.lean ====
section
/-! DEFINITION. The control family NOP, RESET, REG_READ and REG_WRITE (47_control.md). -/

namespace Sys2Proof.Machine

open Sys2Proof

/-- NOP (R510). -/
def execNop (sel : BitVec 8) (imm : BitVec 16) (s : State) : Host.Outcome State Fault Refusal :=
  command (sel == 0 && imm == 0) 1 id s

/-- R511, mask bit 1: the demodulator. -/
def State.resetFmd (s : State) : State :=
  { s with fmdPrevI := F32.posZero, fmdPrevQ := F32.posZero, fmdHasPrev := false }

/-- R511, mask bit 2: the audio resampler (43_audio.md R335). -/
def State.resetAud (s : State) : State :=
  { s with deemphY := F32.posZero }.firReset (.real .au)

/-- R511, mask bit 3: bit recovery and synchronizer; NCO_INC is kept. -/
def State.resetRds (s : State) : State :=
  let s := (s.firReset (.real .rb)).firReset (.real .rl)
  { s with
    ncoPhase := F32.posZero
    chipAcc := F32.posZero
    chipPend := false
    chip0 := false
    prevBit := false
    shift := 0
    bitcnt := 0
    haveSync := false
    slot := 0
    group0 := 0
    group1 := 0
    group2 := 0
    group3 := 0 }

/-- R511, mask bit 4: the PS accumulator (46_rds_group.md R476). -/
def State.resetPs (s : State) : State :=
  { s with
    psBuf0 := 0x20202020#32
    psBuf1 := 0x20202020#32
    psMask := 0
    psPub0 := 0
    psPub1 := 0
    psValid := false
    psNew := false }

/-- R511: the units of a mask, bits 0 to 4 in this order. -/
def resetUnits (mask : BitVec 8) (s : State) : State :=
  let s := if mask.getLsbD 0 then s.firReset .ch else s
  let s := if mask.getLsbD 1 then s.resetFmd else s
  let s := if mask.getLsbD 2 then s.resetAud else s
  let s := if mask.getLsbD 3 then s.resetRds else s
  if mask.getLsbD 4 then s.resetPs else s

/-- RESET (R511). -/
def execReset (sel : BitVec 8) (imm : BitVec 16) (s : State) : Host.Outcome State Fault Refusal :=
  command (sel.extractLsb' 5 3 == 0 && imm == 0) 1 (resetUnits sel) s

/-- The effect of REG_READ on legal operands (R512): an unmapped read raises BAD_REG and still
emits one word. -/
def regReadBody (addr : BitVec 16) (s : State) : State :=
  match regAt addr with
  | none => (s.raise .badReg).emit 0
  | some r => s.emit (memRead r s)

/-- REG_READ (R512). -/
def execRegRead (sel : BitVec 8) (addr : BitVec 16) (s : State) :
    Host.Outcome State Fault Refusal :=
  command (sel == 0) 1 (regReadBody addr) s

/-- The effect of REG_WRITE on legal operands (R513): an unmapped address or a wholly read-only
register raises BAD_REG. -/
def regWriteBody (addr : BitVec 16) (v : Word) (s : State) : State :=
  match regAt addr with
  | none => s.raise .badReg
  | some r => if r.writable then memWrite r v s else s.raise .badReg

/-- REG_WRITE (R513). -/
def execRegWrite (sel : BitVec 8) (addr : BitVec 16) (v : Word) (s : State) :
    Host.Outcome State Fault Refusal :=
  command (sel == 0) 2 (regWriteBody addr v) s

end Sys2Proof.Machine
end

