-- ==== Sys2Proof/Machine/Dispatch.lean ====
section
/-! DEFINITION. One arm per command: the meaning of each (30_encoding.md R144, last column). -/

namespace Sys2Proof.Machine

open Sys2Proof

def exec (i : Instr) (s : State) : Host.Outcome State Fault Refusal :=
  match i with
  | .nop sel imm => Sys2Proof.Machine.execNop sel imm s
  | .reset sel imm => Sys2Proof.Machine.execReset sel imm s
  | .regRead sel addr => Sys2Proof.Machine.execRegRead sel addr s
  | .regWrite sel addr v => Sys2Proof.Machine.execRegWrite sel addr v s
  | .firProcC sel cap xs => Sys2Proof.Machine.execFirProcC sel cap xs s
  | .firProcR sel cap xs => Sys2Proof.Machine.execFirProcR sel cap xs s
  | .firReset sel imm => Sys2Proof.Machine.execFirReset sel imm s
  | .ncoSet sel imm fs f => Sys2Proof.Machine.execNcoSet sel imm fs f s
  | .ncoNext sel n => Sys2Proof.Machine.execNcoNext sel n s
  | .mix sel xs => Sys2Proof.Machine.execMix sel xs s
  | .convU8 sel ws => Sys2Proof.Machine.execConvU8 sel ws s
  | .fmdProc sel cap xs => Sys2Proof.Machine.execFmdProc sel cap xs s
  | .audProc sel cap xs => Sys2Proof.Machine.execAudProc sel cap xs s
  | .rdsProc sel xs => Sys2Proof.Machine.execRdsProc sel xs s
  | .rdsSlice sel xs => Sys2Proof.Machine.execRdsSlice sel xs s
  | .rdsChip sel ws => Sys2Proof.Machine.execRdsChip sel ws s
  | .rdsBit sel ws => Sys2Proof.Machine.execRdsBit sel ws s
  | .crcSyn sel imm w => Sys2Proof.Machine.execCrcSyn sel imm w s
  | .rdsGroup sel imm a b c d => Sys2Proof.Machine.execRdsGroup sel imm a b c d s
  | .chainU8 sel ws => Sys2Proof.Machine.execChainU8 sel ws s

end Sys2Proof.Machine
end

