-- ==== Sys2Proof/Machine/Step.lean ====
section
/-! DEFINITION. One step of the machine: one command (30_encoding.md R143). -/

namespace Sys2Proof.Machine

open Sys2Proof

/-- R143: the command at `cp` executes when it is complete; an unknown opcode is an illegal command
of one word (60_exceptions.md R561); otherwise the machine waits (70_reset_and_hazards.md R619). -/
def step (s : State) : Host.Outcome State Fault Refusal :=
  match decode (fetch s) with
  | .ok (i, _) => exec i s
  | .error (.unknownOpcode _) => unknownOpcode s
  | .error .noWord => wait s
  | .error (.payloadMissing _ _) => wait s

/-- The state with the command of an opcode-table number standing in the command stream at `cp`,
payload words and all, so that the next step runs it. -/
def State.withFetchWord (s : State) (nbits w : Nat) : State := s.placeWords (tableWords nbits w)

end Sys2Proof.Machine
end

