-- ==== Sys2Proof/Safety.lean ====
section
/-! DEFINITION. The terms claims about GP2-DSP are stated in: the invariant of every state a run can
reach, what a rounded or drawn f32 result may be, and what each unit does to a whole list of samples,
written over whole streams and not over steps. Nothing of the machine uses this file. -/

namespace Sys2Proof.Machine

open Sys2Proof

/-! ## The invariant -/

/-- 40_fir.md R200, 10_state.md R51 to R53: T odd in 1..TMAX, 1 ≤ D, cursor below T, phase below D,
taps and delay line in canonical form, no tap past TMAX and no delay entry past T. -/
structure FirOk {α : Type} [DecidableEq α] (zero : α) (f : Fir α) : Prop where
  odd : f.t.toNat % 2 = 1
  tmax : f.t.toNat ≤ Config.TMAX
  dpos : 1 ≤ f.d.toNat
  cursor : f.wptr.toNat < f.t.toNat
  phase : f.phase.toNat < f.d.toNat
  tapsWf : Memory.wf F32.posZero f.taps = true
  tapsBelow : Memory.below Config.TMAX f.taps = true
  dlWf : Memory.wf zero f.dl = true
  dlBelow : Memory.below f.t.toNat f.dl = true

/-- 10_state.md R55: character c (0 to 7) of a name held in two words. -/
def nameChar (w0 w1 : Word) (c : Nat) : Byte :=
  if c / 4 = 0 then w0.extractLsb' (8 * (c % 4)) 8 else w1.extractLsb' (8 * (c % 4)) 8

/-- 46_rds_group.md R478: every character of a name is in 32..126. -/
def NamePrintable (w0 w1 : Word) : Prop :=
  ∀ c, c < 8 → 32 ≤ (nameChar w0 w1 c).toNat ∧ (nameChar w0 w1 c).toNat ≤ 126

/-- What every reachable state satisfies. -/
structure Inv (s : State) : Prop where
  /-- R41: `cp` never runs past the words supplied. -/
  cp : s.cp ≤ s.stream.length
  ch : FirOk cplxZero s.ch
  au : FirOk F32.posZero s.au
  rb : FirOk F32.posZero s.rb
  rl : FirOk F32.posZero s.rl
  /-- R49: BITCNT is 0..26, and below 26 while SYNCED. -/
  bitcnt : s.bitcnt.toNat ≤ 26
  bitcntSync : s.haveSync = true → s.bitcnt.toNat < 26
  /-- R44: SLOT reads 0 while UNSYNCED. -/
  slot : s.haveSync = false → s.slot = 0
  /-- R49: CHIP0 reads 0 while PEND is 0. -/
  chip : s.chipPend = false → s.chip0 = false
  /-- R478. -/
  buf : NamePrintable s.psBuf0 s.psBuf1
  /-- R478: PS_VALID implies a complete mask. -/
  valid : s.psValid = true → s.psMask = 0xF#4
  /-- R470, R474: a complete buffer is the published name. -/
  complete : s.psMask = 0xF#4 → s.psValid = true ∧ s.psPub0 = s.psBuf0 ∧ s.psPub1 = s.psBuf1
  /-- R55: the published name reads 0 until the first publication. -/
  unpublished : s.psValid = false → s.psPub0 = 0 ∧ s.psPub1 = 0
  /-- R474, R476: PS_NEW is only set once a name is published. -/
  new : s.psNew = true → s.psValid = true

/-- A step that runs a command and raises no error bit that was clear: the safe step of a run. -/
def SafeStep (s t : State) : Prop := step s = .next t ∧ s.cp < t.cp ∧ t.err &&& ~~~s.err = 0

/-! ## Results of f32 operations -/

/-- R11: a quiet NaN: exponent all ones and the first fraction bit 1. -/
def IsQuietNaN (w : Word) : Prop := F32.expo w = 255 ∧ w.getLsbD 22 = true

/-- R10, R11: what a word may be as the result of an operation: its value, or where the operation
gives a NaN, some quiet NaN. -/
def Res (r : Option Word) (w : Word) : Prop :=
  match r with
  | some v => w = v
  | none => IsQuietNaN w

/-- R10: `r` is the binary32 value nearest to `num / den` units of 2^-149 with the given sign, a tie
going to the even fraction; from half a spacing past the largest finite value on it is the infinity. -/
def NearestEven (neg : Bool) (num den : Nat) (r : Word) : Prop :=
  if (2 ^ 25 - 1) * 2 ^ 252 * den ≤ num then r = F32.pack neg F32.infMag
  else F32.isFinite r = true ∧ F32.sign r = neg ∧
    ∀ c, F32.isFinite c = true →
      ((num : Int) - F32.units r * den).natAbs ≤ ((num : Int) - F32.units c * den).natAbs ∧
      (((num : Int) - F32.units r * den).natAbs = ((num : Int) - F32.units c * den).natAbs →
        F32.units c ≠ F32.units r → F32.frac r % 2 = 0)

/-! ## Units over whole streams -/

/-- R203: `y` is the inner product of the pairs (tap, sample) taken in order from `acc` on. -/
def Dot : List (Word × Word) → Word → Word → Prop
  | [], acc, y => y = acc
  | (c, x) :: rest, acc, y =>
    ∃ p a, Res (F32.mul c x) p ∧ Res (F32.add acc p) a ∧ Dot rest a y

/-- R203: a real output from +0.0. -/
def DotReal (ps : List (Word × Word)) (y : Word) : Prop := Dot ps F32.posZero y

/-- R204: a complex output, each part a real one. -/
def DotCplx (ps : List (Word × Cplx)) (y : Cplx) : Prop :=
  DotReal (ps.map fun p => (p.1, p.2.re)) y.re ∧ DotReal (ps.map fun p => (p.1, p.2.im)) y.im

/-- R201: the last T inputs, oldest first. -/
def firWindow {α : Type} (zero : α) (f : Fir α) : List α :=
  (List.range f.t.toNat).map (f.sample zero)

/-- R203: the taps that take part, TAP[0] first. -/
def firTaps {α : Type} (f : Fir α) : List Word := (List.range f.t.toNat).map f.tap

/-- R201 to R205: what stepping an engine over inputs `xs` gives: the outputs `ys`, produced or
dropped, and the engine afterwards. The j-th output is taken after input number (j+1)·D - phase. -/
structure FirRun {α : Type} (zero : α) (dot : List (Word × α) → α → Prop)
    (f : Fir α) (xs ys : List α) (f' : Fir α) : Prop where
  count : ys.length = (f.phase.toNat + xs.length) / f.d.toNat
  outputs : ∀ j y, ys[j]? = some y →
    dot ((firTaps f).zip (((firWindow zero f ++ xs).drop ((j + 1) * f.d.toNat - f.phase.toNat)).take
      f.t.toNat)) y
  t : f'.t = f.t
  d : f'.d = f.d
  taps : f'.taps = f.taps
  phase : f'.phase.toNat = (f.phase.toNat + xs.length) % f.d.toNat
  cursor : f'.wptr.toNat = (f.wptr.toNat + xs.length) % f.t.toNat
  window : firWindow zero f' = (firWindow zero f ++ xs).drop xs.length

/-- R251: the phase after one oscillator step. -/
def PhaseNext (inc phi phi' : Word) : Prop :=
  ∃ p, Res (F32.add phi inc) p ∧
    if F32.ge p Config.TWO_PI_F32 then Res (F32.sub p Config.TWO_PI_F32) phi'
    else if F32.lt p F32.posZero then Res (F32.add p Config.TWO_PI_F32) phi'
    else phi' = p

/-- 41_nco_mixer.md R256: the phase is in [0, 2π], 2π being TWO_PI_F32. -/
def PhaseInRange (s : State) : Prop :=
  F32.le F32.posZero s.ncoPhase = true ∧ F32.le s.ncoPhase 0x40C90FDB#32 = true

/-- R256: the increment is strictly between -2π and 2π. -/
def IncInRange (s : State) : Prop :=
  F32.lt 0xC0C90FDB#32 s.ncoInc = true ∧ F32.lt s.ncoInc 0x40C90FDB#32 = true

/-- R251: `phi k` is the phase before the (k+1)-th of n oscillator steps. -/
def NcoRun (inc : Word) (n : Nat) (phi : Nat → Word) : Prop :=
  ∀ k, k < n → PhaseNext inc (phi k) (phi (k + 1))

/-- R253: `mix(x, c)`. -/
def MixResult (x c y : Cplx) : Prop :=
  ∃ rr ii ri ir, Res (F32.mul x.re c.re) rr ∧ Res (F32.mul x.im c.im) ii ∧ Res (F32.sub rr ii) y.re ∧
    Res (F32.mul x.re c.im) ri ∧ Res (F32.mul x.im c.re) ir ∧ Res (F32.add ri ir) y.im

/-- R370: the real part of (b + j0)·c. -/
def MixRealResult (b : Word) (c : Cplx) (r : Word) : Prop :=
  ∃ rr ii, Res (F32.mul b c.re) rr ∧ Res (F32.mul F32.posZero c.im) ii ∧ Res (F32.sub rr ii) r

/-- R292: one demodulator output, from the previous sample, if any, and the current one. -/
def FmdResult (prev : Option Cplx) (x : Cplx) (y : Word) : Prop :=
  match prev with
  | none => y = F32.posZero
  | some p =>
    ∃ rr ii re ri ir im, Res (F32.mul p.re x.re) rr ∧ Res (F32.mul p.im x.im) ii ∧
      Res (F32.add rr ii) re ∧ Res (F32.mul p.re x.im) ri ∧ Res (F32.mul p.im x.re) ir ∧
      Res (F32.sub ri ir) im ∧ y = Config.fatan2 im re

/-- R292, R54: the demodulator's previous sample. -/
def State.fmdPrev (s : State) : Option Cplx :=
  if s.fmdHasPrev then some ⟨s.fmdPrevI, s.fmdPrevQ⟩ else none

/-- R292: one output per input, each input becoming the previous one of the next. -/
def FmdRun : Option Cplx → List Cplx → List Word → Prop
  | _, [], ys => ys = []
  | prev, x :: xs, ys => ∃ y rest, ys = y :: rest ∧ FmdResult prev x y ∧ FmdRun (some x) xs rest

/-- R292: the state with `prev` holding the last of the samples taken. -/
def State.withPrev (s : State) (xs : List Cplx) : State :=
  match xs.getLast? with
  | none => s
  | some x => { s with fmdPrevI := x.re, fmdPrevQ := x.im, fmdHasPrev := true }

/-- R330: one de-emphasis step. -/
def DeemphNext (a x y y' : Word) : Prop :=
  ∃ d m, Res (F32.sub x y) d ∧ Res (F32.mul a d) m ∧ Res (F32.add y m) y'

/-- R330: the filter states after each of the inputs, in order. -/
def DeemphRun (a : Word) : Word → List Word → List Word → Prop
  | _, [], ys => ys = []
  | y, x :: xs, ys => ∃ y' rest, ys = y' :: rest ∧ DeemphNext a x y y' ∧ DeemphRun a y' xs rest

/-- R331: gain, clip with a NaN to 0.0, scale, rounding half away from zero. -/
def QuantResult (gain z : Word) (q : Int) : Prop :=
  ∃ v m, Res (F32.mul z gain) v ∧
    Res (F32.mul (if F32.isNaN v then F32.posZero else if F32.gt v F32.one then F32.one
      else if F32.lt v F32.negOne then F32.negOne else v) Config.PCM_SCALE) m ∧
    q = F32.roundHalfAway m

/-- R332: the resampler over inputs `xs`: its PCM values, de-emphasis state and AU engine after. -/
def AudRun (a gain y : Word) (f : Fir Word) (xs : List Word) (qs : List Int) (y' : Word)
    (f' : Fir Word) : Prop :=
  ∃ ys zs, DeemphRun a y xs ys ∧ y' = ys.getLastD y ∧ FirRun F32.posZero DotReal f ys zs f' ∧
    List.Forall₂ (QuantResult gain) zs qs

/-- R372: one slicer step: the accumulator after, and whether a chip is taken. -/
def AccNext (inc acc acc' : Word) (taken : Bool) : Prop :=
  ∃ p, Res (F32.add acc inc) p ∧ taken = F32.ge p F32.one ∧
    if taken then Res (F32.sub p F32.one) acc' else acc' = p

/-- R372: the slicer over samples: the accumulator after, and the chips taken in order, each 1 when
its sample is greater than 0.0. -/
def SliceRun (inc : Word) : Word → List Word → Word → List Bool → Prop
  | acc, [], acc', chips => acc' = acc ∧ chips = []
  | acc, l :: ls, acc', chips =>
    ∃ mid taken rest, AccNext inc acc mid taken ∧ SliceRun inc mid ls acc' rest ∧
      chips = (if taken then F32.lt F32.posZero l :: rest else rest)

/-- A chip or bit as a payload word. -/
def bitWord (b : Bool) : Word := if b then 1 else 0

/-- R374 to R379: what feeding chips does, by the machine's own RDS_CHIP, its words not counted. -/
def chipsEffect (chips : List Bool) (s : State) : State := rdsChipBody (chips.map bitWord) s

/-- R370: the RDS front end over MPX samples: RB, one oscillator step and one real product per RB
output, RL, and the slicer on the RL outputs. -/
def RdsRun (s : State) (ms : List Word) (u : State) : Prop :=
  ∃ bs rs ls phi acc chips rb' rl' n,
    FirRun F32.posZero DotReal s.rb ms bs rb' ∧
    phi 0 = s.ncoPhase ∧ NcoRun s.ncoInc bs.length phi ∧
    rs.length = bs.length ∧
    (∀ k b r, bs[k]? = some b → rs[k]? = some r → MixRealResult b (conjSample (phi k)) r) ∧
    FirRun F32.posZero DotReal s.rl rs ls rl' ∧
    SliceRun s.chipInc s.chipAcc ls acc chips ∧
    u = { chipsEffect chips s with
      rb := rb', rl := rl', ncoPhase := phi bs.length, chipAcc := acc, nanDraws := n }

/-! ## The register space as 10_state.md R42 lists it -/

/-- A flag as a number. -/
def flagNat (b : Bool) : Nat := if b then 1 else 0

/-- R44, R512, R56: the STATUS word, written with the numbers of its fields. -/
def statusNat (s : State) : Nat :=
  flagNat s.haveSync + 2 * s.slot.toNat + 8 * flagNat s.psValid + 16 * flagNat s.psNew +
    32 * flagNat ((s.ctrl.getLsbD 1 && s.psNew) || (s.ctrl.getLsbD 2 && decide (s.err ≠ 0)))

/-- R42: the four FIR registers of one engine, at 0x0040 + 4n. -/
def firRegisterNats (n t d phase wptr : Nat) : List (Nat × Nat) :=
  [(0x0040 + 4 * n, t), (0x0041 + 4 * n, d), (0x0042 + 4 * n, phase), (0x0043 + 4 * n, wptr)]

/-- R42: every register but the taps: its address and the number its word stands for. -/
def registerNats (s : State) : List (Nat × Nat) :=
  [(0x0000, s.ctrl.toNat), (0x0001, statusNat s), (0x0002, s.err.toNat),
   (0x0003, s.groupCount.toNat), (0x0004, s.psPubCount.toNat), (0x0005, s.syncCount.toNat),
   (0x0008, s.audGain.toNat), (0x0009, s.deemphA.toNat), (0x000A, s.deemphY.toNat),
   (0x0010, s.ncoInc.toNat), (0x0011, s.ncoPhase.toNat),
   (0x0018, s.chipInc.toNat), (0x0019, s.chipAcc.toNat),
   (0x001A, flagNat s.chipPend + 2 * flagNat s.chip0), (0x001B, flagNat s.prevBit),
   (0x001C, s.shift.toNat), (0x001D, s.bitcnt.toNat),
   (0x0020, s.group0.toNat), (0x0021, s.group1.toNat), (0x0022, s.group2.toNat),
   (0x0023, s.group3.toNat),
   (0x0028, s.psBuf0.toNat), (0x0029, s.psBuf1.toNat), (0x002A, s.psPub0.toNat),
   (0x002B, s.psPub1.toNat), (0x002C, s.psMask.toNat),
   (0x0030, s.fmdPrevI.toNat), (0x0031, s.fmdPrevQ.toNat), (0x0032, flagNat s.fmdHasPrev)] ++
  firRegisterNats 0 s.ch.t.toNat s.ch.d.toNat s.ch.phase.toNat s.ch.wptr.toNat ++
  firRegisterNats 1 s.au.t.toNat s.au.d.toNat s.au.phase.toNat s.au.wptr.toNat ++
  firRegisterNats 2 s.rb.t.toNat s.rb.d.toNat s.rb.phase.toNat s.rb.wptr.toNat ++
  firRegisterNats 3 s.rl.t.toNat s.rl.d.toNat s.rl.phase.toNat s.rl.wptr.toNat

/-- R42: the reset column, as numbers. -/
def resetNats : List (Nat × Nat) :=
  [(0x0000, 1), (0x0001, 0), (0x0002, 0), (0x0003, 0), (0x0004, 0), (0x0005, 0),
   (0x0008, 0x3F800000), (0x0009, 0x3F800000), (0x000A, 0), (0x0010, 0), (0x0011, 0),
   (0x0018, 0), (0x0019, 0), (0x001A, 0), (0x001B, 0), (0x001C, 0), (0x001D, 0),
   (0x0020, 0), (0x0021, 0), (0x0022, 0), (0x0023, 0),
   (0x0028, 0x20202020), (0x0029, 0x20202020), (0x002A, 0), (0x002B, 0), (0x002C, 0),
   (0x0030, 0), (0x0031, 0), (0x0032, 0)] ++
  firRegisterNats 0 1 1 0 0 ++ firRegisterNats 1 1 1 0 0 ++ firRegisterNats 2 1 1 0 0 ++
  firRegisterNats 3 1 1 0 0

/-- R42, the access column: the addresses of the registers with some writable field, taps apart. -/
def writableAddrs : List Nat :=
  [0x0000, 0x0001, 0x0002, 0x0008, 0x0009, 0x0010, 0x0018,
   0x0040, 0x0041, 0x0044, 0x0045, 0x0048, 0x0049, 0x004C, 0x004D]

/-- R102: the address of TAP[n][k]. -/
def IsTapAddr (a : Nat) : Prop := ∃ n k, n < 4 ∧ k < 1023 ∧ a = 0x1000 + 0x1000 * n + k

/-! ## More terms of claims -/

/-- 41_nco_mixer.md R255: the commands that may move NCO_PHASE. -/
def movesPhase : Instr → Bool
  | .reset _ _ | .ncoNext _ _ | .mix _ _ | .rdsProc _ _ | .chainU8 _ _ => true
  | _ => false

/-- 45_rds_sync.md R428, 44_rds_bits.md R379: the commands that can end a synchronization. -/
def canUnsync : Instr → Bool
  | .reset sel _ => sel.getLsbD 3
  | .rdsProc _ _ | .rdsSlice _ _ | .rdsChip _ _ | .chainU8 _ _ => true
  | _ => false

/-- The two register commands, the only legal ones that can raise an error (R562). -/
def isRegCommand : Instr → Bool
  | .regRead _ _ | .regWrite _ _ _ => true
  | _ => false

/-- R380: differential encoding, each raw bit the data bit against the raw bit before it. -/
def diffEncode : Bool → List Bool → List Bool
  | _, [] => []
  | p, d :: ds => (d != p) :: diffEncode (d != p) ds

/-- R380: a raw bit as its chip pair, (0,1) for 1 and (1,0) for 0. -/
def chipPair (raw : Bool) : List Bool := if raw then [false, true] else [true, false]

/-- The state after one RDS_GROUP command, where it answers one. -/
def afterGroup (s : State) (a b c d : Word) : State :=
  match exec (.rdsGroup 0 0 a b c d) s with
  | .next t => t
  | _ => s

/-- R430: the syndrome of the window with bit p alone set. -/
def flipSyndromes : List (BitVec 10) :=
  [0x001, 0x002, 0x004, 0x008, 0x010, 0x020, 0x040, 0x080, 0x100, 0x200,
   0x1B9, 0x372, 0x35D, 0x303, 0x3BF, 0x2C7, 0x037, 0x06E, 0x0DC, 0x1B8, 0x370, 0x359, 0x30B, 0x3AF,
   0x2E7, 0x077]

/-- R422: the offset words with their class codes. -/
def offsetClasses : List (BitVec 10 × BitVec 3) :=
  [(0x0FC, 1), (0x198, 2), (0x168, 3), (0x350, 4), (0x1B4, 5)]

/-- R290: `z` is exactly (b - 127.5)/128. -/
def ConvExact (b : Byte) (z : Word) : Prop :=
  F32.isFinite z = true ∧ F32.value z * 256 = (2 * (b.toNat : Int) - 255) * 2 ^ 149

end Sys2Proof.Machine
end

