-- ==== Sys2Proof/Certificates/Slice0/Obligations.lean ====
section
/-! DEFINITION. The statements about GP2-DSP that are to be proved. Rules R<n> are those of spec/. A
statement about an f32 result holds whatever NaNs are drawn and whatever fcos, fsin and fatan2 are. -/

open Sys2Proof Sys2Proof.Machine

/-! ## Encoding -/

/-- Encoding and decoding a command, legal or not, gives it back and leaves the words after it. -/
def Obligations.DecodeEncodeRoundTrip : Prop :=
  ∀ (i : Instr) (rest : List Word), i.framed = true → decode (encode i ++ rest) = .ok (i, rest)

/-- Words that decode to a command are its encoding: each word has one meaning. -/
def Obligations.DecodedWordsAreTheEncoding : Prop :=
  ∀ (ws : List Word) (i : Instr) (rest : List Word),
    decode ws = .ok (i, rest) → ws = encode i ++ rest ∧ i.framed = true

/-- Command words written out in spec/ decode to the commands they are said to be. -/
def Obligations.SpecWordsDecode : Prop :=
  decode [0x00000000#32] = .ok (.nop 0 0, []) ∧
  decode [0x01080000#32] = .ok (.reset 0x08 0, []) ∧
  decode [0x02000008#32] = .ok (.regRead 0 0x0008, []) ∧
  decode [0x03000044#32, 3#32] = .ok (.regWrite 0 0x0044 3, []) ∧
  decode [0x11010002#32, 4#32, 0x3F800000#32, 0xBF000000#32]
    = .ok (.firProcR 1 4 [0x3F800000#32, 0xBF000000#32], []) ∧
  decode [0x20000000#32, 0x40800000#32, 0x3F800000#32]
    = .ok (.ncoSet 0 0 0x40800000#32 0x3F800000#32, []) ∧
  decode [0x54000000#32, 0x0048D06A#32] = .ok (.crcSyn 0 0 0x0048D06A#32, []) ∧
  decode [0x55000000#32, 0x1234#32, 0#32, 0#32, 0x5241#32]
    = .ok (.rdsGroup 0 0 0x1234 0 0 0x5241, [])

/-! ## The step -/

/-- R143: where the unread words hold a complete command, the step is that command's effect. -/
def Obligations.StepRunsDecodedCommand : Prop :=
  ∀ (s : State) (i : Instr) (rest : List Word),
    decode (s.stream.drop s.cp) = .ok (i, rest) → step s = exec i s

/-- R41, R143: a command consumes exactly its own words, and the next one is the one after it. -/
def Obligations.StepConsumesTheCommand : Prop :=
  ∀ (s : State) (i : Instr) (rest : List Word),
    decode (s.stream.drop s.cp) = .ok (i, rest) →
    ∃ t, step s = .next t ∧ t.cp = s.cp + (encode i).length ∧ t.stream = s.stream ∧
      t.stream.drop t.cp = rest

/-- R619: with part of a command present the machine waits and changes nothing; once the host has
sent the rest, the step runs it. -/
def Obligations.PartialCommandWaits : Prop :=
  ∀ (s : State) (i : Instr) (k : Nat), i.framed = true → s.cp ≤ s.stream.length →
    s.stream.drop s.cp = (encode i).take k →
    (k < (encode i).length → step s = .next s) ∧
    step (s.supply ((encode i).drop k)) = exec i (s.supply ((encode i).drop k))

/-- R571, R574: no step stops the machine, whatever the words. -/
def Obligations.MachineNeverStops : Prop :=
  ∀ s : State, ∃ t, step s = .next t

/-! ## Errors -/

/-- R561: an illegal command sets ERR.ILLEGAL, is consumed whole and does nothing else; an unknown
opcode is a command of one word. -/
def Obligations.IllegalCommandOnlySetsIllegal : Prop :=
  (∀ (i : Instr) (s : State), i.legal = false →
    exec i s = .next { s with err := s.err ||| 1, cp := s.cp + (encode i).length }) ∧
  (∀ (s : State) (w : Word) (rest : List Word), s.stream.drop s.cp = w :: rest →
    (∀ o, opcodeByte o ≠ w.extractLsb' 24 8) →
    step s = .next { s with err := s.err ||| 1, cp := s.cp + 1 })

/-- R560: no legal command sets ERR.ILLEGAL. -/
def Obligations.LegalCommandNeverSetsIllegal : Prop :=
  ∀ (i : Instr) (s t : State), i.legal = true → exec i s = .next t →
    t.err.getLsbD 0 = true → s.err.getLsbD 0 = true

/-- R569: a command that sets a clear ERR bit sets one and has no other effect, but for the 0 word
of a bad read. -/
def Obligations.ErrorsAreSingleAndPrecise : Prop :=
  ∀ (i : Instr) (s t : State), exec i s = .next t → t.err &&& ~~~s.err ≠ 0 →
    ∃ (bit : BitVec 3) (ws : List Word), (bit = 1 ∨ bit = 2 ∨ bit = 4) ∧
      t = { s with err := s.err ||| bit, resp := s.resp ++ ws, cp := s.cp + (encode i).length } ∧
      (ws = [] ∨ (ws = [0] ∧ bit = 2 ∧ ∃ addr, i = .regRead 0 addr))

/-- R45: an ERR bit is cleared only by a REG_WRITE of a 1 to it. -/
def Obligations.ErrorBitsAreSticky : Prop :=
  ∀ (i : Instr) (s t : State) (b : Nat), exec i s = .next t →
    s.err.getLsbD b = true → t.err.getLsbD b = false →
    ∃ v : Word, i = .regWrite 0 0x0002 v ∧ v.getLsbD b = true

/-- R562: a legal command that is no register command runs to a later `cp` and raises no error. -/
def Obligations.LegalUnitCommandsAreSafe : Prop :=
  ∀ (s : State) (i : Instr) (rest : List Word),
    decode (s.stream.drop s.cp) = .ok (i, rest) → i.legal = true → isRegCommand i = false →
    ∃ t, SafeStep s t

/-! ## Control and the register space -/

/-- R510: the NOP word changes nothing but `cp`; with a non-zero SEL or IMM it raises ILLEGAL. -/
def Obligations.NopOnlyAdvances : Prop :=
  encode (.nop 0 0) = [0x00000000#32] ∧
  ∀ (sel : BitVec 8) (imm : BitVec 16) (s : State),
    exec (.nop sel imm) s = .next
      (if sel = 0 ∧ imm = 0 then { s with cp := s.cp + 1 }
      else { s with err := s.err ||| 1, cp := s.cp + 1 })

/-- R511, R611: each mask bit puts its unit's state to the reset values, and nothing else changes. -/
def Obligations.ResetClearsTheMaskedUnits : Prop :=
  ∀ (mask : BitVec 8) (s : State), mask.toNat < 32 →
    exec (.reset mask 0) s = .next
      { s with
        cp := s.cp + 1
        ch := if mask.getLsbD 0 then { s.ch with dl := [], wptr := 0, phase := 0 } else s.ch
        fmdPrevI := if mask.getLsbD 1 then 0 else s.fmdPrevI
        fmdPrevQ := if mask.getLsbD 1 then 0 else s.fmdPrevQ
        fmdHasPrev := if mask.getLsbD 1 then false else s.fmdHasPrev
        deemphY := if mask.getLsbD 2 then 0 else s.deemphY
        au := if mask.getLsbD 2 then { s.au with dl := [], wptr := 0, phase := 0 } else s.au
        rb := if mask.getLsbD 3 then { s.rb with dl := [], wptr := 0, phase := 0 } else s.rb
        rl := if mask.getLsbD 3 then { s.rl with dl := [], wptr := 0, phase := 0 } else s.rl
        ncoPhase := if mask.getLsbD 3 then 0 else s.ncoPhase
        chipAcc := if mask.getLsbD 3 then 0 else s.chipAcc
        chipPend := if mask.getLsbD 3 then false else s.chipPend
        chip0 := if mask.getLsbD 3 then false else s.chip0
        prevBit := if mask.getLsbD 3 then false else s.prevBit
        shift := if mask.getLsbD 3 then 0 else s.shift
        bitcnt := if mask.getLsbD 3 then 0 else s.bitcnt
        haveSync := if mask.getLsbD 3 then false else s.haveSync
        slot := if mask.getLsbD 3 then 0 else s.slot
        group0 := if mask.getLsbD 3 then 0 else s.group0
        group1 := if mask.getLsbD 3 then 0 else s.group1
        group2 := if mask.getLsbD 3 then 0 else s.group2
        group3 := if mask.getLsbD 3 then 0 else s.group3
        psBuf0 := if mask.getLsbD 4 then 0x20202020#32 else s.psBuf0
        psBuf1 := if mask.getLsbD 4 then 0x20202020#32 else s.psBuf1
        psMask := if mask.getLsbD 4 then 0 else s.psMask
        psPub0 := if mask.getLsbD 4 then 0 else s.psPub0
        psPub1 := if mask.getLsbD 4 then 0 else s.psPub1
        psValid := if mask.getLsbD 4 then false else s.psValid
        psNew := if mask.getLsbD 4 then false else s.psNew }

/-- R512, R42, R107: a mapped read emits the register's word and changes nothing else. -/
def Obligations.RegReadEmitsTheRegister : Prop :=
  (∀ (s : State) (a v : Nat), (a, v) ∈ registerNats s →
    exec (.regRead 0 (BitVec.ofNat 16 a)) s
      = .next { s with resp := s.resp ++ [BitVec.ofNat 32 v], cp := s.cp + 1 }) ∧
  (∀ (s : State) (n k : Nat) (taps : Memory Word), k < 1023 →
    (n, taps) ∈ [(0, s.ch.taps), (1, s.au.taps), (2, s.rb.taps), (3, s.rl.taps)] →
    exec (.regRead 0 (BitVec.ofNat 16 (0x1000 + 0x1000 * n + k))) s
      = .next { s with resp := s.resp ++ [Memory.read 0 taps k], cp := s.cp + 1 })

/-- R103, R563: an unmapped read emits 0 and raises BAD_REG. -/
def Obligations.UnmappedReadRaisesBadReg : Prop :=
  ∀ (s : State) (addr : BitVec 16), (∀ v, (addr.toNat, v) ∉ registerNats s) →
    ¬ IsTapAddr addr.toNat →
    exec (.regRead 0 addr) s
      = .next { s with resp := s.resp ++ [0], err := s.err ||| 2, cp := s.cp + 1 }

/-- R103, R513, R563: a write to an unmapped address or a wholly read-only register raises BAD_REG
and writes nothing. -/
def Obligations.RefusedWriteRaisesBadReg : Prop :=
  ∀ (s : State) (addr : BitVec 16) (v : Word), addr.toNat ∉ writableAddrs →
    ¬ IsTapAddr addr.toNat →
    exec (.regWrite 0 addr v) s = .next { s with err := s.err ||| 2, cp := s.cp + 2 }

/-- R514, R43 to R45: the writes of CTRL, STATUS and ERR. -/
def Obligations.ControlRegisterWrites : Prop :=
  ∀ (s : State) (v : Word),
    exec (.regWrite 0 0x0000 v) s
      = .next { s with ctrl := BitVec.ofNat 5 (v.toNat % 32), cp := s.cp + 2 } ∧
    exec (.regWrite 0 0x0001 v) s
      = .next { s with psNew := s.psNew && !v.getLsbD 4, cp := s.cp + 2 } ∧
    ∃ e : BitVec 3, exec (.regWrite 0 0x0002 v) s = .next { s with err := e, cp := s.cp + 2 } ∧
      ∀ b, b < 3 → e.getLsbD b = (s.err.getLsbD b && !v.getLsbD b)

/-- R514, R47 to R49: the writes of the four f32 parameters; any bit pattern is taken. -/
def Obligations.ParameterWrites : Prop :=
  ∀ (s : State) (v : Word),
    exec (.regWrite 0 0x0008 v) s = .next { s with audGain := v, cp := s.cp + 2 } ∧
    exec (.regWrite 0 0x0009 v) s = .next { s with deemphA := v, cp := s.cp + 2 } ∧
    exec (.regWrite 0 0x0010 v) s = .next { s with ncoInc := v, cp := s.cp + 2 } ∧
    exec (.regWrite 0 0x0018 v) s = .next { s with chipInc := v, cp := s.cp + 2 }

/-- R51, R514, R565: a legal FIR_T or FIR_D value is stored and resets its engine; any other value
raises BAD_CFG and changes nothing else. -/
def Obligations.FirConfigurationWrites : Prop :=
  ∀ (s : State) (v : Word),
    (exec (.regWrite 0 0x0040 v) s = .next
      (if v.toNat % 2 = 1 ∧ v.toNat ≤ 1023 then
        { s with
          ch := { s.ch with t := BitVec.ofNat 16 v.toNat, dl := [], wptr := 0, phase := 0 },
          cp := s.cp + 2 }
      else { s with err := s.err ||| 4, cp := s.cp + 2 })) ∧
    (exec (.regWrite 0 0x0041 v) s = .next
      (if 1 ≤ v.toNat ∧ v.toNat ≤ 65535 then
        { s with
          ch := { s.ch with d := BitVec.ofNat 16 v.toNat, dl := [], wptr := 0, phase := 0 },
          cp := s.cp + 2 }
      else { s with err := s.err ||| 4, cp := s.cp + 2 })) ∧
    ∀ (n : Nat) (i : RealInst), (n, i) ∈ [(1, RealInst.au), (2, RealInst.rb), (3, RealInst.rl)] →
      (exec (.regWrite 0 (BitVec.ofNat 16 (0x0040 + 4 * n)) v) s = .next
        (if v.toNat % 2 = 1 ∧ v.toNat ≤ 1023 then
          { s.setFir i { s.fir i with
              t := BitVec.ofNat 16 v.toNat, dl := [], wptr := 0, phase := 0 } with
            cp := s.cp + 2 }
        else { s with err := s.err ||| 4, cp := s.cp + 2 })) ∧
      (exec (.regWrite 0 (BitVec.ofNat 16 (0x0041 + 4 * n)) v) s = .next
        (if 1 ≤ v.toNat ∧ v.toNat ≤ 65535 then
          { s.setFir i { s.fir i with
              d := BitVec.ofNat 16 v.toNat, dl := [], wptr := 0, phase := 0 } with
            cp := s.cp + 2 }
        else { s with err := s.err ||| 4, cp := s.cp + 2 }))

/-- R514, R52, R114: a tap write stores one word; every other tap, the delay lines and the phases
are as before, and the tap memory keeps its canonical form. -/
def Obligations.TapWritesStoreOneWord : Prop :=
  ∀ (s : State) (k : Nat) (v : Word), k < 1023 →
    (Memory.wf 0 s.ch.taps = true → ∃ taps,
      exec (.regWrite 0 (BitVec.ofNat 16 (0x1000 + k)) v) s
        = .next { s with ch := { s.ch with taps := taps }, cp := s.cp + 2 } ∧
      Memory.wf 0 taps = true ∧
      ∀ j, Memory.read 0 taps j = if j = k then v else Memory.read 0 s.ch.taps j) ∧
    ∀ (n : Nat) (i : RealInst), (n, i) ∈ [(1, RealInst.au), (2, RealInst.rb), (3, RealInst.rl)] →
      Memory.wf 0 (s.fir i).taps = true → ∃ taps,
      exec (.regWrite 0 (BitVec.ofNat 16 (0x1000 + 0x1000 * n + k)) v) s
        = .next { s.setFir i { s.fir i with taps := taps } with cp := s.cp + 2 } ∧
      Memory.wf 0 taps = true ∧
      ∀ j, Memory.read 0 taps j = if j = k then v else Memory.read 0 (s.fir i).taps j

/-- R42, R610: every register reads as its reset value right after power-on reset, and every tap as
+0.0. -/
def Obligations.ResetRegisterValues : Prop :=
  (∀ (a v : Nat), (a, v) ∈ resetNats → ∃ t,
    exec (.regRead 0 (BitVec.ofNat 16 a)) State.reset = .next t ∧ t.resp = [BitVec.ofNat 32 v]) ∧
  (∀ (addr : BitVec 16), IsTapAddr addr.toNat → ∃ t,
    exec (.regRead 0 addr) State.reset = .next t ∧ t.resp = [0])

/-- R56, R570: the interrupt level and the STATUS bit that reads it. -/
def Obligations.IrqIsTheStatedLevel : Prop :=
  ∀ s : State,
    s.irq = ((s.ctrl.getLsbD 1 && s.psNew) || (s.ctrl.getLsbD 2 && decide (s.err ≠ 0))) ∧
    ∃ w, exec (.regRead 0 0x0001) s = .next { s with resp := s.resp ++ [w], cp := s.cp + 1 } ∧
      w.getLsbD 5 = s.irq

/-! ## FIR engine -/

/-- R201 to R207: FIR_PROC_R on a legal engine: the produced outputs are the inner products at every
D-th input, the first `cap` of them are emitted with their count, and only the engine's delay line,
cursor and phase move. -/
def Obligations.FirProcRealRun : Prop :=
  ∀ (s : State) (sel : BitVec 8) (i : RealInst) (cap : Word) (xs : List Word),
    (sel, i) ∈ [(1#8, RealInst.au), (2#8, RealInst.rb), (3#8, RealInst.rl)] →
    FirOk F32.posZero (s.fir i) →
    ∃ ys f' n, FirRun F32.posZero DotReal (s.fir i) xs ys f' ∧ FirOk F32.posZero f' ∧
      exec (.firProcR sel cap xs) s = .next
        { s.setFir i f' with
          resp := s.resp ++ (ys.take cap.toNat ++ [BitVec.ofNat 32 (min ys.length cap.toNat)])
          cp := s.cp + 2 + xs.length
          nanDraws := n }

/-- R201 to R206: the same of FIR_PROC_C and the complex engine. -/
def Obligations.FirProcComplexRun : Prop :=
  ∀ (s : State) (cap : Word) (xs : List Cplx), FirOk cplxZero s.ch →
    ∃ ys f' n, FirRun cplxZero DotCplx s.ch xs ys f' ∧ FirOk cplxZero f' ∧
      exec (.firProcC 0 cap xs) s = .next
        { s with
          ch := f'
          resp := s.resp ++ ((ys.take cap.toNat).flatMap (fun z => [z.re, z.im]) ++
            [BitVec.ofNat 32 (min ys.length cap.toNat)])
          cp := s.cp + 2 + 2 * xs.length
          nanDraws := n }

/-- R208, R209: FIR_RESET clears one engine's delay line, cursor and phase. -/
def Obligations.FirResetClearsOneEngine : Prop :=
  ∀ s : State,
    exec (.firReset 0 0) s = .next
      { s with ch := { s.ch with dl := [], wptr := 0, phase := 0 }, cp := s.cp + 1 } ∧
    exec (.firReset 1 0) s = .next
      { s with au := { s.au with dl := [], wptr := 0, phase := 0 }, cp := s.cp + 1 } ∧
    exec (.firReset 2 0) s = .next
      { s with rb := { s.rb with dl := [], wptr := 0, phase := 0 }, cp := s.cp + 1 } ∧
    exec (.firReset 3 0) s = .next
      { s with rl := { s.rl with dl := [], wptr := 0, phase := 0 }, cp := s.cp + 1 }

/-- R211: after FIR_RESET what FIR_PROC_R emits depends only on T, D, the taps and the inputs (and,
where a result is a NaN, on which NaNs are drawn: log entry 1). -/
def Obligations.FirOutputsForgetBeforeReset : Prop :=
  ∀ (s s' u u' : State) (sel : BitVec 8) (i : RealInst) (cap : Word) (xs : List Word),
    (sel, i) ∈ [(1#8, RealInst.au), (2#8, RealInst.rb), (3#8, RealInst.rl)] →
    (s.fir i).t = (s'.fir i).t → (s.fir i).d = (s'.fir i).d → (s.fir i).taps = (s'.fir i).taps →
    s.nanDraws = s'.nanDraws →
    exec (.firReset sel 0) s = .next u → exec (.firReset sel 0) s' = .next u' →
    ∃ t t' out, exec (.firProcR sel cap xs) u = .next t ∧ exec (.firProcR sel cap xs) u' = .next t' ∧
      t.resp = s.resp ++ out ∧ t'.resp = s'.resp ++ out ∧ t.fir i = t'.fir i

/-- R210: however inputs are split over two commands with enough capacity, the engine ends the same
and the same outputs come in the same order. Where an output is a NaN, that its bits too are the same
is the model's choice (log entry 1, DESIGN CHOICE: the k-th NaN drawn is `Config.nanBits k`), since
R11 leaves the bits of every NaN open; so is the equal number of NaNs drawn. -/
def Obligations.FirChunkingIsInvisible : Prop :=
  ∀ (s : State) (sel : BitVec 8) (i : RealInst) (cap : Word) (xs ys : List Word),
    (sel, i) ∈ [(1#8, RealInst.au), (2#8, RealInst.rb), (3#8, RealInst.rl)] →
    xs.length + ys.length ≤ cap.toNat →
    ∃ t u v as bs,
      exec (.firProcR sel cap (xs ++ ys)) s = .next t ∧
      exec (.firProcR sel cap xs) s = .next u ∧ exec (.firProcR sel cap ys) u = .next v ∧
      t.resp = s.resp ++ (as ++ bs ++ [BitVec.ofNat 32 (as.length + bs.length)]) ∧
      u.resp = s.resp ++ (as ++ [BitVec.ofNat 32 as.length]) ∧
      v.resp = u.resp ++ (bs ++ [BitVec.ofNat 32 bs.length]) ∧
      v.fir i = t.fir i ∧ v.nanDraws = t.nanDraws

/-! ## NCO and mixer -/

/-- R250: NCO_SET writes the increment 2π·f/fs, rounded after each operation, and nothing else. -/
def Obligations.NcoSetWritesTheIncrement : Prop :=
  ∀ (s : State) (fs f : Word), ∃ p inc n,
    Res (F32.mul 0x40C90FDB#32 f) p ∧ Res (F32.div p fs) inc ∧
    exec (.ncoSet 0 0 fs f) s = .next { s with ncoInc := inc, nanDraws := n, cp := s.cp + 3 }

/-- R251, R252: NCO_NEXT emits the conjugate sinusoid at n successive phases. -/
def Obligations.NcoNextEmitsTheSinusoid : Prop :=
  ∀ (s : State) (n : BitVec 16), ∃ (phi : Nat → Word) (m : Nat),
    phi 0 = s.ncoPhase ∧ NcoRun s.ncoInc n.toNat phi ∧
    exec (.ncoNext 0 n) s = .next
      { s with
        ncoPhase := phi n.toNat
        resp := s.resp ++ (List.range n.toNat).flatMap (fun k =>
          [Config.fcos (phi k), Config.fsin (phi k) ^^^ 0x80000000#32])
        nanDraws := m
        cp := s.cp + 1 }

/-- R253, R254: MIX multiplies each sample by the next conjugate sinusoid sample. -/
def Obligations.MixMultipliesByTheSinusoid : Prop :=
  ∀ (s : State) (xs : List Cplx), ∃ (phi : Nat → Word) (ys : List Cplx) (m : Nat),
    phi 0 = s.ncoPhase ∧ NcoRun s.ncoInc xs.length phi ∧ ys.length = xs.length ∧
    (∀ k x y, xs[k]? = some x → ys[k]? = some y →
      MixResult x ⟨Config.fcos (phi k), Config.fsin (phi k) ^^^ 0x80000000#32⟩ y) ∧
    exec (.mix 0 xs) s = .next
      { s with
        ncoPhase := phi xs.length
        resp := s.resp ++ ys.flatMap (fun y => [y.re, y.im])
        nanDraws := m
        cp := s.cp + 1 + 2 * xs.length }

/-- R255: no command but those that step the oscillator or reset the RDS unit moves NCO_PHASE;
NCO_SET and a write of NCO_INC do not. -/
def Obligations.PhaseOnlyMovesWithTheOscillator : Prop :=
  ∀ (i : Instr) (s t : State), exec i s = .next t → t.ncoPhase ≠ s.ncoPhase →
    movesPhase i = true ∧ ∀ sel imm, i = .reset sel imm → sel.getLsbD 3 = true

/-- R256: with the increment strictly between -2π and 2π, every command and every step keeps the
phase in [0, 2π], whether the oscillator is stepped by NCO_NEXT, MIX, RDS_PROC or CHAIN_U8 or not at
all; phase and increment together are an invariant of the steps that leave NCO_INC as it is. -/
def Obligations.PhaseStaysInRange : Prop :=
  (∀ (i : Instr) (s t : State), PhaseInRange s → IncInRange s → exec i s = .next t →
    PhaseInRange t) ∧
  ∀ s t : State, PhaseInRange s → IncInRange s → step s = .next t →
    PhaseInRange t ∧ (t.ncoInc = s.ncoInc → IncInRange t)

/-! ## Input conversion and demodulator -/

/-- R290, R291: CONV_U8 emits exactly (b - 127.5)/128 for each byte, draws no NaN and changes no
register. -/
def Obligations.ConvU8IsExact : Prop :=
  ∀ (s : State) (ws : List Word), ∃ zs : List Cplx,
    List.Forall₂ (fun (w : Word) z =>
      ConvExact (w.extractLsb' 0 8) z.re ∧ ConvExact (w.extractLsb' 8 8) z.im) ws zs ∧
    exec (.convU8 0 ws) s = .next
      { s with
        resp := s.resp ++ zs.flatMap (fun z => [z.re, z.im])
        cp := s.cp + 1 + ws.length }

/-- R292 to R294: FMD_PROC demodulates the first min(n, cap) samples, emits one output for each and
their count; the samples past the capacity change nothing. -/
def Obligations.FmdProcRun : Prop :=
  ∀ (s : State) (cap : Word) (xs : List Cplx), ∃ ys n,
    FmdRun s.fmdPrev (xs.take cap.toNat) ys ∧ ys.length = min xs.length cap.toNat ∧
    exec (.fmdProc 0 cap xs) s = .next
      { s.withPrev (xs.take cap.toNat) with
        resp := s.resp ++ (ys ++ [BitVec.ofNat 32 (min xs.length cap.toNat)])
        cp := s.cp + 2 + 2 * xs.length
        nanDraws := n }

/-! ## Audio -/

/-- R330 to R333: AUD_PROC: de-emphasis, the AU engine, quantization; the first `cap` PCM values and
their count are emitted, and every input is processed. -/
def Obligations.AudProcRun : Prop :=
  ∀ (s : State) (cap : Word) (xs : List Word), FirOk F32.posZero s.au →
    ∃ qs y' f' n, AudRun s.deemphA s.audGain s.deemphY s.au xs qs y' f' ∧
      exec (.audProc 0 cap xs) s = .next
        { s with
          deemphY := y'
          au := f'
          resp := s.resp ++ ((qs.take cap.toNat).map (fun q => BitVec.ofInt 32 q) ++
            [BitVec.ofNat 32 (min qs.length cap.toNat)])
          cp := s.cp + 2 + xs.length
          nanDraws := n }

/-- R331: every PCM word AUD_PROC and CHAIN_U8 emit is in -32767..32767. -/
def Obligations.PcmStaysInRange : Prop :=
  ∀ (i : Instr) (s t : State),
    (∃ cap xs, i = .audProc 0 cap xs) ∨ (∃ ws, i = .chainU8 0 ws) → exec i s = .next t →
    ∃ ws count, t.resp = s.resp ++ (ws ++ [count]) ∧
      ∀ w ∈ ws, -32767 ≤ w.toInt ∧ w.toInt ≤ 32767

/-! ## RDS bit recovery -/

/-- R370, R371: RDS_PROC, whatever RDS_EN is: RB, the down-mix, RL, and the slicer on its outputs. -/
def Obligations.RdsProcRun : Prop :=
  ∀ (s : State) (xs : List Word), FirOk F32.posZero s.rb → FirOk F32.posZero s.rl →
    ∃ u, RdsRun s xs u ∧
      exec (.rdsProc 0 xs) s = .next { u with cp := s.cp + 1 + xs.length }

/-- R372, R373: RDS_SLICE: the accumulator over the samples, and the effect of the chips taken. -/
def Obligations.RdsSliceRun : Prop :=
  ∀ (s : State) (ls : List Word), ∃ acc chips n,
    SliceRun s.chipInc s.chipAcc ls acc chips ∧
    exec (.rdsSlice 0 ls) s = .next
      { chipsEffect chips s with chipAcc := acc, nanDraws := n, cp := s.cp + 1 + ls.length }

/-- R381: the accumulator depends on CHIP_INC, its own value and the number of samples, never on the
signal (and, where it is a NaN, on which NaNs are drawn: log entry 1). -/
def Obligations.SlicerIsOpenLoop : Prop :=
  ∀ (s s' t t' : State) (ls ls' : List Word), s.chipInc = s'.chipInc → s.chipAcc = s'.chipAcc →
    s.nanDraws = s'.nanDraws → ls.length = ls'.length →
    exec (.rdsSlice 0 ls) s = .next t → exec (.rdsSlice 0 ls') s' = .next t' →
    t.chipAcc = t'.chipAcc

/-- R374 to R379: what one chip does: it is held, or completes a pair that gives a bit or is a
synchronization loss. -/
def Obligations.RdsChipOne : Prop :=
  ∀ (s : State) (w : Word),
    (s.chipPend = false → exec (.rdsChip 0 [w]) s
      = .next { s with chip0 := w.getLsbD 0, chipPend := true, cp := s.cp + 2 }) ∧
    (s.chipPend = true → s.chip0 ≠ w.getLsbD 0 → exec (.rdsChip 0 [w]) s
      = exec (.rdsBit 0 [bitWord (w.getLsbD 0 != s.prevBit)])
          { s with chipPend := false, chip0 := false, prevBit := w.getLsbD 0 }) ∧
    (s.chipPend = true → s.chip0 = w.getLsbD 0 → exec (.rdsChip 0 [w]) s
      = .next { s with
          haveSync := false, slot := 0, bitcnt := 0, shift := 0
          prevBit := if s.ctrl.getLsbD 3 then false else s.prevBit
          chipPend := s.ctrl.getLsbD 4
          chip0 := s.ctrl.getLsbD 4 && w.getLsbD 0
          cp := s.cp + 2 })

/-- R375, R427: RDS_CHIP and RDS_BIT take their words in order, each as a command of its own would,
and complete from every state. -/
def Obligations.ChipsAndBitsAreTakenInOrder : Prop :=
  ∀ (s : State) (ws : List Word),
    (∃ t, exec (.rdsChip 0 ws) s = .next t ∧ (ws = [] → t = { s with cp := s.cp + 1 }) ∧
      ∀ w, ∃ u, exec (.rdsChip 0 [w]) t = .next u ∧
        exec (.rdsChip 0 (ws ++ [w])) s = .next { u with cp := s.cp + 2 + ws.length }) ∧
    (∃ t, exec (.rdsBit 0 ws) s = .next t ∧ (ws = [] → t = { s with cp := s.cp + 1 }) ∧
      ∀ w, ∃ u, exec (.rdsBit 0 [w]) t = .next u ∧
        exec (.rdsBit 0 (ws ++ [w])) s = .next { u with cp := s.cp + 2 + ws.length })

/-- R380: bits, differentially encoded and sent as chip pairs, have the effect of the bits. -/
def Obligations.ManchesterRoundTrip : Prop :=
  ∀ (s : State) (ds : List Bool), s.chipPend = false → s.chip0 = false →
    ∃ u, exec (.rdsBit 0 (ds.map bitWord)) s = .next u ∧
      exec (.rdsChip 0 (((diffEncode s.prevBit ds).flatMap chipPair).map bitWord)) s
        = .next { u with
            prevBit := (diffEncode s.prevBit ds).getLastD s.prevBit
            cp := s.cp + 1 + 2 * ds.length }

/-! ## Syndrome and synchronizer -/

/-- R423, R422: CRC_SYN emits the syndrome and its class and touches nothing else. -/
def Obligations.CrcSynEmitsSyndromeAndClass : Prop :=
  ∀ (s : State) (w : Word), ∃ cls : BitVec 3,
    exec (.crcSyn 0 0 w) s = .next
      { s with
        resp := s.resp ++ [BitVec.ofNat 32
          (cls.toNat * 2 ^ 16 + (syndrome (w.extractLsb' 0 26)).toNat)]
        cp := s.cp + 2 } ∧
    ((syndrome (w.extractLsb' 0 26), cls) ∈ offsetClasses ∨
      (cls = 0 ∧ ∀ c, (syndrome (w.extractLsb' 0 26), c) ∉ offsetClasses))

/-- R421: crc10 is the remainder of d(x)·x^10 divided by x^10 + x^8 + x^7 + x^5 + x^4 + x^3 + 1 over
GF(2), the syndrome is the check field against it, and both are linear. -/
def Obligations.CrcIsThePolynomialRemainder : Prop :=
  (∀ d : BitVec 16, ∃ q : Polynomial (ZMod 2),
    (∑ k ∈ Finset.range 16, if d.getLsbD k then (Polynomial.X : Polynomial (ZMod 2)) ^ k else 0)
        * Polynomial.X ^ 10
      = q * (Polynomial.X ^ 10 + Polynomial.X ^ 8 + Polynomial.X ^ 7 + Polynomial.X ^ 5 +
          Polynomial.X ^ 4 + Polynomial.X ^ 3 + 1) +
        ∑ k ∈ Finset.range 10, if (crc10 d).getLsbD k then Polynomial.X ^ k else 0) ∧
  (∀ w : BitVec 26, syndrome w = w.extractLsb' 0 10 ^^^ crc10 (w.extractLsb' 10 16)) ∧
  (∀ a b : BitVec 16, crc10 (a ^^^ b) = crc10 a ^^^ crc10 b) ∧ crc10 0 = 0 ∧
  ∀ v w : BitVec 26, syndrome (v ^^^ w) = syndrome v ^^^ syndrome w

/-- R430: a window encoded with an offset word has that offset as its syndrome, a single flipped bit
changes the syndrome by a value of the table that is never 0, and two offsets differ by one only
where they are C and D and the bit is bit 18. -/
def Obligations.OffsetWordsAndSingleFlips : Prop :=
  (∀ (d : BitVec 16) (o : BitVec 10) (c : BitVec 3), (o, c) ∈ offsetClasses →
    syndrome (d ++ (crc10 d ^^^ o)) = o) ∧
  (∀ (w : BitVec 26) (p : Nat) (e : BitVec 10), flipSyndromes[p]? = some e →
    syndrome (w ^^^ (1#26 <<< p)) = syndrome w ^^^ e ∧ e ≠ 0) ∧
  (∀ (p : Nat) (e o o' : BitVec 10) (c c' : BitVec 3), flipSyndromes[p]? = some e →
    (o, c) ∈ offsetClasses → (o', c') ∈ offsetClasses →
    (o ^^^ o' = e ↔ p = 18 ∧ ((o = 0x168#10 ∧ o' = 0x1B4#10) ∨ (o = 0x1B4#10 ∧ o' = 0x168#10))))

/-- R424, R425: one bit while hunting: the window shifts, the count saturates at 26, and a full
window with the A syndrome locks. -/
def Obligations.HuntingBit : Prop :=
  ∀ (s : State) (w : Word) (win : BitVec 26) (n : Nat), s.haveSync = false →
    s.bitcnt.toNat ≤ 26 → win = BitVec.ofNat 26 (2 * s.shift.toNat + w.toNat % 2) →
    n = min 26 (s.bitcnt.toNat + 1) →
    exec (.rdsBit 0 [w]) s = .next
      (if n = 26 ∧ syndrome win = 0x0FC#10 then
        { s with
          shift := win, haveSync := true, group0 := win.extractLsb' 10 16, slot := 1, bitcnt := 0
          syncCount := s.syncCount + 1, cp := s.cp + 2 }
      else { s with shift := win, bitcnt := BitVec.ofNat 5 n, cp := s.cp + 2 })

/-- R424, R426, R429: one bit while SYNCED: every 26 bits the window's datum is stored in its slot
whatever its syndrome is, and after slot D the group is dispatched. -/
def Obligations.SyncedBit : Prop :=
  ∀ (s : State) (w : Word) (win : BitVec 26) (v : BitVec 16), s.haveSync = true →
    s.bitcnt.toNat < 26 → win = BitVec.ofNat 26 (2 * s.shift.toNat + w.toNat % 2) →
    v = win.extractLsb' 10 16 →
    (s.bitcnt.toNat < 25 → exec (.rdsBit 0 [w]) s
      = .next { s with shift := win, bitcnt := s.bitcnt + 1, cp := s.cp + 2 }) ∧
    (s.bitcnt.toNat = 25 → s.slot = 0 → exec (.rdsBit 0 [w]) s
      = .next { s with shift := win, bitcnt := 0, slot := 1, group0 := v, cp := s.cp + 2 }) ∧
    (s.bitcnt.toNat = 25 → s.slot = 1 → exec (.rdsBit 0 [w]) s
      = .next { s with shift := win, bitcnt := 0, slot := 2, group1 := v, cp := s.cp + 2 }) ∧
    (s.bitcnt.toNat = 25 → s.slot = 2 → exec (.rdsBit 0 [w]) s
      = .next { s with shift := win, bitcnt := 0, slot := 3, group2 := v, cp := s.cp + 2 }) ∧
    (s.bitcnt.toNat = 25 → s.slot = 3 → ∃ u,
      exec (.rdsGroup 0 0 (s.group0.setWidth 32) (s.group1.setWidth 32) (s.group2.setWidth 32)
        (v.setWidth 32)) { s with shift := win, bitcnt := 0, slot := 0, group3 := v } = .next u ∧
      exec (.rdsBit 0 [w]) s = .next { u with cp := s.cp + 2 })

/-- R428, R44: a synchronization ends only by a command that takes chips or by a reset of the RDS
unit, and UNSYNCED reads slot 0. -/
def Obligations.SyncEndsOnlyByChipsOrReset : Prop :=
  ∀ (i : Instr) (s t : State), exec i s = .next t → s.haveSync = true → t.haveSync = false →
    canUnsync i = true ∧ t.slot = 0

/-! ## Group parser -/

/-- R470 to R474: every group is counted; a type-0 group puts its two characters in its segment, a
space for a byte that is not printable, and publishes a completed name that is new. -/
def Obligations.RdsGroupEffect : Prop :=
  ∀ (s : State) (a b c d : Word),
    ((b.toNat / 2 ^ 12) % 16 ≠ 0 → exec (.rdsGroup 0 0 a b c d) s
      = .next { s with groupCount := s.groupCount + 1, cp := s.cp + 5 }) ∧
    ((b.toNat / 2 ^ 12) % 16 = 0 → ∃ b0 b1 m p0 p1 valid new count,
      exec (.rdsGroup 0 0 a b c d) s = .next
        { s with
          groupCount := s.groupCount + 1, cp := s.cp + 5, psBuf0 := b0, psBuf1 := b1, psMask := m
          psPub0 := p0, psPub1 := p1, psValid := valid, psNew := new, psPubCount := count } ∧
      (∀ j, j < 8 → (nameChar b0 b1 j).toNat =
        if j = 2 * (b.toNat % 4) then
          (if 32 ≤ d.toNat / 256 % 256 ∧ d.toNat / 256 % 256 ≤ 126 then d.toNat / 256 % 256 else 32)
        else if j = 2 * (b.toNat % 4) + 1 then
          (if 32 ≤ d.toNat % 256 ∧ d.toNat % 256 ≤ 126 then d.toNat % 256 else 32)
        else (nameChar s.psBuf0 s.psBuf1 j).toNat) ∧
      (∀ j, j < 4 → m.getLsbD j = (s.psMask.getLsbD j || decide (j = b.toNat % 4))) ∧
      if m = 0xF#4 ∧ (s.psValid = false ∨ b0 ≠ s.psPub0 ∨ b1 ≠ s.psPub1) then
        p0 = b0 ∧ p1 = b1 ∧ valid = true ∧ new = true ∧ count = s.psPubCount + 1
      else
        p0 = s.psPub0 ∧ p1 = s.psPub1 ∧ valid = s.psValid ∧ new = s.psNew ∧ count = s.psPubCount)

/-- R477: the four groups of "RADIO   " publish it once, the last one again publishes nothing, and
one changed character publishes once more. -/
def Obligations.PsNamePublishedOnce : Prop :=
  ∀ (s s4 s5 s6 : State) (a c : Word), s.psMask = 0 → s.psValid = false →
    s4 = afterGroup (afterGroup (afterGroup (afterGroup s a 0 c 0x5241) a 1 c 0x4449) a 2 c 0x4F20)
      a 3 c 0x2020 →
    s5 = afterGroup s4 a 3 c 0x2020 → s6 = afterGroup s5 a 1 c 0x444A →
    s4.psPubCount = s.psPubCount + 1 ∧ s4.psPub0 = 0x49444152#32 ∧ s4.psPub1 = 0x2020204F#32 ∧
    s4.psValid = true ∧ s4.psNew = true ∧ s4.groupCount = s.groupCount + 4 ∧
    s5.psPubCount = s.psPubCount + 1 ∧ s5.psPub0 = s4.psPub0 ∧ s5.psPub1 = s4.psPub1 ∧
    s6.psPubCount = s.psPubCount + 2 ∧ s6.psPub0 = 0x4A444152#32 ∧ s6.psPub1 = 0x2020204F#32

/-! ## The chain -/

/-- R515 to R517: CHAIN_U8 is its stages one after another: the exact conversion, the CH engine, the
demodulator, the RDS front end where RDS_EN is 1 (and no RDS state moves where it is 0), and the
resampler, whose every PCM value is emitted. -/
def Obligations.ChainRun : Prop :=
  ∀ (s : State) (ws : List Word), FirOk cplxZero s.ch → FirOk F32.posZero s.au →
    FirOk F32.posZero s.rb → FirOk F32.posZero s.rl →
    ∃ zs cs ms qs y' ch' au' u n,
      List.Forall₂ (fun (w : Word) z =>
        ConvExact (w.extractLsb' 0 8) z.re ∧ ConvExact (w.extractLsb' 8 8) z.im) ws zs ∧
      FirRun cplxZero DotCplx s.ch zs cs ch' ∧
      FmdRun s.fmdPrev cs ms ∧
      (if s.ctrl.getLsbD 0 then RdsRun s ms u else u = s) ∧
      AudRun s.deemphA s.audGain s.deemphY s.au ms qs y' au' ∧
      exec (.chainU8 0 ws) s = .next
        { u.withPrev cs with
          ch := ch'
          au := au'
          deemphY := y'
          resp := s.resp ++ (qs.map (fun q => BitVec.ofInt 32 q) ++ [BitVec.ofNat 32 qs.length])
          cp := s.cp + 1 + ws.length
          nanDraws := n }

/-! ## Whole-machine rules -/

/-- R57, R111: a command only appends to the response stream. -/
def Obligations.ResponsesAreOnlyAppended : Prop :=
  ∀ (i : Instr) (s t : State), exec i s = .next t → ∃ ws, t.resp = s.resp ++ ws

/-- R52, R511, R611: only a REG_WRITE changes CTRL, a parameter, a tap, a tap count or a decimation
factor; NCO_INC is changed by NCO_SET too. -/
def Obligations.OnlyTheHostConfigures : Prop :=
  ∀ (i : Instr) (s t : State), exec i s = .next t → (∀ sel addr v, i ≠ .regWrite sel addr v) →
    t.ctrl = s.ctrl ∧ t.audGain = s.audGain ∧ t.deemphA = s.deemphA ∧ t.chipInc = s.chipInc ∧
    t.ch.taps = s.ch.taps ∧ t.ch.t = s.ch.t ∧ t.ch.d = s.ch.d ∧
    (∀ j, (t.fir j).taps = (s.fir j).taps ∧ (t.fir j).t = (s.fir j).t ∧ (t.fir j).d = (s.fir j).d) ∧
    ((∀ sel imm fs f, i ≠ .ncoSet sel imm fs f) → t.ncoInc = s.ncoInc)

/-- The state after power-on reset satisfies the invariant. -/
def Obligations.InvariantAtReset : Prop := Inv State.reset

/-- R200, R49, R44, R55, R478: every step keeps the invariant, from every state that satisfies it. -/
def Obligations.StepKeepsTheInvariant : Prop :=
  ∀ s t : State, Inv s → step s = .next t → Inv t

/-! ## Arithmetic -/

/-- R10: a sum, product or quotient of finite operands that is no NaN is the binary32 value nearest
to the exact result, a tie to the even one, with overflow to infinity and subnormals kept. Overflow and
the signs of zeros are IEEE 754's, which R10 cites, as the model reads them (log entry 7, PRESUMED). -/
def Obligations.FloatResultsAreNearestEven : Prop :=
  ∀ a b : Word, F32.isFinite a = true → F32.isFinite b = true →
    (F32.value a + F32.value b ≠ 0 → ∃ r, F32.add a b = some r ∧
      NearestEven (decide (F32.value a + F32.value b < 0)) (F32.value a + F32.value b).natAbs 1 r) ∧
    (∃ r, F32.mul a b = some r ∧
      NearestEven (F32.sign a != F32.sign b) (F32.units a * F32.units b) (2 ^ 149) r) ∧
    (F32.units b ≠ 0 → ∃ r, F32.div a b = some r ∧
      NearestEven (F32.sign a != F32.sign b) (F32.units a * 2 ^ 149) (F32.units b) r)

/-- IEEE 754, which R10 cites, as the model reads it (log entry 7, PRESUMED): where a sum, a product
and a quotient give a NaN, the zero of a sum that is exactly zero, and every result with an infinite
operand or a zero divisor. -/
def Obligations.FloatSpecialCases : Prop :=
  ∀ a b : Word,
    (F32.add a b = none ↔
      F32.isNaN a ∨ F32.isNaN b ∨ (F32.isInf a ∧ F32.isInf b ∧ F32.sign a ≠ F32.sign b)) ∧
    (F32.mul a b = none ↔
      F32.isNaN a ∨ F32.isNaN b ∨ (F32.isInf a ∧ F32.isZero b) ∨ (F32.isZero a ∧ F32.isInf b)) ∧
    (F32.div a b = none ↔
      F32.isNaN a ∨ F32.isNaN b ∨ (F32.isInf a ∧ F32.isInf b) ∨ (F32.isZero a ∧ F32.isZero b)) ∧
    (F32.isFinite a → F32.isFinite b → F32.value a + F32.value b = 0 →
      F32.add a b = some (if F32.sign a && F32.sign b then 0x80000000#32 else 0)) ∧
    (F32.isInf a → F32.isFinite b → F32.add a b = some a ∧ F32.add b a = some a) ∧
    (F32.isInf a → F32.isInf b → F32.sign a = F32.sign b → F32.add a b = some a) ∧
    (F32.isInf a → ¬ F32.isNaN b → ¬ F32.isZero b →
      F32.mul a b = some (if F32.sign a != F32.sign b then 0xFF800000#32 else 0x7F800000#32) ∧
      F32.mul b a = F32.mul a b) ∧
    (F32.isInf a → F32.isFinite b →
      F32.div a b = some (if F32.sign a != F32.sign b then 0xFF800000#32 else 0x7F800000#32) ∧
      F32.div b a = some (if F32.sign a != F32.sign b then 0x80000000#32 else 0)) ∧
    (F32.isFinite a → F32.isZero b → ¬ F32.isZero a →
      F32.div a b = some (if F32.sign a != F32.sign b then 0xFF800000#32 else 0x7F800000#32))

/-- R12: round_half_away of a finite value is the nearest integer, a tie away from zero. -/
def Obligations.RoundHalfAwayIsNearest : Prop :=
  ∀ a : Word, F32.isFinite a = true →
    2 * |F32.value a - F32.roundHalfAway a * 2 ^ 149| ≤ 2 ^ 149 ∧
    (2 * |F32.value a - F32.roundHalfAway a * 2 ^ 149| = 2 ^ 149 →
      |F32.value a| < |F32.roundHalfAway a * 2 ^ 149|)

/-- R10, and IEEE 754 as log entry 7 (PRESUMED) reads it: a difference is correctly rounded, gives a
NaN exactly where it must, and has its zeros and infinities. R11: a comparison is that of the values,
an infinity beyond every finite value; it is false with a NaN, and the two zeros are equal. -/
def Obligations.FloatDifferencesAndComparisons : Prop :=
  (∀ a b : Word,
    (F32.isFinite a → F32.isFinite b → F32.value a - F32.value b ≠ 0 → ∃ r, F32.sub a b = some r ∧
      NearestEven (decide (F32.value a - F32.value b < 0)) (F32.value a - F32.value b).natAbs 1 r) ∧
    (F32.isFinite a → F32.isFinite b → F32.value a - F32.value b = 0 →
      F32.sub a b = some (if F32.sign a && !F32.sign b then 0x80000000#32 else 0)) ∧
    (F32.sub a b = none ↔
      F32.isNaN a ∨ F32.isNaN b ∨ (F32.isInf a ∧ F32.isInf b ∧ F32.sign a = F32.sign b)) ∧
    (F32.isInf a → F32.isFinite b ∨ (F32.isInf b ∧ F32.sign a ≠ F32.sign b) →
      F32.sub a b = some a) ∧
    (F32.isFinite a → F32.isInf b →
      F32.sub a b = some (if F32.sign b then 0x7F800000#32 else 0xFF800000#32))) ∧
  ∀ a b : Word,
    (F32.isNaN a ∨ F32.isNaN b →
      F32.lt a b = false ∧ F32.gt a b = false ∧ F32.ge a b = false ∧ F32.le a b = false) ∧
    (F32.isFinite a → F32.isFinite b →
      F32.lt a b = decide (F32.value a < F32.value b) ∧
      F32.gt a b = decide (F32.value b < F32.value a) ∧
      F32.ge a b = decide (F32.value b ≤ F32.value a) ∧
      F32.le a b = decide (F32.value a ≤ F32.value b)) ∧
    (F32.isZero a → F32.isZero b →
      F32.lt a b = false ∧ F32.gt a b = false ∧ F32.ge a b = true ∧ F32.le a b = true) ∧
    (F32.isInf a → F32.isFinite b →
      F32.lt a b = F32.sign a ∧ F32.gt a b = !F32.sign a ∧
      F32.ge a b = !F32.sign a ∧ F32.le a b = F32.sign a ∧
      F32.lt b a = !F32.sign a ∧ F32.gt b a = F32.sign a ∧
      F32.ge b a = F32.sign a ∧ F32.le b a = !F32.sign a) ∧
    (F32.isInf a → F32.isInf b →
      F32.lt a b = (F32.sign a && !F32.sign b) ∧ F32.gt a b = (!F32.sign a && F32.sign b) ∧
      F32.ge a b = (!F32.sign a || F32.sign b) ∧ F32.le a b = (F32.sign a || !F32.sign b))
end

