-- ==== Sys2Proof/Laws/PerInstr.lean ====
section
/-! SUPPORT. Facts about every command as syntax, one lemma per constructor. -/

namespace Sys2Proof.Laws

open Sys2Proof

/-- Two words per complex sample (R148). -/
@[simp] theorem flattenSamples_length (xs : List Cplx) :
    (flattenSamples xs).length = 2 * xs.length := by
  induction xs with
  | nil => rfl
  | cons x xs ih => simp only [flattenSamples, List.length_cons, ih]; omega

/-- Reading back the words of complex samples gives the samples (R14). -/
@[simp] theorem pairSamples_flattenSamples (xs : List Cplx) :
    pairSamples (flattenSamples xs) = xs := by
  induction xs with
  | nil => rfl
  | cons x xs ih => simp only [flattenSamples, pairSamples, ih]

/-- R141: a framed command takes at most 65535 samples. -/
theorem framed_iff (i : Instr) : i.framed = true ↔ i.count ≤ 65535 := decide_eq_true_iff

/-- Every opcode byte decodes to its opcode (R144). -/
@[simp] theorem opcodeOf_opcodeByte (o : Opcode) : opcodeOf (opcodeByte o) = some o := by
  cases o <;> rfl

/-- The fields of a command word (R140). -/
@[simp] theorem fieldOpc_commandWord (o : Opcode) (sel : BitVec 8) (imm : BitVec 16) :
    fieldOpc (commandWord o sel imm) = opcodeByte o := by
  apply BitVec.eq_of_toNat_eq
  simp only [fieldOpc, commandWord, BitVec.extractLsb'_toNat, BitVec.toNat_append]
  have := (opcodeByte o).isLt; have := sel.isLt; have := imm.isLt
  rw [← Nat.shiftLeft_add_eq_or_of_lt imm.isLt, ← Nat.shiftLeft_add_eq_or_of_lt sel.isLt]
  simp only [Nat.shiftLeft_eq, Nat.shiftRight_eq_div_pow]
  omega

@[simp] theorem fieldSel_commandWord (o : Opcode) (sel : BitVec 8) (imm : BitVec 16) :
    fieldSel (commandWord o sel imm) = sel := by
  apply BitVec.eq_of_toNat_eq
  simp only [fieldSel, commandWord, BitVec.extractLsb'_toNat, BitVec.toNat_append]
  have := (opcodeByte o).isLt; have := sel.isLt; have := imm.isLt
  rw [← Nat.shiftLeft_add_eq_or_of_lt imm.isLt, ← Nat.shiftLeft_add_eq_or_of_lt sel.isLt]
  simp only [Nat.shiftLeft_eq, Nat.shiftRight_eq_div_pow]
  omega

@[simp] theorem fieldImm_commandWord (o : Opcode) (sel : BitVec 8) (imm : BitVec 16) :
    fieldImm (commandWord o sel imm) = imm := by
  apply BitVec.eq_of_toNat_eq
  simp only [fieldImm, commandWord, BitVec.extractLsb'_toNat, BitVec.toNat_append]
  have := (opcodeByte o).isLt; have := sel.isLt; have := imm.isLt
  rw [← Nat.shiftLeft_add_eq_or_of_lt imm.isLt, ← Nat.shiftLeft_add_eq_or_of_lt sel.isLt]
  simp only [Nat.shiftLeft_eq, Nat.shiftRight_eq_div_pow]
  omega

/-- The encoding of a command has the length R143 gives it. -/
def EncodedLength.Statement (i : Instr) : Prop := (encode i).length = instrLength i

theorem encodedLength_of (i : Instr)
    (h : (instrPayload i).length = payloadLen (instrOpcode i) i.count) :
    EncodedLength.Statement i := by
  rw [EncodedLength.Statement, encode, List.length_cons, h, instrLength, Nat.add_comm]

theorem EncodedLength.nop (sel : BitVec 8) (imm : BitVec 16) :
    EncodedLength.Statement (.nop sel imm) :=
  rfl

theorem EncodedLength.reset (sel : BitVec 8) (imm : BitVec 16) :
    EncodedLength.Statement (.reset sel imm) :=
  rfl

theorem EncodedLength.regRead (sel : BitVec 8) (addr : BitVec 16) :
    EncodedLength.Statement (.regRead sel addr) :=
  rfl

theorem EncodedLength.regWrite (sel : BitVec 8) (addr : BitVec 16) (v : Word) :
    EncodedLength.Statement (.regWrite sel addr v) :=
  rfl

theorem EncodedLength.firProcC (sel : BitVec 8) (cap : Word) (xs : List Cplx) :
    EncodedLength.Statement (.firProcC sel cap xs) :=
  encodedLength_of _ (by
    rw [instrPayload, List.length_cons, flattenSamples_length, Nat.add_comm]; rfl)

theorem EncodedLength.firProcR (sel : BitVec 8) (cap : Word) (xs : List Word) :
    EncodedLength.Statement (.firProcR sel cap xs) :=
  encodedLength_of _ (Nat.add_comm _ _)

theorem EncodedLength.firReset (sel : BitVec 8) (imm : BitVec 16) :
    EncodedLength.Statement (.firReset sel imm) :=
  rfl

theorem EncodedLength.ncoSet (sel : BitVec 8) (imm : BitVec 16) (fs f : Word) :
    EncodedLength.Statement (.ncoSet sel imm fs f) :=
  rfl

theorem EncodedLength.ncoNext (sel : BitVec 8) (n : BitVec 16) :
    EncodedLength.Statement (.ncoNext sel n) :=
  rfl

theorem EncodedLength.mix (sel : BitVec 8) (xs : List Cplx) :
    EncodedLength.Statement (.mix sel xs) :=
  encodedLength_of _ (flattenSamples_length xs)

theorem EncodedLength.convU8 (sel : BitVec 8) (ws : List Word) :
    EncodedLength.Statement (.convU8 sel ws) :=
  encodedLength_of _ rfl

theorem EncodedLength.fmdProc (sel : BitVec 8) (cap : Word) (xs : List Cplx) :
    EncodedLength.Statement (.fmdProc sel cap xs) :=
  encodedLength_of _ (by
    rw [instrPayload, List.length_cons, flattenSamples_length, Nat.add_comm]; rfl)

theorem EncodedLength.audProc (sel : BitVec 8) (cap : Word) (xs : List Word) :
    EncodedLength.Statement (.audProc sel cap xs) :=
  encodedLength_of _ (Nat.add_comm _ _)

theorem EncodedLength.rdsProc (sel : BitVec 8) (xs : List Word) :
    EncodedLength.Statement (.rdsProc sel xs) :=
  encodedLength_of _ rfl

theorem EncodedLength.rdsSlice (sel : BitVec 8) (xs : List Word) :
    EncodedLength.Statement (.rdsSlice sel xs) :=
  encodedLength_of _ rfl

theorem EncodedLength.rdsChip (sel : BitVec 8) (ws : List Word) :
    EncodedLength.Statement (.rdsChip sel ws) :=
  encodedLength_of _ rfl

theorem EncodedLength.rdsBit (sel : BitVec 8) (ws : List Word) :
    EncodedLength.Statement (.rdsBit sel ws) :=
  encodedLength_of _ rfl

theorem EncodedLength.crcSyn (sel : BitVec 8) (imm : BitVec 16) (w : Word) :
    EncodedLength.Statement (.crcSyn sel imm w) :=
  rfl

theorem EncodedLength.rdsGroup (sel : BitVec 8) (imm : BitVec 16) (a b c d : Word) :
    EncodedLength.Statement (.rdsGroup sel imm a b c d) :=
  rfl

theorem EncodedLength.chainU8 (sel : BitVec 8) (ws : List Word) :
    EncodedLength.Statement (.chainU8 sel ws) :=
  encodedLength_of _ rfl

end Sys2Proof.Laws
end

