-- ==== Sys2Proof/Laws/Memory.lean ====
section
/-! SUPPORT. The laws of the sparse memories: a read after a write, and the canonical form. -/

namespace Sys2Proof.Machine

open Sys2Proof

section

variable {α : Type} [DecidableEq α] (zero : α)

omit [DecidableEq α] in
@[simp] theorem Memory.read_nil (k : Nat) : Memory.read zero [] k = zero := rfl

@[simp] theorem Memory.wf_nil : Memory.wf zero ([] : Memory α) = true := rfl

omit [DecidableEq α] in
@[simp] theorem Memory.below_nil (n : Nat) : Memory.below n ([] : Memory α) = true := rfl

theorem Memory.wf_cons (k : Nat) (v : α) (m : Memory α) :
    Memory.wf zero ((k, v) :: m) = true ↔
      v ≠ zero ∧ (∀ e ∈ m, k < e.1) ∧ Memory.wf zero m = true := by
  simp only [Memory.wf, Bool.and_eq_true, decide_eq_true_eq, List.all_eq_true, and_assoc]

omit [DecidableEq α] in
/-- An index below every listed one reads as `zero`. -/
theorem Memory.read_of_lt (m : Memory α) (k : Nat) (h : ∀ e ∈ m, k < e.1) :
    Memory.read zero m k = zero := by
  induction m with
  | nil => rfl
  | cons e m ih =>
    obtain ⟨j, v⟩ := e
    have hj : k < j := h (j, v) (by simp)
    rw [Memory.read, if_neg (by omega)]
    exact ih fun e he => h e (by simp [he])

/-- Every index of a written memory is the written one or was there before. -/
theorem Memory.mem_write (m : Memory α) (k : Nat) (v : α) (e : Nat × α)
    (h : e ∈ Memory.write zero m k v) : e ∈ m ∨ e = (k, v) := by
  induction m with
  | nil =>
    rw [Memory.write] at h
    split at h <;> simp_all
  | cons f m ih =>
    obtain ⟨j, u⟩ := f
    rw [Memory.write] at h
    split at h
    · split at h
      · exact .inl h
      · rcases List.mem_cons.1 h with rfl | h
        · exact .inr rfl
        · exact .inl h
    · split at h
      · split at h
        · exact .inl (List.mem_cons_of_mem _ h)
        · rcases List.mem_cons.1 h with rfl | h
          · exact .inr rfl
          · exact .inl (List.mem_cons_of_mem _ h)
      · rcases List.mem_cons.1 h with rfl | h
        · exact .inl (by simp)
        · rcases ih h with h | h
          · exact .inl (List.mem_cons_of_mem _ h)
          · exact .inr h

/-- A write keeps the canonical form. -/
theorem Memory.write_wf (m : Memory α) (k : Nat) (v : α) (h : Memory.wf zero m = true) :
    Memory.wf zero (Memory.write zero m k v) = true := by
  induction m with
  | nil =>
    rw [Memory.write]
    split
    · rfl
    · rw [Memory.wf_cons]
      simp_all
  | cons f m ih =>
    obtain ⟨j, u⟩ := f
    obtain ⟨hu, hlt, hm⟩ := (Memory.wf_cons zero j u m).1 h
    rw [Memory.write]
    split
    · split
      · exact h
      · rename_i hk hv
        refine (Memory.wf_cons zero _ _ _).2 ⟨hv, ?_, h⟩
        intro e he
        rcases List.mem_cons.1 he with rfl | he
        · exact hk
        · exact lt_trans hk (hlt e he)
    · split
      · rename_i hk
        split
        · exact hm
        · rename_i hv
          exact (Memory.wf_cons zero _ _ _).2 ⟨hv, hk ▸ hlt, hm⟩
      · rename_i hk1 hk2
        refine (Memory.wf_cons zero _ _ _).2 ⟨hu, ?_, ih hm⟩
        intro e he
        rcases Memory.mem_write zero m k v e he with he | rfl
        · exact hlt e he
        · exact lt_of_le_of_ne (not_lt.1 hk1) fun h => hk2 h.symm

/-- A write below the bound keeps every index below it. -/
theorem Memory.write_below (m : Memory α) (n k : Nat) (v : α) (hk : k < n)
    (h : Memory.below n m = true) : Memory.below n (Memory.write zero m k v) = true := by
  simp only [Memory.below, List.all_eq_true, decide_eq_true_eq] at h ⊢
  intro e he
  rcases Memory.mem_write zero m k v e he with he | rfl
  · exact h e he
  · exact hk

/-- A read of the index just written gives the value written. -/
theorem Memory.read_write_same (m : Memory α) (k : Nat) (v : α) (h : Memory.wf zero m = true) :
    Memory.read zero (Memory.write zero m k v) k = v := by
  induction m with
  | nil =>
    rw [Memory.write]
    split <;> simp_all [Memory.read]
  | cons f m ih =>
    obtain ⟨j, u⟩ := f
    obtain ⟨hu, hlt, hm⟩ := (Memory.wf_cons zero j u m).1 h
    rw [Memory.write]
    split
    · rename_i hk
      split
      · rename_i hv
        rw [Memory.read, if_neg (by omega), hv]
        exact Memory.read_of_lt zero m k fun e he => lt_trans hk (hlt e he)
      · simp [Memory.read]
    · split
      · rename_i hk
        split
        · rename_i hv
          rw [hv]
          exact Memory.read_of_lt zero m k (hk ▸ hlt)
        · simp [Memory.read]
      · rename_i hk1 hk2
        rw [Memory.read, if_neg (fun h => hk2 h.symm)]
        exact ih hm

/-- A write leaves every other index as it was. -/
theorem Memory.read_write_other (m : Memory α) (k k' : Nat) (v : α) (hne : k' ≠ k) :
    Memory.read zero (Memory.write zero m k v) k' = Memory.read zero m k' := by
  induction m with
  | nil =>
    rw [Memory.write]
    split
    · rfl
    · simp [Memory.read, hne.symm]
  | cons f m ih =>
    obtain ⟨j, u⟩ := f
    rw [Memory.write]
    split
    · split
      · rfl
      · rw [Memory.read, if_neg hne.symm]
    · split
      · rename_i hk
        split
        · rw [Memory.read, if_neg (by omega)]
        · simp [Memory.read, hk ▸ hne.symm, hne.symm]
      · simp only [Memory.read, ih]

/-- Two memories in canonical form that read alike are equal: equal memories are equal data. -/
theorem Memory.ext_read (m m' : Memory α) (h : Memory.wf zero m = true)
    (h' : Memory.wf zero m' = true)
    (hr : ∀ k, Memory.read zero m k = Memory.read zero m' k) : m = m' := by
  induction m generalizing m' with
  | nil =>
    cases m' with
    | nil => rfl
    | cons f m' =>
      obtain ⟨j, u⟩ := f
      have hu := ((Memory.wf_cons zero j u m').1 h').1
      have := hr j
      simp only [Memory.read, if_true] at this
      exact absurd this.symm hu
  | cons e m ih =>
    obtain ⟨k, v⟩ := e
    obtain ⟨hv, hlt, hm⟩ := (Memory.wf_cons zero k v m).1 h
    cases m' with
    | nil =>
      have := hr k
      simp only [Memory.read, if_true] at this
      exact absurd this hv
    | cons f m' =>
      obtain ⟨j, u⟩ := f
      obtain ⟨hu, hlt', hm'⟩ := (Memory.wf_cons zero j u m').1 h'
      have hkj : k = j := by
        rcases lt_trichotomy k j with hkj | hkj | hkj
        · have := hr k
          rw [Memory.read, if_pos rfl, Memory.read, if_neg (by omega),
            Memory.read_of_lt zero m' k fun e he => lt_trans hkj (hlt' e he)] at this
          exact absurd this hv
        · exact hkj
        · have := hr j
          rw [Memory.read, if_neg (by omega), Memory.read, if_pos rfl,
            Memory.read_of_lt zero m j fun e he => lt_trans hkj (hlt e he)] at this
          exact absurd this.symm hu
      subst hkj
      have hvu : v = u := by
        have := hr k
        simpa only [Memory.read, if_true] using this
      subst hvu
      have : m = m' := by
        refine ih m' hm hm' fun i => ?_
        by_cases hi : k = i
        · subst hi
          rw [Memory.read_of_lt zero m k hlt, Memory.read_of_lt zero m' k hlt']
        · have := hr i
          simpa only [Memory.read, if_neg hi] using this
      rw [this]

end

end Sys2Proof.Machine
end

