-- ==== Sys2Proof/Laws/State.lean ====
section
/-! SUPPORT. One lemma per field of the state for each update of it, true by `rfl`, so that no proof
unfolds a record update. -/

namespace Sys2Proof.Machine

open Sys2Proof

section

variable (s : State)

/-! ### `State.emit` -/

@[simp] theorem State.emit_stream (v : Word) : (s.emit v).stream = s.stream := rfl
@[simp] theorem State.emit_cp (v : Word) : (s.emit v).cp = s.cp := rfl
@[simp] theorem State.emit_resp (v : Word) : (s.emit v).resp = s.resp ++ [v] := rfl
@[simp] theorem State.emit_ctrl (v : Word) : (s.emit v).ctrl = s.ctrl := rfl
@[simp] theorem State.emit_err (v : Word) : (s.emit v).err = s.err := rfl
@[simp] theorem State.emit_psNew (v : Word) : (s.emit v).psNew = s.psNew := rfl
@[simp] theorem State.emit_groupCount (v : Word) : (s.emit v).groupCount = s.groupCount := rfl
@[simp] theorem State.emit_psPubCount (v : Word) : (s.emit v).psPubCount = s.psPubCount := rfl
@[simp] theorem State.emit_syncCount (v : Word) : (s.emit v).syncCount = s.syncCount := rfl
@[simp] theorem State.emit_audGain (v : Word) : (s.emit v).audGain = s.audGain := rfl
@[simp] theorem State.emit_deemphA (v : Word) : (s.emit v).deemphA = s.deemphA := rfl
@[simp] theorem State.emit_deemphY (v : Word) : (s.emit v).deemphY = s.deemphY := rfl
@[simp] theorem State.emit_ncoInc (v : Word) : (s.emit v).ncoInc = s.ncoInc := rfl
@[simp] theorem State.emit_ncoPhase (v : Word) : (s.emit v).ncoPhase = s.ncoPhase := rfl
@[simp] theorem State.emit_chipInc (v : Word) : (s.emit v).chipInc = s.chipInc := rfl
@[simp] theorem State.emit_chipAcc (v : Word) : (s.emit v).chipAcc = s.chipAcc := rfl
@[simp] theorem State.emit_chipPend (v : Word) : (s.emit v).chipPend = s.chipPend := rfl
@[simp] theorem State.emit_chip0 (v : Word) : (s.emit v).chip0 = s.chip0 := rfl
@[simp] theorem State.emit_prevBit (v : Word) : (s.emit v).prevBit = s.prevBit := rfl
@[simp] theorem State.emit_shift (v : Word) : (s.emit v).shift = s.shift := rfl
@[simp] theorem State.emit_bitcnt (v : Word) : (s.emit v).bitcnt = s.bitcnt := rfl
@[simp] theorem State.emit_haveSync (v : Word) : (s.emit v).haveSync = s.haveSync := rfl
@[simp] theorem State.emit_slot (v : Word) : (s.emit v).slot = s.slot := rfl
@[simp] theorem State.emit_group0 (v : Word) : (s.emit v).group0 = s.group0 := rfl
@[simp] theorem State.emit_group1 (v : Word) : (s.emit v).group1 = s.group1 := rfl
@[simp] theorem State.emit_group2 (v : Word) : (s.emit v).group2 = s.group2 := rfl
@[simp] theorem State.emit_group3 (v : Word) : (s.emit v).group3 = s.group3 := rfl
@[simp] theorem State.emit_psBuf0 (v : Word) : (s.emit v).psBuf0 = s.psBuf0 := rfl
@[simp] theorem State.emit_psBuf1 (v : Word) : (s.emit v).psBuf1 = s.psBuf1 := rfl
@[simp] theorem State.emit_psPub0 (v : Word) : (s.emit v).psPub0 = s.psPub0 := rfl
@[simp] theorem State.emit_psPub1 (v : Word) : (s.emit v).psPub1 = s.psPub1 := rfl
@[simp] theorem State.emit_psMask (v : Word) : (s.emit v).psMask = s.psMask := rfl
@[simp] theorem State.emit_psValid (v : Word) : (s.emit v).psValid = s.psValid := rfl
@[simp] theorem State.emit_fmdPrevI (v : Word) : (s.emit v).fmdPrevI = s.fmdPrevI := rfl
@[simp] theorem State.emit_fmdPrevQ (v : Word) : (s.emit v).fmdPrevQ = s.fmdPrevQ := rfl
@[simp] theorem State.emit_fmdHasPrev (v : Word) : (s.emit v).fmdHasPrev = s.fmdHasPrev := rfl
@[simp] theorem State.emit_ch (v : Word) : (s.emit v).ch = s.ch := rfl
@[simp] theorem State.emit_au (v : Word) : (s.emit v).au = s.au := rfl
@[simp] theorem State.emit_rb (v : Word) : (s.emit v).rb = s.rb := rfl
@[simp] theorem State.emit_rl (v : Word) : (s.emit v).rl = s.rl := rfl
@[simp] theorem State.emit_nanDraws (v : Word) : (s.emit v).nanDraws = s.nanDraws := rfl

/-! ### `State.emitAll` -/

@[simp] theorem State.emitAll_stream (ws : List Word) : (s.emitAll ws).stream = s.stream := rfl
@[simp] theorem State.emitAll_cp (ws : List Word) : (s.emitAll ws).cp = s.cp := rfl
@[simp] theorem State.emitAll_resp (ws : List Word) : (s.emitAll ws).resp = s.resp ++ ws := rfl
@[simp] theorem State.emitAll_ctrl (ws : List Word) : (s.emitAll ws).ctrl = s.ctrl := rfl
@[simp] theorem State.emitAll_err (ws : List Word) : (s.emitAll ws).err = s.err := rfl
@[simp] theorem State.emitAll_psNew (ws : List Word) : (s.emitAll ws).psNew = s.psNew := rfl
@[simp] theorem State.emitAll_groupCount (ws : List Word) : (s.emitAll ws).groupCount = s.groupCount := rfl
@[simp] theorem State.emitAll_psPubCount (ws : List Word) : (s.emitAll ws).psPubCount = s.psPubCount := rfl
@[simp] theorem State.emitAll_syncCount (ws : List Word) : (s.emitAll ws).syncCount = s.syncCount := rfl
@[simp] theorem State.emitAll_audGain (ws : List Word) : (s.emitAll ws).audGain = s.audGain := rfl
@[simp] theorem State.emitAll_deemphA (ws : List Word) : (s.emitAll ws).deemphA = s.deemphA := rfl
@[simp] theorem State.emitAll_deemphY (ws : List Word) : (s.emitAll ws).deemphY = s.deemphY := rfl
@[simp] theorem State.emitAll_ncoInc (ws : List Word) : (s.emitAll ws).ncoInc = s.ncoInc := rfl
@[simp] theorem State.emitAll_ncoPhase (ws : List Word) : (s.emitAll ws).ncoPhase = s.ncoPhase := rfl
@[simp] theorem State.emitAll_chipInc (ws : List Word) : (s.emitAll ws).chipInc = s.chipInc := rfl
@[simp] theorem State.emitAll_chipAcc (ws : List Word) : (s.emitAll ws).chipAcc = s.chipAcc := rfl
@[simp] theorem State.emitAll_chipPend (ws : List Word) : (s.emitAll ws).chipPend = s.chipPend := rfl
@[simp] theorem State.emitAll_chip0 (ws : List Word) : (s.emitAll ws).chip0 = s.chip0 := rfl
@[simp] theorem State.emitAll_prevBit (ws : List Word) : (s.emitAll ws).prevBit = s.prevBit := rfl
@[simp] theorem State.emitAll_shift (ws : List Word) : (s.emitAll ws).shift = s.shift := rfl
@[simp] theorem State.emitAll_bitcnt (ws : List Word) : (s.emitAll ws).bitcnt = s.bitcnt := rfl
@[simp] theorem State.emitAll_haveSync (ws : List Word) : (s.emitAll ws).haveSync = s.haveSync := rfl
@[simp] theorem State.emitAll_slot (ws : List Word) : (s.emitAll ws).slot = s.slot := rfl
@[simp] theorem State.emitAll_group0 (ws : List Word) : (s.emitAll ws).group0 = s.group0 := rfl
@[simp] theorem State.emitAll_group1 (ws : List Word) : (s.emitAll ws).group1 = s.group1 := rfl
@[simp] theorem State.emitAll_group2 (ws : List Word) : (s.emitAll ws).group2 = s.group2 := rfl
@[simp] theorem State.emitAll_group3 (ws : List Word) : (s.emitAll ws).group3 = s.group3 := rfl
@[simp] theorem State.emitAll_psBuf0 (ws : List Word) : (s.emitAll ws).psBuf0 = s.psBuf0 := rfl
@[simp] theorem State.emitAll_psBuf1 (ws : List Word) : (s.emitAll ws).psBuf1 = s.psBuf1 := rfl
@[simp] theorem State.emitAll_psPub0 (ws : List Word) : (s.emitAll ws).psPub0 = s.psPub0 := rfl
@[simp] theorem State.emitAll_psPub1 (ws : List Word) : (s.emitAll ws).psPub1 = s.psPub1 := rfl
@[simp] theorem State.emitAll_psMask (ws : List Word) : (s.emitAll ws).psMask = s.psMask := rfl
@[simp] theorem State.emitAll_psValid (ws : List Word) : (s.emitAll ws).psValid = s.psValid := rfl
@[simp] theorem State.emitAll_fmdPrevI (ws : List Word) : (s.emitAll ws).fmdPrevI = s.fmdPrevI := rfl
@[simp] theorem State.emitAll_fmdPrevQ (ws : List Word) : (s.emitAll ws).fmdPrevQ = s.fmdPrevQ := rfl
@[simp] theorem State.emitAll_fmdHasPrev (ws : List Word) : (s.emitAll ws).fmdHasPrev = s.fmdHasPrev := rfl
@[simp] theorem State.emitAll_ch (ws : List Word) : (s.emitAll ws).ch = s.ch := rfl
@[simp] theorem State.emitAll_au (ws : List Word) : (s.emitAll ws).au = s.au := rfl
@[simp] theorem State.emitAll_rb (ws : List Word) : (s.emitAll ws).rb = s.rb := rfl
@[simp] theorem State.emitAll_rl (ws : List Word) : (s.emitAll ws).rl = s.rl := rfl
@[simp] theorem State.emitAll_nanDraws (ws : List Word) : (s.emitAll ws).nanDraws = s.nanDraws := rfl

/-! ### `State.emitCounted` -/

@[simp] theorem State.emitCounted_stream (ws : List Word) (m : Nat) : (s.emitCounted ws m).stream = s.stream := rfl
@[simp] theorem State.emitCounted_cp (ws : List Word) (m : Nat) : (s.emitCounted ws m).cp = s.cp := rfl
@[simp] theorem State.emitCounted_resp (ws : List Word) (m : Nat) : (s.emitCounted ws m).resp = s.resp ++ (ws ++ [countWord m]) := rfl
@[simp] theorem State.emitCounted_ctrl (ws : List Word) (m : Nat) : (s.emitCounted ws m).ctrl = s.ctrl := rfl
@[simp] theorem State.emitCounted_err (ws : List Word) (m : Nat) : (s.emitCounted ws m).err = s.err := rfl
@[simp] theorem State.emitCounted_psNew (ws : List Word) (m : Nat) : (s.emitCounted ws m).psNew = s.psNew := rfl
@[simp] theorem State.emitCounted_groupCount (ws : List Word) (m : Nat) : (s.emitCounted ws m).groupCount = s.groupCount := rfl
@[simp] theorem State.emitCounted_psPubCount (ws : List Word) (m : Nat) : (s.emitCounted ws m).psPubCount = s.psPubCount := rfl
@[simp] theorem State.emitCounted_syncCount (ws : List Word) (m : Nat) : (s.emitCounted ws m).syncCount = s.syncCount := rfl
@[simp] theorem State.emitCounted_audGain (ws : List Word) (m : Nat) : (s.emitCounted ws m).audGain = s.audGain := rfl
@[simp] theorem State.emitCounted_deemphA (ws : List Word) (m : Nat) : (s.emitCounted ws m).deemphA = s.deemphA := rfl
@[simp] theorem State.emitCounted_deemphY (ws : List Word) (m : Nat) : (s.emitCounted ws m).deemphY = s.deemphY := rfl
@[simp] theorem State.emitCounted_ncoInc (ws : List Word) (m : Nat) : (s.emitCounted ws m).ncoInc = s.ncoInc := rfl
@[simp] theorem State.emitCounted_ncoPhase (ws : List Word) (m : Nat) : (s.emitCounted ws m).ncoPhase = s.ncoPhase := rfl
@[simp] theorem State.emitCounted_chipInc (ws : List Word) (m : Nat) : (s.emitCounted ws m).chipInc = s.chipInc := rfl
@[simp] theorem State.emitCounted_chipAcc (ws : List Word) (m : Nat) : (s.emitCounted ws m).chipAcc = s.chipAcc := rfl
@[simp] theorem State.emitCounted_chipPend (ws : List Word) (m : Nat) : (s.emitCounted ws m).chipPend = s.chipPend := rfl
@[simp] theorem State.emitCounted_chip0 (ws : List Word) (m : Nat) : (s.emitCounted ws m).chip0 = s.chip0 := rfl
@[simp] theorem State.emitCounted_prevBit (ws : List Word) (m : Nat) : (s.emitCounted ws m).prevBit = s.prevBit := rfl
@[simp] theorem State.emitCounted_shift (ws : List Word) (m : Nat) : (s.emitCounted ws m).shift = s.shift := rfl
@[simp] theorem State.emitCounted_bitcnt (ws : List Word) (m : Nat) : (s.emitCounted ws m).bitcnt = s.bitcnt := rfl
@[simp] theorem State.emitCounted_haveSync (ws : List Word) (m : Nat) : (s.emitCounted ws m).haveSync = s.haveSync := rfl
@[simp] theorem State.emitCounted_slot (ws : List Word) (m : Nat) : (s.emitCounted ws m).slot = s.slot := rfl
@[simp] theorem State.emitCounted_group0 (ws : List Word) (m : Nat) : (s.emitCounted ws m).group0 = s.group0 := rfl
@[simp] theorem State.emitCounted_group1 (ws : List Word) (m : Nat) : (s.emitCounted ws m).group1 = s.group1 := rfl
@[simp] theorem State.emitCounted_group2 (ws : List Word) (m : Nat) : (s.emitCounted ws m).group2 = s.group2 := rfl
@[simp] theorem State.emitCounted_group3 (ws : List Word) (m : Nat) : (s.emitCounted ws m).group3 = s.group3 := rfl
@[simp] theorem State.emitCounted_psBuf0 (ws : List Word) (m : Nat) : (s.emitCounted ws m).psBuf0 = s.psBuf0 := rfl
@[simp] theorem State.emitCounted_psBuf1 (ws : List Word) (m : Nat) : (s.emitCounted ws m).psBuf1 = s.psBuf1 := rfl
@[simp] theorem State.emitCounted_psPub0 (ws : List Word) (m : Nat) : (s.emitCounted ws m).psPub0 = s.psPub0 := rfl
@[simp] theorem State.emitCounted_psPub1 (ws : List Word) (m : Nat) : (s.emitCounted ws m).psPub1 = s.psPub1 := rfl
@[simp] theorem State.emitCounted_psMask (ws : List Word) (m : Nat) : (s.emitCounted ws m).psMask = s.psMask := rfl
@[simp] theorem State.emitCounted_psValid (ws : List Word) (m : Nat) : (s.emitCounted ws m).psValid = s.psValid := rfl
@[simp] theorem State.emitCounted_fmdPrevI (ws : List Word) (m : Nat) : (s.emitCounted ws m).fmdPrevI = s.fmdPrevI := rfl
@[simp] theorem State.emitCounted_fmdPrevQ (ws : List Word) (m : Nat) : (s.emitCounted ws m).fmdPrevQ = s.fmdPrevQ := rfl
@[simp] theorem State.emitCounted_fmdHasPrev (ws : List Word) (m : Nat) : (s.emitCounted ws m).fmdHasPrev = s.fmdHasPrev := rfl
@[simp] theorem State.emitCounted_ch (ws : List Word) (m : Nat) : (s.emitCounted ws m).ch = s.ch := rfl
@[simp] theorem State.emitCounted_au (ws : List Word) (m : Nat) : (s.emitCounted ws m).au = s.au := rfl
@[simp] theorem State.emitCounted_rb (ws : List Word) (m : Nat) : (s.emitCounted ws m).rb = s.rb := rfl
@[simp] theorem State.emitCounted_rl (ws : List Word) (m : Nat) : (s.emitCounted ws m).rl = s.rl := rfl
@[simp] theorem State.emitCounted_nanDraws (ws : List Word) (m : Nat) : (s.emitCounted ws m).nanDraws = s.nanDraws := rfl

/-! ### `State.raise` -/

@[simp] theorem State.raise_stream (e : ErrCause) : (s.raise e).stream = s.stream := rfl
@[simp] theorem State.raise_cp (e : ErrCause) : (s.raise e).cp = s.cp := rfl
@[simp] theorem State.raise_resp (e : ErrCause) : (s.raise e).resp = s.resp := rfl
@[simp] theorem State.raise_ctrl (e : ErrCause) : (s.raise e).ctrl = s.ctrl := rfl
@[simp] theorem State.raise_err (e : ErrCause) : (s.raise e).err = s.err ||| e.bit := rfl
@[simp] theorem State.raise_psNew (e : ErrCause) : (s.raise e).psNew = s.psNew := rfl
@[simp] theorem State.raise_groupCount (e : ErrCause) : (s.raise e).groupCount = s.groupCount := rfl
@[simp] theorem State.raise_psPubCount (e : ErrCause) : (s.raise e).psPubCount = s.psPubCount := rfl
@[simp] theorem State.raise_syncCount (e : ErrCause) : (s.raise e).syncCount = s.syncCount := rfl
@[simp] theorem State.raise_audGain (e : ErrCause) : (s.raise e).audGain = s.audGain := rfl
@[simp] theorem State.raise_deemphA (e : ErrCause) : (s.raise e).deemphA = s.deemphA := rfl
@[simp] theorem State.raise_deemphY (e : ErrCause) : (s.raise e).deemphY = s.deemphY := rfl
@[simp] theorem State.raise_ncoInc (e : ErrCause) : (s.raise e).ncoInc = s.ncoInc := rfl
@[simp] theorem State.raise_ncoPhase (e : ErrCause) : (s.raise e).ncoPhase = s.ncoPhase := rfl
@[simp] theorem State.raise_chipInc (e : ErrCause) : (s.raise e).chipInc = s.chipInc := rfl
@[simp] theorem State.raise_chipAcc (e : ErrCause) : (s.raise e).chipAcc = s.chipAcc := rfl
@[simp] theorem State.raise_chipPend (e : ErrCause) : (s.raise e).chipPend = s.chipPend := rfl
@[simp] theorem State.raise_chip0 (e : ErrCause) : (s.raise e).chip0 = s.chip0 := rfl
@[simp] theorem State.raise_prevBit (e : ErrCause) : (s.raise e).prevBit = s.prevBit := rfl
@[simp] theorem State.raise_shift (e : ErrCause) : (s.raise e).shift = s.shift := rfl
@[simp] theorem State.raise_bitcnt (e : ErrCause) : (s.raise e).bitcnt = s.bitcnt := rfl
@[simp] theorem State.raise_haveSync (e : ErrCause) : (s.raise e).haveSync = s.haveSync := rfl
@[simp] theorem State.raise_slot (e : ErrCause) : (s.raise e).slot = s.slot := rfl
@[simp] theorem State.raise_group0 (e : ErrCause) : (s.raise e).group0 = s.group0 := rfl
@[simp] theorem State.raise_group1 (e : ErrCause) : (s.raise e).group1 = s.group1 := rfl
@[simp] theorem State.raise_group2 (e : ErrCause) : (s.raise e).group2 = s.group2 := rfl
@[simp] theorem State.raise_group3 (e : ErrCause) : (s.raise e).group3 = s.group3 := rfl
@[simp] theorem State.raise_psBuf0 (e : ErrCause) : (s.raise e).psBuf0 = s.psBuf0 := rfl
@[simp] theorem State.raise_psBuf1 (e : ErrCause) : (s.raise e).psBuf1 = s.psBuf1 := rfl
@[simp] theorem State.raise_psPub0 (e : ErrCause) : (s.raise e).psPub0 = s.psPub0 := rfl
@[simp] theorem State.raise_psPub1 (e : ErrCause) : (s.raise e).psPub1 = s.psPub1 := rfl
@[simp] theorem State.raise_psMask (e : ErrCause) : (s.raise e).psMask = s.psMask := rfl
@[simp] theorem State.raise_psValid (e : ErrCause) : (s.raise e).psValid = s.psValid := rfl
@[simp] theorem State.raise_fmdPrevI (e : ErrCause) : (s.raise e).fmdPrevI = s.fmdPrevI := rfl
@[simp] theorem State.raise_fmdPrevQ (e : ErrCause) : (s.raise e).fmdPrevQ = s.fmdPrevQ := rfl
@[simp] theorem State.raise_fmdHasPrev (e : ErrCause) : (s.raise e).fmdHasPrev = s.fmdHasPrev := rfl
@[simp] theorem State.raise_ch (e : ErrCause) : (s.raise e).ch = s.ch := rfl
@[simp] theorem State.raise_au (e : ErrCause) : (s.raise e).au = s.au := rfl
@[simp] theorem State.raise_rb (e : ErrCause) : (s.raise e).rb = s.rb := rfl
@[simp] theorem State.raise_rl (e : ErrCause) : (s.raise e).rl = s.rl := rfl
@[simp] theorem State.raise_nanDraws (e : ErrCause) : (s.raise e).nanDraws = s.nanDraws := rfl

/-! ### `State.advance` -/

@[simp] theorem State.advance_stream (n : Nat) : (s.advance n).stream = s.stream := rfl
@[simp] theorem State.advance_cp (n : Nat) : (s.advance n).cp = s.cp + n := rfl
@[simp] theorem State.advance_resp (n : Nat) : (s.advance n).resp = s.resp := rfl
@[simp] theorem State.advance_ctrl (n : Nat) : (s.advance n).ctrl = s.ctrl := rfl
@[simp] theorem State.advance_err (n : Nat) : (s.advance n).err = s.err := rfl
@[simp] theorem State.advance_psNew (n : Nat) : (s.advance n).psNew = s.psNew := rfl
@[simp] theorem State.advance_groupCount (n : Nat) : (s.advance n).groupCount = s.groupCount := rfl
@[simp] theorem State.advance_psPubCount (n : Nat) : (s.advance n).psPubCount = s.psPubCount := rfl
@[simp] theorem State.advance_syncCount (n : Nat) : (s.advance n).syncCount = s.syncCount := rfl
@[simp] theorem State.advance_audGain (n : Nat) : (s.advance n).audGain = s.audGain := rfl
@[simp] theorem State.advance_deemphA (n : Nat) : (s.advance n).deemphA = s.deemphA := rfl
@[simp] theorem State.advance_deemphY (n : Nat) : (s.advance n).deemphY = s.deemphY := rfl
@[simp] theorem State.advance_ncoInc (n : Nat) : (s.advance n).ncoInc = s.ncoInc := rfl
@[simp] theorem State.advance_ncoPhase (n : Nat) : (s.advance n).ncoPhase = s.ncoPhase := rfl
@[simp] theorem State.advance_chipInc (n : Nat) : (s.advance n).chipInc = s.chipInc := rfl
@[simp] theorem State.advance_chipAcc (n : Nat) : (s.advance n).chipAcc = s.chipAcc := rfl
@[simp] theorem State.advance_chipPend (n : Nat) : (s.advance n).chipPend = s.chipPend := rfl
@[simp] theorem State.advance_chip0 (n : Nat) : (s.advance n).chip0 = s.chip0 := rfl
@[simp] theorem State.advance_prevBit (n : Nat) : (s.advance n).prevBit = s.prevBit := rfl
@[simp] theorem State.advance_shift (n : Nat) : (s.advance n).shift = s.shift := rfl
@[simp] theorem State.advance_bitcnt (n : Nat) : (s.advance n).bitcnt = s.bitcnt := rfl
@[simp] theorem State.advance_haveSync (n : Nat) : (s.advance n).haveSync = s.haveSync := rfl
@[simp] theorem State.advance_slot (n : Nat) : (s.advance n).slot = s.slot := rfl
@[simp] theorem State.advance_group0 (n : Nat) : (s.advance n).group0 = s.group0 := rfl
@[simp] theorem State.advance_group1 (n : Nat) : (s.advance n).group1 = s.group1 := rfl
@[simp] theorem State.advance_group2 (n : Nat) : (s.advance n).group2 = s.group2 := rfl
@[simp] theorem State.advance_group3 (n : Nat) : (s.advance n).group3 = s.group3 := rfl
@[simp] theorem State.advance_psBuf0 (n : Nat) : (s.advance n).psBuf0 = s.psBuf0 := rfl
@[simp] theorem State.advance_psBuf1 (n : Nat) : (s.advance n).psBuf1 = s.psBuf1 := rfl
@[simp] theorem State.advance_psPub0 (n : Nat) : (s.advance n).psPub0 = s.psPub0 := rfl
@[simp] theorem State.advance_psPub1 (n : Nat) : (s.advance n).psPub1 = s.psPub1 := rfl
@[simp] theorem State.advance_psMask (n : Nat) : (s.advance n).psMask = s.psMask := rfl
@[simp] theorem State.advance_psValid (n : Nat) : (s.advance n).psValid = s.psValid := rfl
@[simp] theorem State.advance_fmdPrevI (n : Nat) : (s.advance n).fmdPrevI = s.fmdPrevI := rfl
@[simp] theorem State.advance_fmdPrevQ (n : Nat) : (s.advance n).fmdPrevQ = s.fmdPrevQ := rfl
@[simp] theorem State.advance_fmdHasPrev (n : Nat) : (s.advance n).fmdHasPrev = s.fmdHasPrev := rfl
@[simp] theorem State.advance_ch (n : Nat) : (s.advance n).ch = s.ch := rfl
@[simp] theorem State.advance_au (n : Nat) : (s.advance n).au = s.au := rfl
@[simp] theorem State.advance_rb (n : Nat) : (s.advance n).rb = s.rb := rfl
@[simp] theorem State.advance_rl (n : Nat) : (s.advance n).rl = s.rl := rfl
@[simp] theorem State.advance_nanDraws (n : Nat) : (s.advance n).nanDraws = s.nanDraws := rfl

/-! ### `State.supply` -/

@[simp] theorem State.supply_stream (ws : List Word) : (s.supply ws).stream = s.stream ++ ws := rfl
@[simp] theorem State.supply_cp (ws : List Word) : (s.supply ws).cp = s.cp := rfl
@[simp] theorem State.supply_resp (ws : List Word) : (s.supply ws).resp = s.resp := rfl
@[simp] theorem State.supply_ctrl (ws : List Word) : (s.supply ws).ctrl = s.ctrl := rfl
@[simp] theorem State.supply_err (ws : List Word) : (s.supply ws).err = s.err := rfl
@[simp] theorem State.supply_psNew (ws : List Word) : (s.supply ws).psNew = s.psNew := rfl
@[simp] theorem State.supply_groupCount (ws : List Word) : (s.supply ws).groupCount = s.groupCount := rfl
@[simp] theorem State.supply_psPubCount (ws : List Word) : (s.supply ws).psPubCount = s.psPubCount := rfl
@[simp] theorem State.supply_syncCount (ws : List Word) : (s.supply ws).syncCount = s.syncCount := rfl
@[simp] theorem State.supply_audGain (ws : List Word) : (s.supply ws).audGain = s.audGain := rfl
@[simp] theorem State.supply_deemphA (ws : List Word) : (s.supply ws).deemphA = s.deemphA := rfl
@[simp] theorem State.supply_deemphY (ws : List Word) : (s.supply ws).deemphY = s.deemphY := rfl
@[simp] theorem State.supply_ncoInc (ws : List Word) : (s.supply ws).ncoInc = s.ncoInc := rfl
@[simp] theorem State.supply_ncoPhase (ws : List Word) : (s.supply ws).ncoPhase = s.ncoPhase := rfl
@[simp] theorem State.supply_chipInc (ws : List Word) : (s.supply ws).chipInc = s.chipInc := rfl
@[simp] theorem State.supply_chipAcc (ws : List Word) : (s.supply ws).chipAcc = s.chipAcc := rfl
@[simp] theorem State.supply_chipPend (ws : List Word) : (s.supply ws).chipPend = s.chipPend := rfl
@[simp] theorem State.supply_chip0 (ws : List Word) : (s.supply ws).chip0 = s.chip0 := rfl
@[simp] theorem State.supply_prevBit (ws : List Word) : (s.supply ws).prevBit = s.prevBit := rfl
@[simp] theorem State.supply_shift (ws : List Word) : (s.supply ws).shift = s.shift := rfl
@[simp] theorem State.supply_bitcnt (ws : List Word) : (s.supply ws).bitcnt = s.bitcnt := rfl
@[simp] theorem State.supply_haveSync (ws : List Word) : (s.supply ws).haveSync = s.haveSync := rfl
@[simp] theorem State.supply_slot (ws : List Word) : (s.supply ws).slot = s.slot := rfl
@[simp] theorem State.supply_group0 (ws : List Word) : (s.supply ws).group0 = s.group0 := rfl
@[simp] theorem State.supply_group1 (ws : List Word) : (s.supply ws).group1 = s.group1 := rfl
@[simp] theorem State.supply_group2 (ws : List Word) : (s.supply ws).group2 = s.group2 := rfl
@[simp] theorem State.supply_group3 (ws : List Word) : (s.supply ws).group3 = s.group3 := rfl
@[simp] theorem State.supply_psBuf0 (ws : List Word) : (s.supply ws).psBuf0 = s.psBuf0 := rfl
@[simp] theorem State.supply_psBuf1 (ws : List Word) : (s.supply ws).psBuf1 = s.psBuf1 := rfl
@[simp] theorem State.supply_psPub0 (ws : List Word) : (s.supply ws).psPub0 = s.psPub0 := rfl
@[simp] theorem State.supply_psPub1 (ws : List Word) : (s.supply ws).psPub1 = s.psPub1 := rfl
@[simp] theorem State.supply_psMask (ws : List Word) : (s.supply ws).psMask = s.psMask := rfl
@[simp] theorem State.supply_psValid (ws : List Word) : (s.supply ws).psValid = s.psValid := rfl
@[simp] theorem State.supply_fmdPrevI (ws : List Word) : (s.supply ws).fmdPrevI = s.fmdPrevI := rfl
@[simp] theorem State.supply_fmdPrevQ (ws : List Word) : (s.supply ws).fmdPrevQ = s.fmdPrevQ := rfl
@[simp] theorem State.supply_fmdHasPrev (ws : List Word) : (s.supply ws).fmdHasPrev = s.fmdHasPrev := rfl
@[simp] theorem State.supply_ch (ws : List Word) : (s.supply ws).ch = s.ch := rfl
@[simp] theorem State.supply_au (ws : List Word) : (s.supply ws).au = s.au := rfl
@[simp] theorem State.supply_rb (ws : List Word) : (s.supply ws).rb = s.rb := rfl
@[simp] theorem State.supply_rl (ws : List Word) : (s.supply ws).rl = s.rl := rfl
@[simp] theorem State.supply_nanDraws (ws : List Word) : (s.supply ws).nanDraws = s.nanDraws := rfl

/-! ### `State.writeCtrl` -/

@[simp] theorem State.writeCtrl_stream (v : Word) : (s.writeCtrl v).stream = s.stream := rfl
@[simp] theorem State.writeCtrl_cp (v : Word) : (s.writeCtrl v).cp = s.cp := rfl
@[simp] theorem State.writeCtrl_resp (v : Word) : (s.writeCtrl v).resp = s.resp := rfl
@[simp] theorem State.writeCtrl_ctrl (v : Word) : (s.writeCtrl v).ctrl = v.extractLsb' 0 5 := rfl
@[simp] theorem State.writeCtrl_err (v : Word) : (s.writeCtrl v).err = s.err := rfl
@[simp] theorem State.writeCtrl_psNew (v : Word) : (s.writeCtrl v).psNew = s.psNew := rfl
@[simp] theorem State.writeCtrl_groupCount (v : Word) : (s.writeCtrl v).groupCount = s.groupCount := rfl
@[simp] theorem State.writeCtrl_psPubCount (v : Word) : (s.writeCtrl v).psPubCount = s.psPubCount := rfl
@[simp] theorem State.writeCtrl_syncCount (v : Word) : (s.writeCtrl v).syncCount = s.syncCount := rfl
@[simp] theorem State.writeCtrl_audGain (v : Word) : (s.writeCtrl v).audGain = s.audGain := rfl
@[simp] theorem State.writeCtrl_deemphA (v : Word) : (s.writeCtrl v).deemphA = s.deemphA := rfl
@[simp] theorem State.writeCtrl_deemphY (v : Word) : (s.writeCtrl v).deemphY = s.deemphY := rfl
@[simp] theorem State.writeCtrl_ncoInc (v : Word) : (s.writeCtrl v).ncoInc = s.ncoInc := rfl
@[simp] theorem State.writeCtrl_ncoPhase (v : Word) : (s.writeCtrl v).ncoPhase = s.ncoPhase := rfl
@[simp] theorem State.writeCtrl_chipInc (v : Word) : (s.writeCtrl v).chipInc = s.chipInc := rfl
@[simp] theorem State.writeCtrl_chipAcc (v : Word) : (s.writeCtrl v).chipAcc = s.chipAcc := rfl
@[simp] theorem State.writeCtrl_chipPend (v : Word) : (s.writeCtrl v).chipPend = s.chipPend := rfl
@[simp] theorem State.writeCtrl_chip0 (v : Word) : (s.writeCtrl v).chip0 = s.chip0 := rfl
@[simp] theorem State.writeCtrl_prevBit (v : Word) : (s.writeCtrl v).prevBit = s.prevBit := rfl
@[simp] theorem State.writeCtrl_shift (v : Word) : (s.writeCtrl v).shift = s.shift := rfl
@[simp] theorem State.writeCtrl_bitcnt (v : Word) : (s.writeCtrl v).bitcnt = s.bitcnt := rfl
@[simp] theorem State.writeCtrl_haveSync (v : Word) : (s.writeCtrl v).haveSync = s.haveSync := rfl
@[simp] theorem State.writeCtrl_slot (v : Word) : (s.writeCtrl v).slot = s.slot := rfl
@[simp] theorem State.writeCtrl_group0 (v : Word) : (s.writeCtrl v).group0 = s.group0 := rfl
@[simp] theorem State.writeCtrl_group1 (v : Word) : (s.writeCtrl v).group1 = s.group1 := rfl
@[simp] theorem State.writeCtrl_group2 (v : Word) : (s.writeCtrl v).group2 = s.group2 := rfl
@[simp] theorem State.writeCtrl_group3 (v : Word) : (s.writeCtrl v).group3 = s.group3 := rfl
@[simp] theorem State.writeCtrl_psBuf0 (v : Word) : (s.writeCtrl v).psBuf0 = s.psBuf0 := rfl
@[simp] theorem State.writeCtrl_psBuf1 (v : Word) : (s.writeCtrl v).psBuf1 = s.psBuf1 := rfl
@[simp] theorem State.writeCtrl_psPub0 (v : Word) : (s.writeCtrl v).psPub0 = s.psPub0 := rfl
@[simp] theorem State.writeCtrl_psPub1 (v : Word) : (s.writeCtrl v).psPub1 = s.psPub1 := rfl
@[simp] theorem State.writeCtrl_psMask (v : Word) : (s.writeCtrl v).psMask = s.psMask := rfl
@[simp] theorem State.writeCtrl_psValid (v : Word) : (s.writeCtrl v).psValid = s.psValid := rfl
@[simp] theorem State.writeCtrl_fmdPrevI (v : Word) : (s.writeCtrl v).fmdPrevI = s.fmdPrevI := rfl
@[simp] theorem State.writeCtrl_fmdPrevQ (v : Word) : (s.writeCtrl v).fmdPrevQ = s.fmdPrevQ := rfl
@[simp] theorem State.writeCtrl_fmdHasPrev (v : Word) : (s.writeCtrl v).fmdHasPrev = s.fmdHasPrev := rfl
@[simp] theorem State.writeCtrl_ch (v : Word) : (s.writeCtrl v).ch = s.ch := rfl
@[simp] theorem State.writeCtrl_au (v : Word) : (s.writeCtrl v).au = s.au := rfl
@[simp] theorem State.writeCtrl_rb (v : Word) : (s.writeCtrl v).rb = s.rb := rfl
@[simp] theorem State.writeCtrl_rl (v : Word) : (s.writeCtrl v).rl = s.rl := rfl
@[simp] theorem State.writeCtrl_nanDraws (v : Word) : (s.writeCtrl v).nanDraws = s.nanDraws := rfl

/-! ### `State.writeErr` -/

@[simp] theorem State.writeErr_stream (v : Word) : (s.writeErr v).stream = s.stream := rfl
@[simp] theorem State.writeErr_cp (v : Word) : (s.writeErr v).cp = s.cp := rfl
@[simp] theorem State.writeErr_resp (v : Word) : (s.writeErr v).resp = s.resp := rfl
@[simp] theorem State.writeErr_ctrl (v : Word) : (s.writeErr v).ctrl = s.ctrl := rfl
@[simp] theorem State.writeErr_err (v : Word) : (s.writeErr v).err = s.err &&& ~~~(v.extractLsb' 0 3) := rfl
@[simp] theorem State.writeErr_psNew (v : Word) : (s.writeErr v).psNew = s.psNew := rfl
@[simp] theorem State.writeErr_groupCount (v : Word) : (s.writeErr v).groupCount = s.groupCount := rfl
@[simp] theorem State.writeErr_psPubCount (v : Word) : (s.writeErr v).psPubCount = s.psPubCount := rfl
@[simp] theorem State.writeErr_syncCount (v : Word) : (s.writeErr v).syncCount = s.syncCount := rfl
@[simp] theorem State.writeErr_audGain (v : Word) : (s.writeErr v).audGain = s.audGain := rfl
@[simp] theorem State.writeErr_deemphA (v : Word) : (s.writeErr v).deemphA = s.deemphA := rfl
@[simp] theorem State.writeErr_deemphY (v : Word) : (s.writeErr v).deemphY = s.deemphY := rfl
@[simp] theorem State.writeErr_ncoInc (v : Word) : (s.writeErr v).ncoInc = s.ncoInc := rfl
@[simp] theorem State.writeErr_ncoPhase (v : Word) : (s.writeErr v).ncoPhase = s.ncoPhase := rfl
@[simp] theorem State.writeErr_chipInc (v : Word) : (s.writeErr v).chipInc = s.chipInc := rfl
@[simp] theorem State.writeErr_chipAcc (v : Word) : (s.writeErr v).chipAcc = s.chipAcc := rfl
@[simp] theorem State.writeErr_chipPend (v : Word) : (s.writeErr v).chipPend = s.chipPend := rfl
@[simp] theorem State.writeErr_chip0 (v : Word) : (s.writeErr v).chip0 = s.chip0 := rfl
@[simp] theorem State.writeErr_prevBit (v : Word) : (s.writeErr v).prevBit = s.prevBit := rfl
@[simp] theorem State.writeErr_shift (v : Word) : (s.writeErr v).shift = s.shift := rfl
@[simp] theorem State.writeErr_bitcnt (v : Word) : (s.writeErr v).bitcnt = s.bitcnt := rfl
@[simp] theorem State.writeErr_haveSync (v : Word) : (s.writeErr v).haveSync = s.haveSync := rfl
@[simp] theorem State.writeErr_slot (v : Word) : (s.writeErr v).slot = s.slot := rfl
@[simp] theorem State.writeErr_group0 (v : Word) : (s.writeErr v).group0 = s.group0 := rfl
@[simp] theorem State.writeErr_group1 (v : Word) : (s.writeErr v).group1 = s.group1 := rfl
@[simp] theorem State.writeErr_group2 (v : Word) : (s.writeErr v).group2 = s.group2 := rfl
@[simp] theorem State.writeErr_group3 (v : Word) : (s.writeErr v).group3 = s.group3 := rfl
@[simp] theorem State.writeErr_psBuf0 (v : Word) : (s.writeErr v).psBuf0 = s.psBuf0 := rfl
@[simp] theorem State.writeErr_psBuf1 (v : Word) : (s.writeErr v).psBuf1 = s.psBuf1 := rfl
@[simp] theorem State.writeErr_psPub0 (v : Word) : (s.writeErr v).psPub0 = s.psPub0 := rfl
@[simp] theorem State.writeErr_psPub1 (v : Word) : (s.writeErr v).psPub1 = s.psPub1 := rfl
@[simp] theorem State.writeErr_psMask (v : Word) : (s.writeErr v).psMask = s.psMask := rfl
@[simp] theorem State.writeErr_psValid (v : Word) : (s.writeErr v).psValid = s.psValid := rfl
@[simp] theorem State.writeErr_fmdPrevI (v : Word) : (s.writeErr v).fmdPrevI = s.fmdPrevI := rfl
@[simp] theorem State.writeErr_fmdPrevQ (v : Word) : (s.writeErr v).fmdPrevQ = s.fmdPrevQ := rfl
@[simp] theorem State.writeErr_fmdHasPrev (v : Word) : (s.writeErr v).fmdHasPrev = s.fmdHasPrev := rfl
@[simp] theorem State.writeErr_ch (v : Word) : (s.writeErr v).ch = s.ch := rfl
@[simp] theorem State.writeErr_au (v : Word) : (s.writeErr v).au = s.au := rfl
@[simp] theorem State.writeErr_rb (v : Word) : (s.writeErr v).rb = s.rb := rfl
@[simp] theorem State.writeErr_rl (v : Word) : (s.writeErr v).rl = s.rl := rfl
@[simp] theorem State.writeErr_nanDraws (v : Word) : (s.writeErr v).nanDraws = s.nanDraws := rfl

/-! ### `State.publish` -/

@[simp] theorem State.publish_stream : (s.publish).stream = s.stream := rfl
@[simp] theorem State.publish_cp : (s.publish).cp = s.cp := rfl
@[simp] theorem State.publish_resp : (s.publish).resp = s.resp := rfl
@[simp] theorem State.publish_ctrl : (s.publish).ctrl = s.ctrl := rfl
@[simp] theorem State.publish_err : (s.publish).err = s.err := rfl
@[simp] theorem State.publish_psNew : (s.publish).psNew = true := rfl
@[simp] theorem State.publish_groupCount : (s.publish).groupCount = s.groupCount := rfl
@[simp] theorem State.publish_psPubCount : (s.publish).psPubCount = s.psPubCount + 1 := rfl
@[simp] theorem State.publish_syncCount : (s.publish).syncCount = s.syncCount := rfl
@[simp] theorem State.publish_audGain : (s.publish).audGain = s.audGain := rfl
@[simp] theorem State.publish_deemphA : (s.publish).deemphA = s.deemphA := rfl
@[simp] theorem State.publish_deemphY : (s.publish).deemphY = s.deemphY := rfl
@[simp] theorem State.publish_ncoInc : (s.publish).ncoInc = s.ncoInc := rfl
@[simp] theorem State.publish_ncoPhase : (s.publish).ncoPhase = s.ncoPhase := rfl
@[simp] theorem State.publish_chipInc : (s.publish).chipInc = s.chipInc := rfl
@[simp] theorem State.publish_chipAcc : (s.publish).chipAcc = s.chipAcc := rfl
@[simp] theorem State.publish_chipPend : (s.publish).chipPend = s.chipPend := rfl
@[simp] theorem State.publish_chip0 : (s.publish).chip0 = s.chip0 := rfl
@[simp] theorem State.publish_prevBit : (s.publish).prevBit = s.prevBit := rfl
@[simp] theorem State.publish_shift : (s.publish).shift = s.shift := rfl
@[simp] theorem State.publish_bitcnt : (s.publish).bitcnt = s.bitcnt := rfl
@[simp] theorem State.publish_haveSync : (s.publish).haveSync = s.haveSync := rfl
@[simp] theorem State.publish_slot : (s.publish).slot = s.slot := rfl
@[simp] theorem State.publish_group0 : (s.publish).group0 = s.group0 := rfl
@[simp] theorem State.publish_group1 : (s.publish).group1 = s.group1 := rfl
@[simp] theorem State.publish_group2 : (s.publish).group2 = s.group2 := rfl
@[simp] theorem State.publish_group3 : (s.publish).group3 = s.group3 := rfl
@[simp] theorem State.publish_psBuf0 : (s.publish).psBuf0 = s.psBuf0 := rfl
@[simp] theorem State.publish_psBuf1 : (s.publish).psBuf1 = s.psBuf1 := rfl
@[simp] theorem State.publish_psPub0 : (s.publish).psPub0 = s.psBuf0 := rfl
@[simp] theorem State.publish_psPub1 : (s.publish).psPub1 = s.psBuf1 := rfl
@[simp] theorem State.publish_psMask : (s.publish).psMask = s.psMask := rfl
@[simp] theorem State.publish_psValid : (s.publish).psValid = true := rfl
@[simp] theorem State.publish_fmdPrevI : (s.publish).fmdPrevI = s.fmdPrevI := rfl
@[simp] theorem State.publish_fmdPrevQ : (s.publish).fmdPrevQ = s.fmdPrevQ := rfl
@[simp] theorem State.publish_fmdHasPrev : (s.publish).fmdHasPrev = s.fmdHasPrev := rfl
@[simp] theorem State.publish_ch : (s.publish).ch = s.ch := rfl
@[simp] theorem State.publish_au : (s.publish).au = s.au := rfl
@[simp] theorem State.publish_rb : (s.publish).rb = s.rb := rfl
@[simp] theorem State.publish_rl : (s.publish).rl = s.rl := rfl
@[simp] theorem State.publish_nanDraws : (s.publish).nanDraws = s.nanDraws := rfl

/-! ### `State.setFir`, whatever the engine -/

@[simp] theorem State.setFir_stream (i : RealInst) (f : Fir Word) : (s.setFir i f).stream = s.stream := by cases i <;> rfl
@[simp] theorem State.setFir_cp (i : RealInst) (f : Fir Word) : (s.setFir i f).cp = s.cp := by cases i <;> rfl
@[simp] theorem State.setFir_resp (i : RealInst) (f : Fir Word) : (s.setFir i f).resp = s.resp := by cases i <;> rfl
@[simp] theorem State.setFir_ctrl (i : RealInst) (f : Fir Word) : (s.setFir i f).ctrl = s.ctrl := by cases i <;> rfl
@[simp] theorem State.setFir_err (i : RealInst) (f : Fir Word) : (s.setFir i f).err = s.err := by cases i <;> rfl
@[simp] theorem State.setFir_psNew (i : RealInst) (f : Fir Word) : (s.setFir i f).psNew = s.psNew := by cases i <;> rfl
@[simp] theorem State.setFir_groupCount (i : RealInst) (f : Fir Word) : (s.setFir i f).groupCount = s.groupCount := by cases i <;> rfl
@[simp] theorem State.setFir_psPubCount (i : RealInst) (f : Fir Word) : (s.setFir i f).psPubCount = s.psPubCount := by cases i <;> rfl
@[simp] theorem State.setFir_syncCount (i : RealInst) (f : Fir Word) : (s.setFir i f).syncCount = s.syncCount := by cases i <;> rfl
@[simp] theorem State.setFir_audGain (i : RealInst) (f : Fir Word) : (s.setFir i f).audGain = s.audGain := by cases i <;> rfl
@[simp] theorem State.setFir_deemphA (i : RealInst) (f : Fir Word) : (s.setFir i f).deemphA = s.deemphA := by cases i <;> rfl
@[simp] theorem State.setFir_deemphY (i : RealInst) (f : Fir Word) : (s.setFir i f).deemphY = s.deemphY := by cases i <;> rfl
@[simp] theorem State.setFir_ncoInc (i : RealInst) (f : Fir Word) : (s.setFir i f).ncoInc = s.ncoInc := by cases i <;> rfl
@[simp] theorem State.setFir_ncoPhase (i : RealInst) (f : Fir Word) : (s.setFir i f).ncoPhase = s.ncoPhase := by cases i <;> rfl
@[simp] theorem State.setFir_chipInc (i : RealInst) (f : Fir Word) : (s.setFir i f).chipInc = s.chipInc := by cases i <;> rfl
@[simp] theorem State.setFir_chipAcc (i : RealInst) (f : Fir Word) : (s.setFir i f).chipAcc = s.chipAcc := by cases i <;> rfl
@[simp] theorem State.setFir_chipPend (i : RealInst) (f : Fir Word) : (s.setFir i f).chipPend = s.chipPend := by cases i <;> rfl
@[simp] theorem State.setFir_chip0 (i : RealInst) (f : Fir Word) : (s.setFir i f).chip0 = s.chip0 := by cases i <;> rfl
@[simp] theorem State.setFir_prevBit (i : RealInst) (f : Fir Word) : (s.setFir i f).prevBit = s.prevBit := by cases i <;> rfl
@[simp] theorem State.setFir_shift (i : RealInst) (f : Fir Word) : (s.setFir i f).shift = s.shift := by cases i <;> rfl
@[simp] theorem State.setFir_bitcnt (i : RealInst) (f : Fir Word) : (s.setFir i f).bitcnt = s.bitcnt := by cases i <;> rfl
@[simp] theorem State.setFir_haveSync (i : RealInst) (f : Fir Word) : (s.setFir i f).haveSync = s.haveSync := by cases i <;> rfl
@[simp] theorem State.setFir_slot (i : RealInst) (f : Fir Word) : (s.setFir i f).slot = s.slot := by cases i <;> rfl
@[simp] theorem State.setFir_group0 (i : RealInst) (f : Fir Word) : (s.setFir i f).group0 = s.group0 := by cases i <;> rfl
@[simp] theorem State.setFir_group1 (i : RealInst) (f : Fir Word) : (s.setFir i f).group1 = s.group1 := by cases i <;> rfl
@[simp] theorem State.setFir_group2 (i : RealInst) (f : Fir Word) : (s.setFir i f).group2 = s.group2 := by cases i <;> rfl
@[simp] theorem State.setFir_group3 (i : RealInst) (f : Fir Word) : (s.setFir i f).group3 = s.group3 := by cases i <;> rfl
@[simp] theorem State.setFir_psBuf0 (i : RealInst) (f : Fir Word) : (s.setFir i f).psBuf0 = s.psBuf0 := by cases i <;> rfl
@[simp] theorem State.setFir_psBuf1 (i : RealInst) (f : Fir Word) : (s.setFir i f).psBuf1 = s.psBuf1 := by cases i <;> rfl
@[simp] theorem State.setFir_psPub0 (i : RealInst) (f : Fir Word) : (s.setFir i f).psPub0 = s.psPub0 := by cases i <;> rfl
@[simp] theorem State.setFir_psPub1 (i : RealInst) (f : Fir Word) : (s.setFir i f).psPub1 = s.psPub1 := by cases i <;> rfl
@[simp] theorem State.setFir_psMask (i : RealInst) (f : Fir Word) : (s.setFir i f).psMask = s.psMask := by cases i <;> rfl
@[simp] theorem State.setFir_psValid (i : RealInst) (f : Fir Word) : (s.setFir i f).psValid = s.psValid := by cases i <;> rfl
@[simp] theorem State.setFir_fmdPrevI (i : RealInst) (f : Fir Word) : (s.setFir i f).fmdPrevI = s.fmdPrevI := by cases i <;> rfl
@[simp] theorem State.setFir_fmdPrevQ (i : RealInst) (f : Fir Word) : (s.setFir i f).fmdPrevQ = s.fmdPrevQ := by cases i <;> rfl
@[simp] theorem State.setFir_fmdHasPrev (i : RealInst) (f : Fir Word) : (s.setFir i f).fmdHasPrev = s.fmdHasPrev := by cases i <;> rfl
@[simp] theorem State.setFir_ch (i : RealInst) (f : Fir Word) : (s.setFir i f).ch = s.ch := by cases i <;> rfl
@[simp] theorem State.setFir_nanDraws (i : RealInst) (f : Fir Word) : (s.setFir i f).nanDraws = s.nanDraws := by cases i <;> rfl

@[simp] theorem State.setFir_fir_same (i : RealInst) (f : Fir Word) : (s.setFir i f).fir i = f := by
  cases i <;> rfl

theorem State.setFir_fir_other (i j : RealInst) (f : Fir Word) (h : i ≠ j) :
    (s.setFir i f).fir j = s.fir j := by
  cases i <;> cases j <;> first | rfl | exact absurd rfl h

@[simp] theorem State.setFir_self (i : RealInst) : s.setFir i (s.fir i) = s := by cases i <;> rfl

@[simp] theorem State.setFir_setFir (i : RealInst) (f g : Fir Word) :
    (s.setFir i f).setFir i g = s.setFir i g := by
  cases i <;> rfl

@[simp] theorem State.setFir_au (f : Fir Word) : s.setFir .au f = { s with au := f } := rfl
@[simp] theorem State.setFir_rb (f : Fir Word) : s.setFir .rb f = { s with rb := f } := rfl
@[simp] theorem State.setFir_rl (f : Fir Word) : s.setFir .rl f = { s with rl := f } := rfl
@[simp] theorem State.fir_au : s.fir .au = s.au := rfl
@[simp] theorem State.fir_rb : s.fir .rb = s.rb := rfl
@[simp] theorem State.fir_rl : s.fir .rl = s.rl := rfl

end

/-! ### `Fir.reset` -/

section

variable {α : Type} (f : Fir α)

@[simp] theorem Fir.reset_t : f.reset.t = f.t := rfl
@[simp] theorem Fir.reset_d : f.reset.d = f.d := rfl
@[simp] theorem Fir.reset_taps : f.reset.taps = f.taps := rfl
@[simp] theorem Fir.reset_phase : f.reset.phase = 0 := rfl
@[simp] theorem Fir.reset_wptr : f.reset.wptr = 0 := rfl
@[simp] theorem Fir.reset_dl : f.reset.dl = [] := rfl

end

end Sys2Proof.Machine
end

