-- ==== Sys2Proof/Laws/Ops.lean ====
section
/-! SUPPORT. What each shared operation of Machine/Ops.lean can do, said once: the frame of a command,
the monad's equations, the f32 operations with drawn NaNs, and the loops. -/

namespace Sys2Proof.Machine

open Sys2Proof

/-! ## Commands -/

theorem command_legal (len : Nat) (body : State → State) (s : State) :
    command true len body s = .next ((body s).advance len) := rfl

theorem command_illegal (len : Nat) (body : State → State) (s : State) :
    command false len body s = .next ((s.raise .illegal).advance len) := rfl

/-- A command always answers a next state. -/
theorem command_next (legal : Bool) (len : Nat) (body : State → State) (s t : State)
    (h : command legal len body s = .next t) :
    (legal = true ∧ t = (body s).advance len) ∨
      (legal = false ∧ t = (s.raise .illegal).advance len) := by
  cases legal
  · exact .inr ⟨rfl, (Host.Outcome.next.inj h).symm⟩
  · exact .inl ⟨rfl, (Host.Outcome.next.inj h).symm⟩

/-! ## The monad -/

section

variable {α β : Type}

@[simp] theorem bind_apply (m : M α) (f : α → M β) (s : State) :
    (m >>= f) s = f (m s).1 (m s).2 := rfl

@[simp] theorem pure_apply (a : α) (s : State) : (pure a : M α) s = (a, s) := rfl

@[simp] theorem get_apply (s : State) : (get : M State) s = (s, s) := rfl

@[simp] theorem set_apply (t s : State) : (set t : M PUnit) s = (⟨⟩, t) := rfl

@[simp] theorem modify_apply (f : State → State) (s : State) :
    (modify f : M PUnit) s = (⟨⟩, f s) := rfl

end

/-! ## NaN draws -/

/-- R11: a drawn word is a quiet NaN, and the draw only counts. -/
theorem drawNaN_eq (s : State) :
    drawNaN s =
      (F32.quietNaN (Config.nanBits s.nanDraws), { s with nanDraws := s.nanDraws + 1 }) := rfl

theorem quietNaN_getLsbD (bits : BitVec 23) (i : Nat) (h1 : 22 ≤ i) (h2 : i < 31) :
    (F32.quietNaN bits).getLsbD i = true := by
  show BitVec.getLsbD ((bits.extractLsb' 22 1 ++ 0x1FF#9) ++ bits.extractLsb' 0 22) i = true
  rw [BitVec.getLsbD_append, if_neg (by omega), BitVec.getLsbD_append, if_pos (by omega)]
  interval_cases i <;> rfl

theorem quietNaN_isQuietNaN (bits : BitVec 23) : IsQuietNaN (F32.quietNaN bits) := by
  refine ⟨?_, quietNaN_getLsbD bits 22 (by omega) (by omega)⟩
  have h : (F32.quietNaN bits).extractLsb' 23 8 = 0xFF#8 := by
    apply BitVec.eq_of_getLsbD_eq
    intro i hi
    rw [BitVec.getLsbD_extractLsb', decide_eq_true hi, Bool.true_and,
      quietNaN_getLsbD bits _ (by omega) (by omega)]
    interval_cases i <;> rfl
  rw [F32.expo, h]
  rfl

/-- R10, R11: an operation with a value gives it and draws nothing. -/
theorem orNaN_some (w : Word) (s : State) : orNaN (some w) s = (w, s) := rfl

/-- R10, R11: what the result of an operation may be; nothing but the draw count changes. -/
theorem orNaN_spec (r : Option Word) (s : State) :
    ∃ w n, orNaN r s = (w, { s with nanDraws := n }) ∧ Res r w := by
  cases r with
  | none => exact ⟨_, _, rfl, quietNaN_isQuietNaN _⟩
  | some w => exact ⟨w, s.nanDraws, rfl, rfl⟩

theorem fadd_spec (a b : Word) (s : State) :
    ∃ w n, fadd a b s = (w, { s with nanDraws := n }) ∧ Res (F32.add a b) w := orNaN_spec _ s

theorem fsub_spec (a b : Word) (s : State) :
    ∃ w n, fsub a b s = (w, { s with nanDraws := n }) ∧ Res (F32.sub a b) w := orNaN_spec _ s

theorem fmul_spec (a b : Word) (s : State) :
    ∃ w n, fmul a b s = (w, { s with nanDraws := n }) ∧ Res (F32.mul a b) w := orNaN_spec _ s

theorem fdiv_spec (a b : Word) (s : State) :
    ∃ w n, fdiv a b s = (w, { s with nanDraws := n }) ∧ Res (F32.div a b) w := orNaN_spec _ s

/-! ## Loops -/

section

variable {α β : Type}

@[simp] theorem forEach_nil (f : α → M Unit) (s : State) : forEach f [] s = (⟨⟩, s) := rfl

@[simp] theorem forEach_cons (f : α → M Unit) (x : α) (xs : List α) (s : State) :
    forEach f (x :: xs) s = forEach f xs (f x s).2 := rfl

theorem forEach_append (f : α → M Unit) (xs ys : List α) (s : State) :
    forEach f (xs ++ ys) s = forEach f ys (forEach f xs s).2 := by
  induction xs generalizing s with
  | nil => rfl
  | cons x xs ih => exact ih _

@[simp] theorem mapEach_nil (f : α → M β) (s : State) : mapEach f [] s = ([], s) := rfl

@[simp] theorem mapEach_cons (f : α → M β) (x : α) (xs : List α) (s : State) :
    mapEach f (x :: xs) s =
      ((f x s).1 :: (mapEach f xs (f x s).2).1, (mapEach f xs (f x s).2).2) := rfl

@[simp] theorem keepOutputs_nil (stp : α → M (Option β)) (keep : Nat → Bool) (m : Nat)
    (s : State) : keepOutputs stp keep [] m s = ([], s) := rfl

theorem keepOutputs_cons (stp : α → M (Option β)) (keep : Nat → Bool) (x : α) (xs : List α)
    (m : Nat) (s : State) :
    keepOutputs stp keep (x :: xs) m s =
      match (stp x s).1 with
      | some y =>
        if keep m then
          (y :: (keepOutputs stp keep xs (m + 1) (stp x s).2).1,
            (keepOutputs stp keep xs (m + 1) (stp x s).2).2)
        else keepOutputs stp keep xs m (stp x s).2
      | none => keepOutputs stp keep xs m (stp x s).2 := by
  rw [keepOutputs, bind_apply]
  cases (stp x s).1 with
  | none => rfl
  | some y =>
    dsimp only
    cases keep m <;> rfl

/-- A relation every step keeps, kept by a whole loop: the frame of a loop is that of its body. -/
theorem forEach_keeps (R : State → State → Prop) (hrefl : ∀ s, R s s)
    (htrans : ∀ s t u, R s t → R t u → R s u) (f : α → M Unit)
    (hf : ∀ x s, R s (f x s).2) (xs : List α) (s : State) : R s (forEach f xs s).2 := by
  induction xs generalizing s with
  | nil => exact hrefl s
  | cons x xs ih => exact htrans _ _ _ (hf x s) (ih _)

theorem mapEach_keeps (R : State → State → Prop) (hrefl : ∀ s, R s s)
    (htrans : ∀ s t u, R s t → R t u → R s u) (f : α → M β)
    (hf : ∀ x s, R s (f x s).2) (xs : List α) (s : State) : R s (mapEach f xs s).2 := by
  induction xs generalizing s with
  | nil => exact hrefl s
  | cons x xs ih => exact htrans _ _ _ (hf x s) (ih _)

theorem keepOutputs_keeps (R : State → State → Prop) (hrefl : ∀ s, R s s)
    (htrans : ∀ s t u, R s t → R t u → R s u) (stp : α → M (Option β)) (keep : Nat → Bool)
    (hf : ∀ x s, R s (stp x s).2) (xs : List α) (m : Nat) (s : State) :
    R s (keepOutputs stp keep xs m s).2 := by
  induction xs generalizing m s with
  | nil => exact hrefl s
  | cons x xs ih =>
    rw [keepOutputs_cons]
    cases (stp x s).1 with
    | none => exact htrans _ _ _ (hf x s) (ih _ _)
    | some y =>
      dsimp only
      split
      · exact htrans _ _ _ (hf x s) (ih _ _)
      · exact htrans _ _ _ (hf x s) (ih _ _)

/-- No more outputs are kept than there are inputs (R213). -/
theorem keepOutputs_length_le (stp : α → M (Option β)) (keep : Nat → Bool) (xs : List α) (m : Nat)
    (s : State) : (keepOutputs stp keep xs m s).1.length ≤ xs.length := by
  induction xs generalizing m s with
  | nil => exact le_refl _
  | cons x xs ih =>
    rw [keepOutputs_cons]
    cases (stp x s).1 with
    | none => exact Nat.le_succ_of_le (ih _ _)
    | some y =>
      dsimp only
      split
      · exact Nat.succ_le_succ (ih _ _)
      · exact Nat.le_succ_of_le (ih _ _)

theorem mapEach_length (f : α → M β) (xs : List α) (s : State) :
    (mapEach f xs s).1.length = xs.length := by
  induction xs generalizing s with
  | nil => rfl
  | cons x xs ih => simp [ih]

end

end Sys2Proof.Machine
end

