-- ==== Sys2Proof/Laws/Fir.lean ====
section
/-! SUPPORT. What one step of a FIR engine does (40_fir.md R201 to R204): the window shifts by one
sample, the engine stays legal, and an output is the inner product of taps and window. -/

namespace Sys2Proof.Machine

open Sys2Proof

section

variable {α : Type} [DecidableEq α] {zero : α} {f : Fir α}

@[simp] theorem Fir.insert_t (x : α) : (f.insert zero x).t = f.t := rfl
@[simp] theorem Fir.insert_d (x : α) : (f.insert zero x).d = f.d := rfl
@[simp] theorem Fir.insert_taps (x : α) : (f.insert zero x).taps = f.taps := rfl
@[simp] theorem Fir.insert_dl (x : α) :
    (f.insert zero x).dl = Memory.write zero f.dl f.wptr.toNat x := rfl

/-- R201: the cursor moves on by one, modulo T. -/
theorem Fir.insert_cursor (h : FirOk zero f) (x : α) :
    (f.insert zero x).wptr.toNat = (f.wptr.toNat + 1) % f.t.toNat := by
  have h1 : f.wptr.toNat < f.t.toNat := h.cursor
  have h2 : (f.wptr.toNat + 1) % f.t.toNat < f.t.toNat := Nat.mod_lt _ (by omega)
  have h3 := f.t.isLt
  rw [Fir.insert, BitVec.toNat_ofNat, Nat.mod_eq_of_lt (by omega)]

/-- R201, R202: an output is due exactly when the phase reaches D, and the phase then wraps. -/
theorem Fir.insert_phase (h : FirOk zero f) (x : α) :
    (f.due = true ∧ f.phase.toNat + 1 = f.d.toNat ∧ (f.insert zero x).phase.toNat = 0) ∨
      (f.due = false ∧ f.phase.toNat + 1 < f.d.toNat ∧
        (f.insert zero x).phase.toNat = f.phase.toNat + 1) := by
  have h1 := h.phase
  have h2 := f.d.isLt
  have hp : (f.phase + 1).toNat = f.phase.toNat + 1 := by
    rw [BitVec.toNat_add, show (1 : BitVec 16).toNat = 1 from rfl]
    omega
  by_cases hd : f.phase + 1 = f.d
  · have hdue : f.due = true := beq_iff_eq.2 hd
    refine .inl ⟨hdue, by rw [← hp, hd], ?_⟩
    rw [Fir.insert, hdue]
    rfl
  · have hdue : f.due = false := beq_eq_false_iff_ne.2 hd
    have : f.phase.toNat + 1 ≠ f.d.toNat := by
      rw [← hp]
      exact fun h => hd (BitVec.eq_of_toNat_eq h)
    refine .inr ⟨hdue, by omega, ?_⟩
    rw [Fir.insert, hdue]
    exact hp

/-- R200: a step keeps the engine legal. -/
theorem Fir.insert_ok (h : FirOk zero f) (x : α) : FirOk zero (f.insert zero x) where
  odd := by rw [Fir.insert_t]; exact h.odd
  tmax := by rw [Fir.insert_t]; exact h.tmax
  dpos := by rw [Fir.insert_d]; exact h.dpos
  cursor := by
    have h1 := h.cursor
    rw [Fir.insert_cursor h, Fir.insert_t]
    exact Nat.mod_lt _ (by omega)
  phase := by
    have h1 := h.dpos
    rw [Fir.insert_d]
    rcases Fir.insert_phase h x with ⟨_, _, hp⟩ | ⟨_, hd, hp⟩ <;> omega
  tapsWf := by rw [Fir.insert_taps]; exact h.tapsWf
  tapsBelow := by rw [Fir.insert_taps]; exact h.tapsBelow
  dlWf := by rw [Fir.insert_dl]; exact Memory.write_wf zero _ _ _ h.dlWf
  dlBelow := by
    rw [Fir.insert_dl, Fir.insert_t]
    exact Memory.write_below zero _ _ _ _ h.cursor h.dlBelow

/-- A reset engine is legal (R208). -/
theorem Fir.reset_ok (h : FirOk zero f) : FirOk zero f.reset where
  odd := h.odd
  tmax := h.tmax
  dpos := h.dpos
  cursor := by
    have := h.cursor
    rw [Fir.reset_wptr, Fir.reset_t, show (0 : BitVec 16).toNat = 0 from rfl]
    omega
  phase := by
    have := h.dpos
    rw [Fir.reset_phase, Fir.reset_d, show (0 : BitVec 16).toNat = 0 from rfl]
    omega
  tapsWf := h.tapsWf
  tapsBelow := h.tapsBelow
  dlWf := rfl
  dlBelow := rfl

omit [DecidableEq α] in
@[simp] theorem firWindow_length : (firWindow zero f).length = f.t.toNat := by
  simp [firWindow]

omit [DecidableEq α] in
@[simp] theorem firTaps_length : (firTaps f).length = f.t.toNat := by
  simp [firTaps]

@[simp] theorem Fir.insert_firTaps (x : α) : firTaps (f.insert zero x) = firTaps f := by
  simp [firTaps, Fir.tap]

/-- R201: the window drops its oldest sample and takes the input as its newest. -/
theorem Fir.insert_window (h : FirOk zero f) (x : α) :
    firWindow zero (f.insert zero x) = (firWindow zero f).drop 1 ++ [x] := by
  have hw := h.cursor
  apply List.ext_getElem
  · simp only [firWindow_length, Fir.insert_t, List.length_append, List.length_drop,
      List.length_singleton]
    omega
  · intro k hk _
    simp only [firWindow_length, Fir.insert_t] at hk
    simp only [firWindow, List.getElem_map, List.getElem_range, Fir.sample, Fir.insert_t,
      Fir.insert_cursor h, Fir.insert_dl, List.getElem_append, List.length_drop, List.length_map,
      List.length_range, List.getElem_drop]
    have hmod : ((f.wptr.toNat + 1) % f.t.toNat + k) % f.t.toNat
        = (f.wptr.toNat + (1 + k)) % f.t.toNat := by
      rw [Nat.mod_add_mod, Nat.add_assoc]
    rw [hmod]
    by_cases hlast : k < f.t.toNat - 1
    · rw [dif_pos hlast, Memory.read_write_other]
      by_cases hwrap : f.wptr.toNat + (1 + k) < f.t.toNat
      · rw [Nat.mod_eq_of_lt hwrap]
        omega
      · rw [Nat.mod_eq_sub_mod (by omega), Nat.mod_eq_of_lt (by omega)]
        omega
    · have hk' : k = f.t.toNat - 1 := by omega
      have : (f.wptr.toNat + (1 + k)) % f.t.toNat = f.wptr.toNat := by
        rw [hk', show f.wptr.toNat + (1 + (f.t.toNat - 1)) = f.wptr.toNat + f.t.toNat by omega,
          Nat.add_mod_right, Nat.mod_eq_of_lt hw]
      rw [dif_neg hlast, this, Memory.read_write_same zero _ _ _ h.dlWf]
      simp

/-! ## Whole runs -/

/-- R200, R201: an engine fed nothing. -/
theorem FirRun.nil (dot : List (Word × α) → α → Prop) (h : FirOk zero f) :
    FirRun zero dot f [] [] f where
  count := by simp [Nat.div_eq_of_lt h.phase]
  outputs := by intro j y hy; cases hy
  t := rfl
  d := rfl
  taps := rfl
  phase := by rw [List.length_nil, Nat.add_zero, Nat.mod_eq_of_lt h.phase]
  cursor := by rw [List.length_nil, Nat.add_zero, Nat.mod_eq_of_lt h.cursor]
  window := by simp

/-- R201: the samples before and after an input, from any point after the oldest on. -/
theorem Fir.window_cons (h : FirOk zero f) (x : α) (xs : List α) (n : Nat) (hn : 1 ≤ n) :
    (firWindow zero f ++ x :: xs).drop n = (firWindow zero (f.insert zero x) ++ xs).drop (n - 1) := by
  have h1 : 1 ≤ (firWindow zero f).length := by rw [firWindow_length]; have := h.cursor; omega
  rw [Fir.insert_window h, List.append_assoc, List.singleton_append, ← List.drop_append_of_le_length h1, List.drop_drop]
  congr 1; omega

/-- R201 to R205: one input more at the front, with its output where one is due. -/
theorem FirRun.cons {dot : List (Word × α) → α → Prop} (h : FirOk zero f) (x : α) {xs ys : List α}
    {f' : Fir α} (r : FirRun zero dot (f.insert zero x) xs ys f') :
    (f.due = false → FirRun zero dot f (x :: xs) ys f') ∧
      (f.due = true → ∀ y, dot ((firTaps f).zip (firWindow zero (f.insert zero x))) y →
        FirRun zero dot f (x :: xs) (y :: ys) f') := by
  have hc := r.cursor
  rw [Fir.insert_cursor h, Fir.insert_t, Nat.mod_add_mod] at hc
  have hw := r.window
  have hph := r.phase
  have hcn := r.count
  have hd := h.dpos
  rw [Fir.insert_d] at hph hcn
  have hwin : firWindow zero f' = (firWindow zero f ++ x :: xs).drop (x :: xs).length := by
    rw [hw, Fir.window_cons h x xs _ (by simp)]; simp
  rcases Fir.insert_phase h x with ⟨hdue, hp, hp'⟩ | ⟨hdue, hp, hp'⟩
  · refine ⟨fun h' => absurd (hdue.symm.trans h') (by decide), fun _ y hy => ?_⟩
    rw [hp'] at hph hcn
    refine ⟨?_, ?_, r.t, r.d, r.taps, ?_, ?_, hwin⟩
    · rw [List.length_cons, List.length_cons, hcn, Nat.zero_add,
        show f.phase.toNat + (xs.length + 1) = xs.length + f.d.toNat by omega, Nat.add_div_right _ (by omega)]
    · intro j z hz
      have hlen := h.phase
      cases j with
      | zero =>
        simp only [List.getElem?_cons_zero, Option.some.injEq] at hz
        subst hz
        have e : (0 + 1) * f.d.toNat - f.phase.toNat = 1 := by omega
        rw [e, Fir.window_cons h x xs 1 (le_refl _), Nat.sub_self, List.drop_zero,
          List.take_left' (by rw [firWindow_length, Fir.insert_t])]
        exact hy
      | succ j =>
        simp only [List.getElem?_cons_succ] at hz
        have := r.outputs j z hz
        rw [hp', Fir.insert_d, Fir.insert_t, Fir.insert_firTaps] at this
        have e2 : (j + 1 + 1) * f.d.toNat = (j + 1) * f.d.toNat + f.d.toNat := by ring
        have e3 : f.d.toNat ≤ (j + 1) * f.d.toNat := Nat.le_mul_of_pos_left _ (by omega)
        rw [Fir.window_cons h x xs _ (by omega)]
        rwa [show (j + 1 + 1) * f.d.toNat - f.phase.toNat - 1 = (j + 1) * f.d.toNat - 0 by omega]
    · rw [hph, List.length_cons, show f.phase.toNat + (xs.length + 1) = 0 + xs.length + f.d.toNat by omega, Nat.add_mod_right]
    · rw [hc, List.length_cons]; congr 1; omega
  · refine ⟨fun _ => ?_, fun h' => absurd (hdue.symm.trans h') (by decide)⟩
    rw [hp'] at hph hcn
    refine ⟨?_, ?_, r.t, r.d, r.taps, ?_, ?_, hwin⟩
    · rw [hcn, List.length_cons]; congr 1; omega
    · intro j z hz
      have := r.outputs j z hz
      rw [hp', Fir.insert_d, Fir.insert_t, Fir.insert_firTaps] at this
      have e3 : f.d.toNat ≤ (j + 1) * f.d.toNat := Nat.le_mul_of_pos_left _ (by omega)
      rw [Fir.window_cons h x xs _ (by omega)]
      rwa [show (j + 1) * f.d.toNat - f.phase.toNat - 1 = (j + 1) * f.d.toNat - (f.phase.toNat + 1) by omega]
    · rw [hph, List.length_cons]; congr 1; omega
    · rw [hc, List.length_cons]; congr 1; omega
end

/-! ## Outputs -/

/-- R203: the accumulation over any list of tap numbers, from any accumulator. -/
theorem accumulateR_spec (f : Fir Word) (ks : List Nat) (acc : Word) (s : State) :
    ∃ y n, accumulateR f ks acc s = (y, { s with nanDraws := n }) ∧
      Dot (ks.map fun k => (f.tap k, f.sample F32.posZero k)) acc y := by
  induction ks generalizing acc s with
  | nil => exact ⟨acc, s.nanDraws, rfl, rfl⟩
  | cons k ks ih =>
    obtain ⟨p, n1, hp, rp⟩ := fmul_spec (f.tap k) (f.sample F32.posZero k) s
    obtain ⟨a, n2, ha, ra⟩ := fadd_spec acc p { s with nanDraws := n1 }
    obtain ⟨y, n, hy, ry⟩ := ih a { s with nanDraws := n2 }
    refine ⟨y, n, ?_, p, a, rp, ra, ry⟩
    rw [accumulateR, bind_apply, hp, bind_apply, ha]
    exact hy

theorem zip_taps_window {α : Type} (zero : α) (f : Fir α) :
    (firTaps f).zip (firWindow zero f)
      = (List.range f.t.toNat).map fun k => (f.tap k, f.sample zero k) := by
  rw [firTaps, firWindow, List.zip_map']

/-- R203: a real output is the inner product of taps and window; only NaN draws change the state. -/
theorem firDotR_spec (f : Fir Word) (s : State) :
    ∃ y n, firDotR f s = (y, { s with nanDraws := n }) ∧
      DotReal ((firTaps f).zip (firWindow F32.posZero f)) y := by
  rw [zip_taps_window]
  exact accumulateR_spec f _ _ s

/-- R204: the two accumulations over any list of tap numbers. -/
theorem accumulateC_spec (f : Fir Cplx) (ks : List Nat) (acc : Cplx) (s : State) :
    ∃ y n, accumulateC f ks acc s = (y, { s with nanDraws := n }) ∧
      Dot (ks.map fun k => (f.tap k, (f.sample cplxZero k).re)) acc.re y.re ∧
      Dot (ks.map fun k => (f.tap k, (f.sample cplxZero k).im)) acc.im y.im := by
  induction ks generalizing acc s with
  | nil => exact ⟨acc, s.nanDraws, rfl, rfl, rfl⟩
  | cons k ks ih =>
    obtain ⟨p, n1, hp, rp⟩ := fmul_spec (f.tap k) (f.sample cplxZero k).re s
    obtain ⟨a, n2, ha, ra⟩ := fadd_spec acc.re p { s with nanDraws := n1 }
    obtain ⟨q, n3, hq, rq⟩ := fmul_spec (f.tap k) (f.sample cplxZero k).im
      { s with nanDraws := n2 }
    obtain ⟨b, n4, hb, rb⟩ := fadd_spec acc.im q { s with nanDraws := n3 }
    obtain ⟨y, n, hy, ry, ry'⟩ := ih ⟨a, b⟩ { s with nanDraws := n4 }
    refine ⟨y, n, ?_, ⟨p, a, rp, ra, ry⟩, ⟨q, b, rq, rb, ry'⟩⟩
    rw [accumulateC, bind_apply, hp, bind_apply, ha, bind_apply, hq, bind_apply, hb]
    exact hy

/-- R204: a complex output is the two inner products of taps and window. -/
theorem firDotC_spec (f : Fir Cplx) (s : State) :
    ∃ y n, firDotC f s = (y, { s with nanDraws := n }) ∧
      DotCplx ((firTaps f).zip (firWindow cplxZero f)) y := by
  obtain ⟨y, n, hy, hr, hi⟩ := accumulateC_spec f (List.range f.t.toNat) cplxZero s
  refine ⟨y, n, hy, ?_, ?_⟩ <;> rw [zip_taps_window, List.map_map]
  · exact hr
  · exact hi

/-- R201: one step of a real engine: the engine takes the input, and where an output is due it is
the inner product over the new window. -/
theorem firStepR_spec (i : RealInst) (x : Word) (s : State) :
    ∃ r n, firStepR i x s
        = (r, { s.setFir i ((s.fir i).insert F32.posZero x) with nanDraws := n }) ∧
      ((s.fir i).due = false → r = none) ∧
      ((s.fir i).due = true → ∃ y, r = some y ∧
        DotReal ((firTaps (s.fir i)).zip
          (firWindow F32.posZero ((s.fir i).insert F32.posZero x))) y) := by
  obtain ⟨y, n, hy, ry⟩ := firDotR_spec ((s.fir i).insert F32.posZero x)
    (s.setFir i ((s.fir i).insert F32.posZero x))
  rw [Fir.insert_firTaps] at ry
  cases hd : (s.fir i).due with
  | false =>
    refine ⟨none, s.nanDraws, ?_, fun _ => rfl, fun h => nomatch h⟩
    simp only [firStepR, bind_apply, get_apply, set_apply, hd]
    cases i <;> rfl
  | true =>
    refine ⟨some y, n, ?_, fun h => (nomatch h), fun _ => ⟨y, rfl, ry⟩⟩
    simp only [firStepR, bind_apply, get_apply, set_apply, hd, if_true, pure_apply, hy]

/-- R201: one step of the complex engine. -/
theorem firStepC_spec (x : Cplx) (s : State) :
    ∃ r n, firStepC x s
        = (r, { s with ch := s.ch.insert cplxZero x, nanDraws := n }) ∧
      (s.ch.due = false → r = none) ∧
      (s.ch.due = true → ∃ y, r = some y ∧
        DotCplx ((firTaps s.ch).zip (firWindow cplxZero (s.ch.insert cplxZero x))) y) := by
  obtain ⟨y, n, hy, ry⟩ := firDotC_spec (s.ch.insert cplxZero x)
    { s with ch := s.ch.insert cplxZero x }
  rw [Fir.insert_firTaps] at ry
  cases hd : s.ch.due with
  | false =>
    refine ⟨none, s.nanDraws, ?_, fun _ => rfl, fun h => nomatch h⟩
    simp only [firStepC, bind_apply, get_apply, set_apply, hd]
    rfl
  | true =>
    refine ⟨some y, n, ?_, fun h => (nomatch h), fun _ => ⟨y, rfl, ry⟩⟩
    simp only [firStepC, bind_apply, get_apply, set_apply, hd, if_true, pure_apply, hy]

@[simp] theorem fir_setFir_draws (s : State) (i : RealInst) (f : Fir Word) (n : Nat) :
    ({ s.setFir i f with nanDraws := n } : State).fir i = f := by
  cases i <;> rfl

end Sys2Proof.Machine
end

