-- ==== Sys2Proof/Laws/Units.lean ====
section
/-! SUPPORT. What one step of each of the other units does: the value it gives, as the relations of
Safety.lean say it, and the state it leaves, as one record update. -/

namespace Sys2Proof.Machine

open Sys2Proof

/-! ## NCO and mixer (41_nco_mixer.md) -/

theorem wrapPhase_spec (p : Word) (s : State) :
    ∃ p' n, wrapPhase p s = (p', { s with nanDraws := n }) ∧
      if F32.ge p Config.TWO_PI_F32 then Res (F32.sub p Config.TWO_PI_F32) p'
      else if F32.lt p F32.posZero then Res (F32.add p Config.TWO_PI_F32) p'
      else p' = p := by
  unfold wrapPhase
  split
  · exact fsub_spec _ _ s
  · split
    · exact fadd_spec _ _ s
    · exact ⟨p, s.nanDraws, rfl, rfl⟩

/-- R251: the sample at the phase before, and the advanced phase. -/
theorem ncoNext_spec (s : State) :
    ∃ p n, ncoNext s = (conjSample s.ncoPhase, { s with ncoPhase := p, nanDraws := n }) ∧
      PhaseNext s.ncoInc s.ncoPhase p := by
  obtain ⟨p, n, hp, rp⟩ := fadd_spec s.ncoPhase s.ncoInc s
  obtain ⟨p', n', hp', rp'⟩ := wrapPhase_spec p { s with nanDraws := n }
  refine ⟨p', n', ?_, p, rp, rp'⟩
  simp only [ncoNext, bind_apply, get_apply, modify_apply, pure_apply, hp, hp']

/-- R253. -/
theorem mixSample_spec (x c : Cplx) (s : State) :
    ∃ y n, mixSample x c s = (y, { s with nanDraws := n }) ∧ MixResult x c y := by
  obtain ⟨rr, n1, h1, r1⟩ := fmul_spec x.re c.re s
  obtain ⟨ii, n2, h2, r2⟩ := fmul_spec x.im c.im { s with nanDraws := n1 }
  obtain ⟨re, n3, h3, r3⟩ := fsub_spec rr ii { s with nanDraws := n2 }
  obtain ⟨ri, n4, h4, r4⟩ := fmul_spec x.re c.im { s with nanDraws := n3 }
  obtain ⟨ir, n5, h5, r5⟩ := fmul_spec x.im c.re { s with nanDraws := n4 }
  obtain ⟨im, n6, h6, r6⟩ := fadd_spec ri ir { s with nanDraws := n5 }
  refine ⟨⟨re, im⟩, n6, ?_, rr, ii, ri, ir, r1, r2, r3, r4, r5, r6⟩
  rw [mixSample, bind_apply, h1, bind_apply, h2, bind_apply, h3, bind_apply, h4, bind_apply, h5,
    bind_apply, h6]
  rfl

/-- R370. -/
theorem mixReal_spec (b : Word) (c : Cplx) (s : State) :
    ∃ r n, mixReal b c s = (r, { s with nanDraws := n }) ∧ MixRealResult b c r := by
  obtain ⟨rr, n1, h1, r1⟩ := fmul_spec b c.re s
  obtain ⟨ii, n2, h2, r2⟩ := fmul_spec F32.posZero c.im { s with nanDraws := n1 }
  obtain ⟨r, n3, h3, r3⟩ := fsub_spec rr ii { s with nanDraws := n2 }
  refine ⟨r, n3, ?_, rr, ii, r1, r2, r3⟩
  rw [mixReal, bind_apply, h1, bind_apply, h2]
  exact h3

/-! ## Demodulator (42_input_demod.md) -/

theorem discriminate_spec (p x : Cplx) (s : State) :
    ∃ y n, discriminate p x s = (y, { s with nanDraws := n }) ∧ FmdResult (some p) x y := by
  obtain ⟨rr, n1, h1, r1⟩ := fmul_spec p.re x.re s
  obtain ⟨ii, n2, h2, r2⟩ := fmul_spec p.im x.im { s with nanDraws := n1 }
  obtain ⟨re, n3, h3, r3⟩ := fadd_spec rr ii { s with nanDraws := n2 }
  obtain ⟨ri, n4, h4, r4⟩ := fmul_spec p.re x.im { s with nanDraws := n3 }
  obtain ⟨ir, n5, h5, r5⟩ := fmul_spec p.im x.re { s with nanDraws := n4 }
  obtain ⟨im, n6, h6, r6⟩ := fsub_spec ri ir { s with nanDraws := n5 }
  refine ⟨Config.fatan2 im re, n6, ?_, rr, ii, re, ri, ir, im, r1, r2, r3, r4, r5, r6, rfl⟩
  rw [discriminate, bind_apply, h1, bind_apply, h2, bind_apply, h3, bind_apply, h4, bind_apply, h5,
    bind_apply, h6]
  rfl

/-- R292. -/
theorem fmdStep_spec (x : Cplx) (s : State) :
    ∃ y n, fmdStep x s = (y, { s with
        fmdPrevI := x.re, fmdPrevQ := x.im, fmdHasPrev := true, nanDraws := n }) ∧
      FmdResult s.fmdPrev x y := by
  have hout : ∃ y n, fmdOutput s x s = (y, { s with nanDraws := n }) ∧ FmdResult s.fmdPrev x y := by
    unfold fmdOutput State.fmdPrev
    split
    · exact discriminate_spec _ _ s
    · exact ⟨F32.posZero, s.nanDraws, rfl, rfl⟩
  obtain ⟨y, n, hy, ry⟩ := hout
  refine ⟨y, n, ?_, ry⟩
  simp only [fmdStep, bind_apply, get_apply, modify_apply, pure_apply, hy]

/-! ## Audio resampler (43_audio.md) -/

/-- R330. -/
theorem deemph_spec (x : Word) (s : State) :
    ∃ y n, deemph x s = (y, { s with deemphY := y, nanDraws := n }) ∧
      DeemphNext s.deemphA x s.deemphY y := by
  obtain ⟨d, n1, h1, r1⟩ := fsub_spec x s.deemphY s
  obtain ⟨m, n2, h2, r2⟩ := fmul_spec s.deemphA d { s with nanDraws := n1 }
  obtain ⟨y, n3, h3, r3⟩ := fadd_spec s.deemphY m { s with nanDraws := n2 }
  refine ⟨y, n3, ?_, d, m, r1, r2, r3⟩
  rw [deemph, bind_apply, get_apply, bind_apply, h1, bind_apply, h2, bind_apply, h3]
  rfl

/-- R331. -/
theorem quantize_spec (z : Word) (s : State) :
    ∃ q n, quantize z s = (q, { s with nanDraws := n }) ∧ QuantResult s.audGain z q := by
  obtain ⟨v, n1, h1, r1⟩ := fmul_spec z s.audGain s
  obtain ⟨m, n2, h2, r2⟩ := fmul_spec (clip v) Config.PCM_SCALE { s with nanDraws := n1 }
  refine ⟨F32.roundHalfAway m, n2, ?_, v, m, r1, r2, rfl⟩
  simp only [quantize, bind_apply, get_apply, pure_apply, h1, h2]

/-- R332: de-emphasis, one AU step, and the quantized output where AU gives one. -/
theorem audStep_spec (x : Word) (s : State) :
    ∃ y r n, audStep x s
        = (r, { s with deemphY := y, au := s.au.insert F32.posZero y, nanDraws := n }) ∧
      DeemphNext s.deemphA x s.deemphY y ∧
      (s.au.due = false → r = none) ∧
      (s.au.due = true → ∃ z q, r = some q ∧ QuantResult s.audGain z q ∧
        DotReal ((firTaps s.au).zip (firWindow F32.posZero (s.au.insert F32.posZero y))) z) := by
  obtain ⟨y, n1, h1, r1⟩ := deemph_spec x s
  obtain ⟨r, n2, h2, hnone, hsome⟩ := firStepR_spec .au y { s with deemphY := y, nanDraws := n1 }
  simp only [State.fir_au] at hnone hsome
  cases hd : s.au.due with
  | false =>
    refine ⟨y, none, n2, ?_, r1, fun _ => rfl, fun h => nomatch h⟩
    rw [audStep, bind_apply, h1, bind_apply, h2, hnone hd]
    rfl
  | true =>
    obtain ⟨z, hz, hdot⟩ := hsome hd
    obtain ⟨q, n3, h3, r3⟩ := quantize_spec z
      { s with deemphY := y, au := s.au.insert F32.posZero y, nanDraws := n2 }
    refine ⟨y, some q, n3, ?_, r1, fun h => (nomatch h), fun _ => ⟨z, q, rfl, r3, hdot⟩⟩
    rw [audStep, bind_apply, h1, bind_apply, h2, hz]
    simp only [bind_apply, pure_apply]
    exact congrArg (fun p : Int × State => (some p.1, p.2)) h3

/-! ## Chip slicer (44_rds_bits.md) -/

/-- R372: the accumulator after, and the chip, when one is taken, through the Manchester decoder. -/
theorem slice_spec (l : Word) (s : State) :
    ∃ acc taken n, (slice l s).2 =
        (if taken then manchester (chipOf l) { s with chipAcc := acc, nanDraws := n }
          else { s with chipAcc := acc, nanDraws := n }) ∧
      AccNext s.chipInc s.chipAcc acc taken := by
  obtain ⟨p, n1, h1, r1⟩ := fadd_spec s.chipAcc s.chipInc s
  cases hg : F32.ge p F32.one with
  | false =>
    refine ⟨p, false, n1, ?_, p, r1, hg.symm, rfl⟩
    simp only [slice, bind_apply, get_apply, h1, hg]
    rfl
  | true =>
    obtain ⟨acc, n2, h2, r2⟩ := fsub_spec p F32.one { s with nanDraws := n1 }
    refine ⟨acc, true, n2, ?_, p, r1, hg.symm, r2⟩
    simp only [slice, bind_apply, get_apply, modify_apply, h1, hg, if_true, h2]

end Sys2Proof.Machine
end

