-- ==== Sys2Proof/Laws/Commands.lean ====
section
/-! SUPPORT. What every meaning has in common, and what the parts of the control commands do
(47_control.md): each unit of RESET as one record update, and the address map. -/

namespace Sys2Proof.Machine

open Sys2Proof Sys2Proof.Laws

/-- The effect of each command on legal operands (for illegal ones it is not used). -/
def bodyOf : Instr → State → State
  | .nop _ _ => id
  | .reset sel _ => resetUnits sel
  | .regRead _ addr => regReadBody addr
  | .regWrite _ addr v => regWriteBody addr v
  | .firProcC _ cap xs => runM (firProcCBody cap xs)
  | .firProcR sel cap xs =>
    match realOfSel sel with
    | some i => runM (firProcRBody i cap xs)
    | none => id
  | .firReset sel _ =>
    match instOfSel sel with
    | some i => fun s => s.firReset i
    | none => id
  | .ncoSet _ _ fs f => runM (ncoSetBody fs f)
  | .ncoNext _ n => runM (ncoNextBody n.toNat)
  | .mix _ xs => runM (mixBody xs)
  | .convU8 _ ws => runM (convU8Body ws)
  | .fmdProc _ cap xs => runM (fmdProcBody cap xs)
  | .audProc _ cap xs => runM (audProcBody cap xs)
  | .rdsProc _ xs => runM (forEach rdsFront xs)
  | .rdsSlice _ xs => runM (forEach slice xs)
  | .rdsChip _ ws => rdsChipBody ws
  | .rdsBit _ ws => rdsBitBody ws
  | .crcSyn _ _ w => fun s =>
    s.emit (crcWord (classify (syndrome (operandWindow w))) (syndrome (operandWindow w)))
  | .rdsGroup _ _ a b c d =>
    groupDispatch (operandDatum a) (operandDatum b) (operandDatum c) (operandDatum d)
  | .chainU8 _ ws => runM (chainU8Body ws)

theorem encode_length (i : Instr) : (encode i).length = 1 + (instrPayload i).length :=
  Nat.add_comm _ _

/-- Every meaning is its effect in the frame of a command (R143, R560, R561). -/
theorem exec_command (i : Instr) (s : State) :
    exec i s = command i.legal (encode i).length (bodyOf i) s := by
  rw [encode_length]
  cases i with
  | nop sel imm => rfl
  | reset sel imm =>
    have : (sel.extractLsb' 5 3 == 0 && imm == 0) = (Instr.reset sel imm).legal := by
      simp only [Instr.legal]
      congr 1
      revert sel; decide +kernel
    show execReset sel imm s = _
    rw [execReset, this]; rfl
  | regRead sel imm => rfl
  | regWrite sel imm => rfl
  | firProcC sel cap xs =>
    rw [instrPayload, List.length_cons, flattenSamples_length, Nat.add_comm (2 * _) 1,
      ← Nat.add_assoc]
    rfl
  | firProcR sel cap xs =>
    have : (Instr.firProcR sel cap xs).legal = (realOfSel sel).isSome := by
      simp only [Instr.legal]; revert sel; decide +kernel
    rw [this, instrPayload, List.length_cons, Nat.add_comm _ 1, ← Nat.add_assoc]
    simp only [exec, execFirProcR, bodyOf]
    cases realOfSel sel <;> rfl
  | firReset sel imm =>
    have : (Instr.firReset sel imm).legal = ((instOfSel sel).isSome && imm == 0) := by
      simp only [Instr.legal]; congr 1; revert sel; decide +kernel
    rw [this]
    simp only [exec, execFirReset, bodyOf]
    cases instOfSel sel <;> rfl
  | ncoSet sel imm fs f => rfl
  | ncoNext sel n => rfl
  | mix sel xs => rw [instrPayload, flattenSamples_length]; rfl
  | convU8 sel ws => rfl
  | fmdProc sel cap xs =>
    rw [instrPayload, List.length_cons, flattenSamples_length, Nat.add_comm (2 * _) 1,
      ← Nat.add_assoc]
    rfl
  | audProc sel cap xs =>
    rw [instrPayload, List.length_cons, Nat.add_comm _ 1, ← Nat.add_assoc]
    rfl
  | rdsProc sel xs => rfl
  | rdsSlice sel xs => rfl
  | rdsChip sel xs => rfl
  | rdsBit sel xs => rfl
  | crcSyn sel imm w => rfl
  | rdsGroup sel imm a b c d => rfl
  | chainU8 sel ws => rfl

/-- What a command that answers a next state leaves. -/
theorem exec_next (i : Instr) (s t : State) (h : exec i s = .next t) :
    t = (if i.legal then bodyOf i s else s.raise .illegal).advance (encode i).length := by
  rw [exec_command] at h
  exact (Host.Outcome.next.inj h).symm

/-! ## The units of RESET (R511), by mask bit -/

theorem reset_unit0 (b : Bool) (s : State) : (if b then s.firReset .ch else s)
    = { s with ch := if b then { s.ch with dl := [], wptr := 0, phase := 0 } else s.ch } := by
  cases b <;> rfl

theorem reset_unit1 (b : Bool) (s : State) : (if b then s.resetFmd else s)
    = { s with
      fmdPrevI := if b then 0 else s.fmdPrevI
      fmdPrevQ := if b then 0 else s.fmdPrevQ
      fmdHasPrev := if b then false else s.fmdHasPrev } := by
  cases b <;> rfl

theorem reset_unit2 (b : Bool) (s : State) : (if b then s.resetAud else s)
    = { s with
      deemphY := if b then 0 else s.deemphY
      au := if b then { s.au with dl := [], wptr := 0, phase := 0 } else s.au } := by
  cases b <;> rfl

theorem reset_unit3 (b : Bool) (s : State) : (if b then s.resetRds else s)
    = { s with
      rb := if b then { s.rb with dl := [], wptr := 0, phase := 0 } else s.rb
      rl := if b then { s.rl with dl := [], wptr := 0, phase := 0 } else s.rl
      ncoPhase := if b then 0 else s.ncoPhase
      chipAcc := if b then 0 else s.chipAcc
      chipPend := if b then false else s.chipPend
      chip0 := if b then false else s.chip0
      prevBit := if b then false else s.prevBit
      shift := if b then 0 else s.shift
      bitcnt := if b then 0 else s.bitcnt
      haveSync := if b then false else s.haveSync
      slot := if b then 0 else s.slot
      group0 := if b then 0 else s.group0
      group1 := if b then 0 else s.group1
      group2 := if b then 0 else s.group2
      group3 := if b then 0 else s.group3 } := by
  cases b <;> rfl

theorem reset_unit4 (b : Bool) (s : State) : (if b then s.resetPs else s)
    = { s with
      psBuf0 := if b then 0x20202020#32 else s.psBuf0
      psBuf1 := if b then 0x20202020#32 else s.psBuf1
      psMask := if b then 0 else s.psMask
      psPub0 := if b then 0 else s.psPub0
      psPub1 := if b then 0 else s.psPub1
      psValid := if b then false else s.psValid
      psNew := if b then false else s.psNew } := by
  cases b <;> rfl

/-! ## The register space (10_state.md R42, 20_memory.md R102) -/

/-- A mapped address is a row of the table or a tap. -/
theorem regAt_cases (a : BitVec 16) (r : Reg) (h : regAt a = some r) :
    (a.toNat, r) ∈ regTable ∨ ∃ i k, r = .tap i k ∧ k < 1023 := by
  unfold regAt at h
  dsimp only at h
  split at h
  · left
    obtain ⟨row, h1, h2⟩ := Option.map_eq_some_iff.1 h
    have h3 := List.mem_of_find?_eq_some h1
    have h4 := List.find?_some h1
    obtain ⟨x, y⟩ := row
    simp at h2 h4
    subst h2 h4
    exact h3
  · split at h
    · right
      obtain ⟨i, h1, h2⟩ := Option.map_eq_some_iff.1 h
      rename_i hk
      exact ⟨i, _, h2.symm, hk⟩
    · cases h

/-- The address of a tap. -/
theorem regAt_tap (n k : Nat) (i : Inst) (hk : k < 1023) (hn : insts[n]? = some i) :
    regAt (BitVec.ofNat 16 (0x1000 + 0x1000 * n + k)) = some (.tap i k) := by
  have hn4 : n < 4 := by
    have := (List.getElem?_eq_some_iff.1 hn).1; simpa [insts] using this
  unfold regAt
  have : (BitVec.ofNat 16 (0x1000 + 0x1000 * n + k)).toNat = 0x1000 + 0x1000 * n + k := by
    rw [BitVec.toNat_ofNat]; omega
  dsimp only
  rw [this, if_neg (by omega), if_pos (by simp only [Config.TMAX]; omega)]
  have h1 : (0x1000 + 0x1000 * n + k) / 0x1000 - 1 = n := by omega
  have h2 : (0x1000 + 0x1000 * n + k) % 0x1000 = k := by omega
  rw [h1, h2, hn]; rfl

/-- R51, R565: the legal values of FIR_T. -/
theorem legalT_iff (v : Word) : legalT v = true ↔ v.toNat % 2 = 1 ∧ v.toNat ≤ 1023 := by
  have hv := v.isLt
  unfold legalT Config.TMAX
  simp only [Bool.and_eq_true, beq_iff_eq, decide_eq_true_eq]
  have e1 : v.extractLsb' 16 16 = 0 ↔ v.toNat / 65536 = 0 := by
    rw [← BitVec.toNat_inj, BitVec.extractLsb'_toNat, Nat.shiftRight_eq_div_pow]
    show v.toNat / 2^16 % 2^16 = 0 ↔ _
    omega
  have e2 : v.getLsbD 0 = true ↔ v.toNat % 2 = 1 := by
    rw [BitVec.getLsbD, Nat.testBit_zero]; simp
  rw [e1, e2]
  omega

/-- R51, R565: the legal values of FIR_D. -/
theorem legalD_iff (v : Word) : legalD v = true ↔ 1 ≤ v.toNat ∧ v.toNat ≤ 65535 := by
  have hv := v.isLt
  unfold legalD Config.DMAX
  simp only [Bool.and_eq_true, beq_iff_eq, bne_iff_ne, ne_eq, decide_eq_true_eq]
  have e1 : v.extractLsb' 16 16 = 0 ↔ v.toNat / 65536 = 0 := by
    rw [← BitVec.toNat_inj, BitVec.extractLsb'_toNat, Nat.shiftRight_eq_div_pow]
    show v.toNat / 2^16 % 2^16 = 0 ↔ _
    omega
  have e2 : v = 0 ↔ v.toNat = 0 := by rw [← BitVec.toNat_inj]; rfl
  rw [e1, e2]
  omega

theorem low16 (v : Word) : v.extractLsb' 0 16 = BitVec.ofNat 16 v.toNat := by
  apply BitVec.eq_of_toNat_eq
  simp [BitVec.extractLsb'_toNat]

theorem flag_toNat (b : Bool) : (BitVec.ofBool b).toNat = flagNat b := by cases b <;> rfl

/-- R44: the STATUS word as a number. -/
theorem statusWord_toNat (s : State) : s.statusWord.toNat = statusNat s := by
  have hirq : s.irq = ((s.ctrl.getLsbD 1 && s.psNew) || (s.ctrl.getLsbD 2 && decide (s.err ≠ 0))) := by
    unfold State.irq State.psIe State.errIe
    congr 2
    generalize s.err = e; revert e; decide
  unfold State.statusWord statusNat
  rw [← hirq]
  generalize s.irq = a
  generalize s.psNew = b
  generalize s.psValid = c
  generalize s.slot = d
  generalize s.haveSync = e
  revert a b c d e; decide

end Sys2Proof.Machine
end

