-- ==== Sys2Proof/Laws/F32.lean ====
section
/-! SUPPORT. The small lemmas of the binary32 patterns (00_scope.md R9 to R11): the classes of a pattern
exclude each other, flipping the sign bit negates the value and keeps the class, and an infinity
compares beyond every finite value. -/

namespace Sys2Proof.Machine.F32

open Sys2Proof

/-! ## The sign flip (R10, `fneg`) -/

@[simp] theorem sign_neg (a : Word) : sign (neg a) = !sign a := by
  rw [sign, neg, BitVec.getLsbD_xor]
  exact Bool.xor_true _

theorem extract_neg (a : Word) (lo n : Nat) (h : lo + n ≤ 31) :
    (neg a).extractLsb' lo n = a.extractLsb' lo n := by
  apply BitVec.eq_of_getLsbD_eq
  intro k hk
  have hz : (0x80000000#32).getLsbD (lo + k) = false := by
    have hb : lo + k < 31 := by omega
    generalize lo + k = m at hb
    interval_cases m <;> rfl
  rw [BitVec.getLsbD_extractLsb', BitVec.getLsbD_extractLsb', neg, BitVec.getLsbD_xor, hz,
    Bool.xor_false]

@[simp] theorem expo_neg (a : Word) : expo (neg a) = expo a := by
  rw [expo, extract_neg a 23 8 (by omega), expo]

@[simp] theorem frac_neg (a : Word) : frac (neg a) = frac a := by
  rw [frac, extract_neg a 0 23 (by omega), frac]

@[simp] theorem isNaN_neg (a : Word) : isNaN (neg a) = isNaN a := by simp [isNaN]
@[simp] theorem isInf_neg (a : Word) : isInf (neg a) = isInf a := by simp [isInf]
@[simp] theorem isZero_neg (a : Word) : isZero (neg a) = isZero a := by simp [isZero]
@[simp] theorem isFinite_neg (a : Word) : isFinite (neg a) = isFinite a := by simp [isFinite]
@[simp] theorem units_neg (a : Word) : units (neg a) = units a := by simp [units]

@[simp] theorem value_neg (a : Word) : value (neg a) = -value a := by
  simp only [value, sign_neg, units_neg]
  cases sign a <;> simp

/-! ## The classes of a pattern -/

theorem expo_lt (a : Word) : expo a < 256 := (a.extractLsb' 23 8).isLt

theorem frac_lt (a : Word) : frac a < 2 ^ 23 := (a.extractLsb' 0 23).isLt

theorem isNaN_of_isFinite {a : Word} (h : isFinite a = true) : isNaN a = false := by
  simp_all [isFinite, isNaN]

theorem isInf_of_isFinite {a : Word} (h : isFinite a = true) : isInf a = false := by
  simp_all [isFinite, isInf]

theorem isNaN_of_isInf {a : Word} (h : isInf a = true) : isNaN a = false := by
  simp_all [isInf, isNaN]

theorem isZero_of_isInf {a : Word} (h : isInf a = true) : isZero a = false := by
  simp_all [isInf, isZero]

theorem isFinite_of_isZero {a : Word} (h : isZero a = true) : isFinite a = true := by
  simp_all [isFinite, isZero]

/-- A pattern is a NaN, an infinity or finite. -/
theorem classes (a : Word) : isNaN a = true ∨ isInf a = true ∨ isFinite a = true := by
  by_cases he : expo a = 255 <;> by_cases hf : frac a = 0 <;> simp [isNaN, isInf, isFinite, he, hf]

theorem value_of_isZero {a : Word} (h : isZero a = true) : value a = 0 := by
  simp_all [isZero, value, units]

/-! ## Comparisons (R11) -/

theorem units_of_isInf {a : Word} (h : isInf a = true) : units a = 2 ^ 23 * 2 ^ 254 := by
  simp_all [isInf, units]

theorem units_lt_of_isFinite {a : Word} (h : isFinite a = true) : units a < 2 ^ 23 * 2 ^ 254 := by
  have he : expo a < 255 := by
    have := expo_lt a
    simp only [isFinite, bne_iff_ne] at h
    omega
  have hf := frac_lt a
  unfold units
  split
  · exact hf.trans_le (Nat.le_mul_of_pos_right _ (Nat.two_pow_pos _))
  · calc (2 ^ 23 + frac a) * 2 ^ (expo a - 1) < 2 ^ 24 * 2 ^ (expo a - 1) :=
          Nat.mul_lt_mul_of_pos_right (by omega) (Nat.two_pow_pos _)
      _ ≤ 2 ^ 24 * 2 ^ 253 := Nat.mul_le_mul_left _ (Nat.pow_le_pow_right (by omega) (by omega))
      _ = 2 ^ 23 * 2 ^ 254 := by rw [show 2 ^ 24 = 2 ^ 23 * 2 from rfl, Nat.mul_assoc, ← Nat.pow_succ']

/-- An infinity is beyond every finite value. -/
theorem value_lt_of_isInf {a b : Word} (ha : isInf a = true) (hb : isFinite b = true) :
    if sign a then value a < value b else value b < value a := by
  have hu := units_of_isInf ha
  have hv := units_lt_of_isFinite hb
  rw [← hu] at hv
  unfold value
  cases sign a <;> cases sign b <;> simp <;> omega

end Sys2Proof.Machine.F32
end

