-- ==== Sys2Proof/Laws/Rds.lean ====
section
/-! SUPPORT. The frames of the RDS path (44_rds_bits.md to 46_rds_group.md): what a group, a bit, a
chip and a front-end step can change, each said as one equation between states with those fields
blanked, from which every other field is read off; and what each step does. -/

namespace Sys2Proof.Machine

open Sys2Proof

/-- The state without what a group dispatch can change (R470). -/
def State.blankPs (s : State) : State :=
  { s with
    groupCount := 0, psPubCount := 0, psBuf0 := 0, psBuf1 := 0, psMask := 0, psPub0 := 0
    psPub1 := 0, psValid := false, psNew := false }

/-- The state without what a bit can change (R424 to R426). -/
def State.blankSync (s : State) : State :=
  { s.blankPs with
    shift := 0, bitcnt := 0, haveSync := false, slot := 0, group0 := 0, group1 := 0, group2 := 0
    group3 := 0, syncCount := 0 }

/-- The state without what a chip can change (R374 to R379). -/
def State.blankChips (s : State) : State :=
  { s.blankSync with chipPend := false, chip0 := false, prevBit := false }

/-! ## Group parser -/

theorem blankPs_setPsChar (s : State) (c : Nat) (b : Byte) :
    (s.setPsChar c b).blankPs = s.blankPs := by
  unfold State.setPsChar
  split <;> rfl

theorem blankPs_storeSegment (s : State) (seg : Nat) (d : BitVec 16) :
    (s.storeSegment seg d).blankPs = s.blankPs :=
  (blankPs_setPsChar (s.setPsChar _ _) _ _).trans (blankPs_setPsChar s _ _)

theorem blankPs_publish (t : State) :
    (if t.publishes then t.publish else t).blankPs = t.blankPs := by
  split <;> rfl

/-- R470: a group changes nothing but the PS state and the two counters. -/
theorem groupDispatch_frame (a b c d : BitVec 16) (s : State) :
    (groupDispatch a b c d s).blankPs = s.blankPs := by
  unfold groupDispatch
  dsimp only
  split
  · rfl
  · exact (blankPs_publish _).trans
      (blankPs_storeSegment { s with groupCount := s.groupCount + 1 } _ d)

/-- R470: what a group of another type does. -/
theorem groupDispatch_other (a b c d : BitVec 16) (s : State) (h : b.extractLsb' 12 4 ≠ 0) :
    groupDispatch a b c d s = { s with groupCount := s.groupCount + 1 } := by
  rw [groupDispatch]
  exact if_pos (bne_iff_ne.2 h)

/-- R470: what a type-0 group does. -/
theorem groupDispatch_zero (a b c d : BitVec 16) (s t : State) (h : b.extractLsb' 12 4 = 0)
    (ht : t = { s with groupCount := s.groupCount + 1 }.storeSegment
      (b.extractLsb' 0 2).toNat d) :
    groupDispatch a b c d s = if t.publishes then t.publish else t := by
  subst ht
  rw [groupDispatch]
  exact if_neg (by rw [h]; decide)

/-! ## Synchronizer -/

theorem storeBlock_frame (s : State) (slot : BitVec 2) (v : BitVec 16) :
    (s.storeBlock slot v).blankSync = s.blankSync := by
  unfold State.storeBlock
  split
  · rfl
  · split
    · rfl
    · split <;> rfl

theorem blankSync_of_blankPs {s t : State} (h : t.blankPs = s.blankPs) :
    t.blankSync = s.blankSync :=
  congrArg (fun u : State => { u with
    shift := 0, bitcnt := 0, haveSync := false, slot := 0, group0 := 0, group1 := 0, group2 := 0
    group3 := 0, syncCount := 0 }) h

theorem blankChips_of_blankSync {s t : State} (h : t.blankSync = s.blankSync) :
    t.blankChips = s.blankChips :=
  congrArg (fun u : State => { u with chipPend := false, chip0 := false, prevBit := false }) h

theorem nextSlot_frame (s : State) : s.nextSlot.blankSync = s.blankSync := by
  unfold State.nextSlot
  dsimp only
  split
  · rw [blankSync_of_blankPs (groupDispatch_frame _ _ _ _ _)]
    rfl
  · rfl

theorem completeBlock_frame (s : State) : s.completeBlock.blankSync = s.blankSync :=
  (nextSlot_frame _).trans (storeBlock_frame s s.slot (windowData s.shift))

theorem syncStep_frame (s : State) : (syncStep s).blankSync = s.blankSync := by
  unfold syncStep
  dsimp only
  split
  · exact completeBlock_frame { s with bitcnt := s.bitcnt + 1 }
  · rfl

theorem huntStep_frame (s : State) : (huntStep s).blankSync = s.blankSync := by
  unfold huntStep State.countBit
  split <;> split <;> rfl

/-- R424 to R426: a bit changes nothing but the synchronizer, the group and the PS state. -/
theorem blockStep_frame (d : Bool) (s : State) : (blockStep d s).blankSync = s.blankSync := by
  unfold blockStep
  dsimp only
  split
  · exact syncStep_frame { s with shift := _ }
  · exact huntStep_frame { s with shift := _ }

theorem rdsBitBody_frame (ws : List Word) (s : State) :
    (rdsBitBody ws s).blankSync = s.blankSync := by
  induction ws generalizing s with
  | nil => rfl
  | cons w ws ih => exact (ih _).trans (blockStep_frame _ s)

/-! ## Manchester decoder -/

theorem diffStep_frame (b : Bool) (s : State) : (diffStep b s).blankChips = s.blankChips := by
  rw [diffStep, blankChips_of_blankSync (blockStep_frame _ _)]
  rfl

theorem invalidPair_frame (c : Bool) (s : State) : (invalidPair c s).blankChips = s.blankChips := by
  unfold invalidPair
  dsimp only
  split <;> rfl

/-- R374 to R379: a chip changes nothing but the decoder, the synchronizer, the group and the PS
state. -/
theorem manchester_frame (c : Bool) (s : State) : (manchester c s).blankChips = s.blankChips := by
  unfold manchester
  split
  · have h := fun t : State => show (decodePair s.chip0 c t).blankChips = t.blankChips by
      cases s.chip0 <;> cases c
      · exact invalidPair_frame _ t
      · exact diffStep_frame _ t
      · exact diffStep_frame _ t
      · exact invalidPair_frame _ t
    exact h { s with chipPend := false, chip0 := false }
  · rfl

theorem rdsChipBody_frame (ws : List Word) (s : State) :
    (rdsChipBody ws s).blankChips = s.blankChips := by
  induction ws generalizing s with
  | nil => rfl
  | cons w ws ih => exact (ih _).trans (manchester_frame _ s)

/-- R374: the first chip of a pair is held. -/
theorem manchester_first (c : Bool) (s : State) (h : s.chipPend = false) :
    manchester c s = { s with chip0 := c, chipPend := true } := by
  rw [manchester, h]
  rfl

/-- R374, R376, R378: a valid pair gives the bit that its second chip is. -/
theorem manchester_valid (c : Bool) (s : State) (h : s.chipPend = true) (hc : s.chip0 ≠ c) :
    manchester c s = blockStep (c != s.prevBit)
      { s with chipPend := false, chip0 := false, prevBit := c } := by
  have hc' : s.chip0 = !c := by revert hc; cases s.chip0 <;> cases c <;> decide
  rw [manchester, h, if_pos rfl, hc']
  cases c <;> rfl

/-- R374, R377, R379: an invalid pair is a synchronization loss. -/
theorem manchester_invalid (c : Bool) (s : State) (h : s.chipPend = true) (hc : s.chip0 = c) :
    manchester c s = { s with
      haveSync := false, slot := 0, bitcnt := 0, shift := 0
      prevBit := if s.diffRst then false else s.prevBit
      chipPend := s.manSlip, chip0 := s.manSlip && c } := by
  have hp : decodePair c c { s with chipPend := false, chip0 := false }
      = invalidPair c { s with chipPend := false, chip0 := false } := by cases c <;> rfl
  rw [manchester, h, if_pos rfl, hc, hp, invalidPair]
  show (if s.manSlip then _ else _) = _
  cases s.manSlip <;> rfl

/-! ## What the RDS path does not read -/

/-- `t` with the state of the RDS bit path and CTRL of `s`: any update of `s` outside them. -/
def State.outside (s t : State) : State :=
  { t with
    ctrl := s.ctrl, groupCount := s.groupCount, psPubCount := s.psPubCount, psBuf0 := s.psBuf0
    psBuf1 := s.psBuf1, psMask := s.psMask, psPub0 := s.psPub0, psPub1 := s.psPub1
    psValid := s.psValid, psNew := s.psNew, shift := s.shift, bitcnt := s.bitcnt
    haveSync := s.haveSync, slot := s.slot, group0 := s.group0, group1 := s.group1
    group2 := s.group2, group3 := s.group3, syncCount := s.syncCount, chipPend := s.chipPend
    chip0 := s.chip0, prevBit := s.prevBit }

theorem storeSegment_outside (seg : Nat) (d : BitVec 16) (s t : State) :
    (s.outside t).storeSegment seg d = (s.storeSegment seg d).outside t := by
  unfold State.storeSegment State.setPsChar
  split <;> split <;> rfl

theorem publish_outside (s t : State) :
    (if (s.outside t).publishes then (s.outside t).publish else s.outside t)
      = (if s.publishes then s.publish else s).outside t := by
  show (if s.publishes then _ else _) = _
  cases s.publishes <;> rfl

theorem groupDispatch_outside (a b c d : BitVec 16) (s t : State) :
    groupDispatch a b c d (s.outside t) = (groupDispatch a b c d s).outside t := by
  by_cases h : b.extractLsb' 12 4 = 0
  · rw [groupDispatch_zero a b c d _ _ h rfl, groupDispatch_zero a b c d _ _ h rfl]
    have e := storeSegment_outside (b.extractLsb' 0 2).toNat d
      { s with groupCount := s.groupCount + 1 } t
    exact (congrArg (fun u : State => if u.publishes then u.publish else u) e).trans
      (publish_outside _ t)
  · rw [groupDispatch_other a b c d _ h, groupDispatch_other a b c d _ h]
    rfl

theorem storeBlock_outside (slot : BitVec 2) (v : BitVec 16) (s t : State) :
    (s.outside t).storeBlock slot v = (s.storeBlock slot v).outside t := by
  unfold State.storeBlock
  split
  · rfl
  · split
    · rfl
    · split <;> rfl

theorem nextSlot_outside (s t : State) : (s.outside t).nextSlot = s.nextSlot.outside t := by
  unfold State.nextSlot
  show (if s.slot = 3 then _ else _) = State.outside (if s.slot = 3 then _ else _) t
  split
  · exact groupDispatch_outside s.group0 s.group1 s.group2 s.group3
      { s with bitcnt := 0, slot := 0 } t
  · rfl

theorem completeBlock_outside (s t : State) :
    (s.outside t).completeBlock = s.completeBlock.outside t :=
  (congrArg State.nextSlot (storeBlock_outside s.slot (windowData s.shift) s t)).trans
    (nextSlot_outside _ t)

theorem huntStep_outside (s t : State) : huntStep (s.outside t) = (huntStep s).outside t := by
  have hc : (s.outside t).countBit = s.countBit.outside t := by
    unfold State.countBit
    show (if s.bitcnt.toNat < 26 then _ else _) = State.outside (if s.bitcnt.toNat < 26 then _ else _) t
    split <;> rfl
  unfold huntStep
  rw [hc]
  show (if s.countBit.locks then _ else _) = _
  cases s.countBit.locks <;> rfl

/-- R424 to R426: a bit reads and writes nothing but the RDS bit path. -/
theorem blockStep_outside (d : Bool) (s t : State) :
    blockStep d (s.outside t) = (blockStep d s).outside t := by
  unfold blockStep
  show (if s.haveSync then _ else _) = State.outside (if s.haveSync then _ else _) t
  split
  · unfold syncStep
    show (if (s.bitcnt + 1 == 26) then _ else _)
      = State.outside (if (s.bitcnt + 1 == 26) then _ else _) t
    split
    · exact completeBlock_outside
        { s with shift := (s.shift.extractLsb' 0 25).concat d, bitcnt := s.bitcnt + 1 } t
    · rfl
  · exact huntStep_outside { s with shift := (s.shift.extractLsb' 0 25).concat d } t

/-- R374 to R379: a chip reads nothing but the RDS bit path and CTRL. -/
theorem manchester_outside (c : Bool) (s t : State) :
    manchester c (s.outside t) = (manchester c s).outside t := by
  by_cases hp : s.chipPend = true
  · by_cases hc : s.chip0 = c
    · rw [manchester_invalid c s hp hc, manchester_invalid c (s.outside t) hp hc]
      rfl
    · rw [manchester_valid c s hp hc, manchester_valid c (s.outside t) hp hc]
      exact blockStep_outside _ { s with chipPend := false, chip0 := false, prevBit := c } t
  · have hp := Bool.eq_false_iff.2 hp
    rw [manchester_first c s hp, manchester_first c (s.outside t) hp]
    rfl

theorem rdsBitBody_outside (ws : List Word) (s t : State) :
    rdsBitBody ws (s.outside t) = (rdsBitBody ws s).outside t := by
  induction ws generalizing s with
  | nil => rfl
  | cons w ws ih => exact (congrArg (rdsBitBody ws) (blockStep_outside _ s t)).trans (ih _)

theorem rdsChipBody_outside (ws : List Word) (s t : State) :
    rdsChipBody ws (s.outside t) = (rdsChipBody ws s).outside t := by
  induction ws generalizing s with
  | nil => rfl
  | cons w ws ih => exact (congrArg (rdsChipBody ws) (manchester_outside _ s t)).trans (ih _)

/-! ## Front end and chain -/

/-- R372: the slicer moves CHIP_ACC besides what a chip can change. -/
theorem slice_frame (l : Word) (s : State) :
    ∃ acc n, (slice l s).2.blankChips = { s with chipAcc := acc, nanDraws := n }.blankChips := by
  obtain ⟨acc, taken, n, h, -⟩ := slice_spec l s
  refine ⟨acc, n, ?_⟩
  rw [h]
  cases taken
  · rfl
  · exact manchester_frame _ { s with chipAcc := acc, nanDraws := n }

/-- R290: the conversion changes nothing but the draw count. -/
theorem iqConv_frame (w : Word) (s : State) :
    ∃ z n, iqConv w s = (z, { s with nanDraws := n }) := by
  have h : ∀ (b : Byte) (s : State), ∃ z n, convByte b s = (z, { s with nanDraws := n }) := by
    intro b s
    obtain ⟨a, n1, h1, -⟩ := fsub_spec (F32.ofByte b) F32.c127_5 s
    obtain ⟨z, n2, h2, -⟩ := fdiv_spec a F32.c128 { s with nanDraws := n1 }
    exact ⟨z, n2, by rw [convByte, bind_apply, h1]; exact h2⟩
  obtain ⟨re, n1, h1⟩ := h (iqI w) s
  obtain ⟨im, n2, h2⟩ := h (iqQ w) { s with nanDraws := n1 }
  refine ⟨⟨re, im⟩, n2, ?_⟩
  rw [iqConv, bind_apply, h1, bind_apply, h2]
  rfl

end Sys2Proof.Machine
end

