-- ==== Sys2Proof/Laws/Frames.lean ====
section
/-! SUPPORT. What no unit command changes (47_control.md R511, 10_state.md R52): the streams but for
appended responses, ERR, CTRL, the parameters, the taps, T and D; and how the oscillator phase moves
(41_nco_mixer.md R255). Said once per operation as `Keeps`, and of every command's effect but those
of REG_READ, REG_WRITE and NCO_SET by `keeps_bodyOf`. -/

namespace Sys2Proof.Machine

open Sys2Proof Sys2Proof.Laws

/-- The state with everything blanked that a unit command can change. -/
def State.settings (s : State) : State :=
  { s.blankChips with
    resp := [], deemphY := 0, ncoPhase := 0, chipAcc := 0, fmdPrevI := 0, fmdPrevQ := 0
    fmdHasPrev := false, nanDraws := 0
    ch := s.ch.reset, au := s.au.reset, rb := s.rb.reset, rl := s.rl.reset }

/-- R251, R255: from one phase to another by oscillator steps and resets to +0.0. -/
def PhasePath (inc : Word) : Word → Word → Prop :=
  Relation.ReflTransGen fun p q => q = F32.posZero ∨ PhaseNext inc p q

/-- A property that +0.0 has and every oscillator step keeps holds along a path. -/
theorem PhasePath.keeps {inc p q : Word} (h : PhasePath inc p q) (P : Word → Prop)
    (zero : P F32.posZero) (step : ∀ x y, P x → PhaseNext inc x y → P y) (hp : P p) : P q := by
  induction h with
  | refl => exact hp
  | tail _ hxy ih =>
    obtain rfl | hxy := hxy
    · exact zero
    · exact step _ _ ih hxy

/-- From `s` to `t` only unit state changes, words may be appended to the responses, and the phase
moves by oscillator steps and resets alone. -/
structure Keeps (s t : State) : Prop where
  settings : t.settings = s.settings
  resp : ∃ ws, t.resp = s.resp ++ ws
  phase : PhasePath s.ncoInc s.ncoPhase t.ncoPhase

theorem Keeps.refl (s : State) : Keeps s s := ⟨rfl, ⟨[], (List.append_nil _).symm⟩, .refl⟩

/-- No response, the same settings and the same phase. -/
theorem Keeps.quiet {s t : State} (h : t.settings = s.settings) (hr : t.resp = s.resp)
    (hp : t.ncoPhase = s.ncoPhase) : Keeps s t :=
  ⟨h, ⟨[], by rw [hr, List.append_nil]⟩, by rw [hp]; exact .refl⟩

theorem Keeps.cp {s t : State} (h : Keeps s t) : t.cp = s.cp := (congrArg State.cp h.1 :)
theorem Keeps.stream {s t : State} (h : Keeps s t) : t.stream = s.stream :=
  (congrArg State.stream h.1 :)
theorem Keeps.err {s t : State} (h : Keeps s t) : t.err = s.err := (congrArg State.err h.1 :)
theorem Keeps.ctrl {s t : State} (h : Keeps s t) : t.ctrl = s.ctrl := (congrArg State.ctrl h.1 :)
theorem Keeps.audGain {s t : State} (h : Keeps s t) : t.audGain = s.audGain :=
  (congrArg State.audGain h.1 :)
theorem Keeps.deemphA {s t : State} (h : Keeps s t) : t.deemphA = s.deemphA :=
  (congrArg State.deemphA h.1 :)
theorem Keeps.ncoInc {s t : State} (h : Keeps s t) : t.ncoInc = s.ncoInc :=
  (congrArg State.ncoInc h.1 :)

theorem Keeps.trans {s t u : State} (a : Keeps s t) (b : Keeps t u) : Keeps s u := by
  obtain ⟨x, hx⟩ := a.resp
  obtain ⟨y, hy⟩ := b.resp
  exact ⟨b.settings.trans a.settings, ⟨x ++ y, by rw [hy, hx, List.append_assoc]⟩,
    a.phase.trans (a.ncoInc ▸ b.phase)⟩

theorem Keeps.chipInc {s t : State} (h : Keeps s t) : t.chipInc = s.chipInc :=
  (congrArg State.chipInc h.1 :)
/-- T, D and the taps of the complex engine. -/
theorem Keeps.ch {s t : State} (h : Keeps s t) : t.ch.reset = s.ch.reset :=
  (congrArg State.ch h.1 :)
/-- T, D and the taps of a real engine. -/
theorem Keeps.fir {s t : State} (h : Keeps s t) (i : RealInst) :
    (t.fir i).reset = (s.fir i).reset := by
  cases i
  · exact (congrArg State.au h.1 :)
  · exact (congrArg State.rb h.1 :)
  · exact (congrArg State.rl h.1 :)

/-! ## Operations -/

theorem keeps_emit (w : Word) (s : State) : Keeps s (s.emit w) := ⟨rfl, ⟨[w], rfl⟩, .refl⟩

theorem keeps_emitAll (ws : List Word) (s : State) : Keeps s (s.emitAll ws) := ⟨rfl, ⟨ws, rfl⟩, .refl⟩

theorem keeps_firStepR (i : RealInst) (x : Word) (s : State) : Keeps s (firStepR i x s).2 := by
  obtain ⟨r, n, h, -⟩ := firStepR_spec i x s
  rw [h]
  cases i <;> exact .quiet rfl rfl rfl

theorem keeps_firStepC (x : Cplx) (s : State) : Keeps s (firStepC x s).2 := by
  obtain ⟨r, n, h, -⟩ := firStepC_spec x s
  rw [h]
  exact .quiet rfl rfl rfl

theorem keeps_audStep (x : Word) (s : State) : Keeps s (audStep x s).2 := by
  obtain ⟨y, r, n, h, -⟩ := audStep_spec x s
  rw [h]
  exact .quiet rfl rfl rfl

theorem keeps_fmdStep (x : Cplx) (s : State) : Keeps s (fmdStep x s).2 := by
  obtain ⟨y, n, h, -⟩ := fmdStep_spec x s
  rw [h]
  exact .quiet rfl rfl rfl

theorem keeps_ncoNext (s : State) : Keeps s (ncoNext s).2 := by
  obtain ⟨p, n, h, hp⟩ := ncoNext_spec s
  rw [h]
  exact ⟨rfl, ⟨[], (List.append_nil _).symm⟩, .single (.inr hp)⟩

theorem keeps_mixSample (x c : Cplx) (s : State) : Keeps s (mixSample x c s).2 := by
  obtain ⟨y, n, h, -⟩ := mixSample_spec x c s
  rw [h]
  exact .quiet rfl rfl rfl

theorem keeps_mixReal (b : Word) (c : Cplx) (s : State) : Keeps s (mixReal b c s).2 := by
  obtain ⟨y, n, h, -⟩ := mixReal_spec b c s
  rw [h]
  exact .quiet rfl rfl rfl

theorem keeps_iqConv (w : Word) (s : State) : Keeps s (iqConv w s).2 := by
  obtain ⟨z, n, h⟩ := iqConv_frame w s
  rw [h]
  exact .quiet rfl rfl rfl

theorem keeps_of_blankChips {s t : State} (h : t.blankChips = s.blankChips) : Keeps s t :=
  .quiet
    (congrArg (fun u : State => { u with
      resp := [], deemphY := 0, ncoPhase := 0, chipAcc := 0, fmdPrevI := 0, fmdPrevQ := 0
      fmdHasPrev := false, nanDraws := 0
      ch := u.ch.reset, au := u.au.reset, rb := u.rb.reset, rl := u.rl.reset }) h)
    (congrArg State.resp h :) (congrArg State.ncoPhase h :)

theorem keeps_slice (l : Word) (s : State) : Keeps s (slice l s).2 := by
  obtain ⟨acc, n, h⟩ := slice_frame l s
  exact Keeps.trans (t := { s with chipAcc := acc, nanDraws := n }) (.quiet rfl rfl rfl)
    (keeps_of_blankChips h)

theorem keeps_bind {α β : Type} {m : M α} {f : α → M β} {s : State} (h : Keeps s (m s).2)
    (hf : ∀ a t, Keeps t (f a t).2) : Keeps s ((m >>= f) s).2 := h.trans (hf _ _)

theorem keeps_rdsFront (m : Word) (s : State) : Keeps s (rdsFront m s).2 := by
  refine keeps_bind (keeps_firStepR .rb m s) fun o t => ?_
  cases o with
  | none => exact .refl t
  | some b =>
    refine keeps_bind (keeps_ncoNext t) fun c u => ?_
    refine keeps_bind (keeps_mixReal b c u) fun r v => ?_
    refine keeps_bind (keeps_firStepR .rl r v) fun o w => ?_
    cases o with
    | none => exact .refl w
    | some l => exact keeps_slice l w

theorem keeps_rdsGated (m : Word) (s : State) : Keeps s (rdsGated m s).2 := by
  rw [rdsGated, bind_apply, get_apply]
  dsimp only
  split
  · exact keeps_rdsFront m s
  · exact .refl s

theorem keeps_chainStep (w : Word) (s : State) : Keeps s (chainStep w s).2 := by
  refine keeps_bind (keeps_iqConv w s) fun z t => ?_
  refine keeps_bind (keeps_firStepC z t) fun o u => ?_
  cases o with
  | none => exact .refl u
  | some c =>
    refine keeps_bind (keeps_fmdStep c u) fun m v => ?_
    exact keeps_bind (keeps_rdsGated m v) fun _ => keeps_audStep m

theorem keeps_forEach {α : Type} (f : α → M Unit) (hf : ∀ x s, Keeps s (f x s).2) (xs : List α)
    (s : State) : Keeps s (forEach f xs s).2 :=
  forEach_keeps Keeps .refl (fun _ _ _ => .trans) f hf xs s

theorem keeps_mapEach {α β : Type} (f : α → M β) (hf : ∀ x s, Keeps s (f x s).2) (xs : List α)
    (s : State) : Keeps s (mapEach f xs s).2 :=
  mapEach_keeps Keeps .refl (fun _ _ _ => .trans) f hf xs s

theorem keeps_keepOutputs {α β : Type} (f : α → M (Option β)) (k : Nat → Bool)
    (hf : ∀ x s, Keeps s (f x s).2) (xs : List α) (m : Nat) (s : State) :
    Keeps s (keepOutputs f k xs m s).2 :=
  keepOutputs_keeps Keeps .refl (fun _ _ _ => .trans) f k hf xs m s

theorem keeps_firReset (i : Inst) (s : State) : Keeps s (s.firReset i) := by
  cases i with
  | ch => exact .quiet rfl rfl rfl
  | real j => cases j <;> exact .quiet rfl rfl rfl

theorem keeps_if {s t : State} (b : Bool) (h : Keeps s t) : Keeps s (if b then t else s) := by
  cases b
  · exact .refl s
  · exact h

theorem keeps_resetRds (s : State) : Keeps s s.resetRds :=
  ⟨rfl, ⟨[], (List.append_nil _).symm⟩, .single (.inl rfl)⟩

theorem keeps_resetFmd (s : State) : Keeps s s.resetFmd := .quiet rfl rfl rfl

theorem keeps_resetAud (s : State) : Keeps s s.resetAud := .quiet rfl rfl rfl

theorem keeps_resetPs (s : State) : Keeps s s.resetPs := .quiet rfl rfl rfl

theorem keeps_resetUnits (mask : BitVec 8) (s : State) : Keeps s (resetUnits mask s) := by
  refine Keeps.trans (keeps_if (mask.getLsbD 0) (keeps_firReset .ch s)) ?_
  refine Keeps.trans (keeps_if (mask.getLsbD 1) (keeps_resetFmd _)) ?_
  refine Keeps.trans (keeps_if (mask.getLsbD 2) (keeps_resetAud _)) ?_
  refine Keeps.trans (keeps_if (mask.getLsbD 3) (keeps_resetRds _)) ?_
  exact keeps_if (mask.getLsbD 4) (keeps_resetPs _)

/-! ## Commands -/

theorem keeps_ncoNextBody (n : Nat) (s : State) : Keeps s (runM (ncoNextBody n) s) := by
  refine keeps_forEach _ (fun x t => ?_) _ s
  refine keeps_bind (keeps_ncoNext t) fun c u => ?_
  exact (keeps_emit c.re u).trans (keeps_emit c.im _)

theorem keeps_mixBody (xs : List Cplx) (s : State) : Keeps s (runM (mixBody xs) s) := by
  refine keeps_forEach _ (fun x t => ?_) _ s
  refine keeps_bind (keeps_ncoNext t) fun c u => ?_
  refine keeps_bind (keeps_mixSample x c u) fun y v => ?_
  exact (keeps_emit y.re v).trans (keeps_emit y.im _)

theorem keeps_convU8Body (ws : List Word) (s : State) : Keeps s (runM (convU8Body ws) s) := by
  refine keeps_forEach _ (fun x t => ?_) _ s
  refine keeps_bind (keeps_iqConv x t) fun z u => ?_
  exact (keeps_emit z.re u).trans (keeps_emit z.im _)

theorem keeps_firProcCBody (cap : Word) (xs : List Cplx) (s : State) :
    Keeps s (runM (firProcCBody cap xs) s) :=
  keeps_bind (keeps_keepOutputs _ _ keeps_firStepC _ _ _) fun _ => keeps_emitAll _

theorem keeps_firProcRBody (i : RealInst) (cap : Word) (xs : List Word) (s : State) :
    Keeps s (runM (firProcRBody i cap xs) s) :=
  keeps_bind (keeps_keepOutputs _ _ (keeps_firStepR i) _ _ _) fun _ => keeps_emitAll _

theorem keeps_fmdProcBody (cap : Word) (xs : List Cplx) (s : State) :
    Keeps s (runM (fmdProcBody cap xs) s) :=
  keeps_bind (keeps_mapEach _ keeps_fmdStep _ _) fun _ => keeps_emitAll _

theorem keeps_audProcBody (cap : Word) (xs : List Word) (s : State) :
    Keeps s (runM (audProcBody cap xs) s) :=
  keeps_bind (keeps_keepOutputs _ _ keeps_audStep _ _ _) fun _ => keeps_emitAll _

theorem keeps_chainU8Body (ws : List Word) (s : State) : Keeps s (runM (chainU8Body ws) s) :=
  keeps_bind (keeps_keepOutputs _ _ keeps_chainStep _ _ _) fun _ => keeps_emitAll _

/-- R250: NCO_SET writes the increment and nothing else. -/
theorem ncoSetBody_spec (fs f : Word) (s : State) : ∃ p inc n,
    Res (F32.mul Config.TWO_PI_F32 f) p ∧ Res (F32.div p fs) inc ∧
      runM (ncoSetBody fs f) s = { s with ncoInc := inc, nanDraws := n } := by
  obtain ⟨p, n1, h1, r1⟩ := fmul_spec Config.TWO_PI_F32 f s
  obtain ⟨q, n2, h2, r2⟩ := fdiv_spec p fs { s with nanDraws := n1 }
  refine ⟨p, q, n2, r1, r2, ?_⟩
  rw [runM, ncoSetBody, bind_apply, h1, bind_apply, h2]
  rfl

/-- R511, R52: every command but the register commands and NCO_SET keeps the settings. -/
theorem keeps_bodyOf (i : Instr) (s : State) (h1 : isRegCommand i = false)
    (h2 : ∀ sel imm fs f, i ≠ .ncoSet sel imm fs f) : Keeps s (bodyOf i s) := by
  cases i with
  | nop => exact .refl s
  | reset sel => exact keeps_resetUnits sel s
  | regRead => cases h1
  | regWrite => cases h1
  | firProcC _ cap xs => exact keeps_firProcCBody cap xs s
  | firProcR sel cap xs =>
    simp only [bodyOf]
    cases realOfSel sel with
    | none => exact .refl s
    | some i => exact keeps_firProcRBody i cap xs s
  | firReset sel =>
    simp only [bodyOf]
    cases instOfSel sel with
    | none => exact .refl s
    | some i => exact keeps_firReset i s
  | ncoSet sel imm fs f => exact absurd rfl (h2 sel imm fs f)
  | ncoNext _ n => exact keeps_ncoNextBody n.toNat s
  | mix _ xs => exact keeps_mixBody xs s
  | convU8 _ ws => exact keeps_convU8Body ws s
  | fmdProc _ cap xs => exact keeps_fmdProcBody cap xs s
  | audProc _ cap xs => exact keeps_audProcBody cap xs s
  | rdsProc _ xs => exact keeps_forEach _ keeps_rdsFront xs s
  | rdsSlice _ xs => exact keeps_forEach _ keeps_slice xs s
  | rdsChip _ ws => exact keeps_of_blankChips (rdsChipBody_frame ws s)
  | rdsBit _ ws => exact keeps_of_blankChips (blankChips_of_blankSync (rdsBitBody_frame ws s))
  | crcSyn => exact keeps_emit _ s
  | rdsGroup _ _ a b c d =>
    exact keeps_of_blankChips (blankChips_of_blankSync (blankSync_of_blankPs
      (groupDispatch_frame (operandDatum a) (operandDatum b) (operandDatum c) (operandDatum d) s)))
  | chainU8 _ ws => exact keeps_chainU8Body ws s

end Sys2Proof.Machine
end

