-- ==== Sys2Proof/Tests/Slice0.lean ====
section
/-! SUPPORT. Tests of the model: ill-formed commands refused, words decoded, one step of each command
against the vectors of 95_test_vectors.md, and for every statement with hypotheses a state and
operands that meet them all together (`witness_<statement>`). Vectors that hang on fcos, fsin or
fatan2 ([fx]) are not used, but for the parts of them that do not. -/

namespace Sys2Proof.Tests

open Sys2Proof Sys2Proof.Machine

/-- The state an outcome answers; power-on reset where there is none. -/
def after (o : Host.Outcome State Fault Refusal) : State :=
  match o with
  | .next t => t
  | _ => State.reset

/-- One command from a state. -/
def run (s : State) (i : Instr) : State := after (exec i s)

/-- Commands one after another from power-on reset. -/
def runs (is : List Instr) : State := is.foldl run State.reset

/-- Power-on reset with words supplied. -/
def sent (ws : List Word) : State := State.reset.supply ws

/-- A REG_WRITE. -/
def wr (addr : BitVec 16) (v : Word) : Instr := .regWrite 0 addr v

/-- The bits of a window, the first received first, as payload words. -/
def windowWords (w : BitVec 26) : List Word :=
  (List.range 26).map fun k => bitWord (w.getLsbD (25 - k))

/-! ## WellFormed: an ill-formed term for each check, refused -/

theorem test_wf_nop_sel : (Instr.nop 1 0).wellFormed = false := by decide
theorem test_wf_nop_imm : (Instr.nop 0 1).wellFormed = false := by decide
theorem test_wf_reset_mask : (Instr.reset 0x20 0).wellFormed = false := by decide
theorem test_wf_reset_imm : (Instr.reset 0x1F 1).wellFormed = false := by decide
theorem test_wf_regRead : (Instr.regRead 1 0).wellFormed = false := by decide
theorem test_wf_regWrite : (Instr.regWrite 1 0 0).wellFormed = false := by decide
theorem test_wf_firProcC : (Instr.firProcC 1 0 []).wellFormed = false := by decide
theorem test_wf_firProcR_low : (Instr.firProcR 0 0 []).wellFormed = false := by decide
theorem test_wf_firProcR_high : (Instr.firProcR 4 0 []).wellFormed = false := by decide
theorem test_wf_firReset_sel : (Instr.firReset 4 0).wellFormed = false := by decide
theorem test_wf_firReset_imm : (Instr.firReset 3 1).wellFormed = false := by decide
theorem test_wf_ncoSet_sel : (Instr.ncoSet 1 0 0 0).wellFormed = false := by decide
theorem test_wf_ncoSet_imm : (Instr.ncoSet 0 1 0 0).wellFormed = false := by decide
theorem test_wf_ncoNext : (Instr.ncoNext 1 0).wellFormed = false := by decide
theorem test_wf_mix : (Instr.mix 1 []).wellFormed = false := by decide
theorem test_wf_convU8 : (Instr.convU8 1 []).wellFormed = false := by decide
theorem test_wf_fmdProc : (Instr.fmdProc 1 0 []).wellFormed = false := by decide
theorem test_wf_audProc : (Instr.audProc 1 0 []).wellFormed = false := by decide
theorem test_wf_rdsProc : (Instr.rdsProc 1 []).wellFormed = false := by decide
theorem test_wf_rdsSlice : (Instr.rdsSlice 1 []).wellFormed = false := by decide
theorem test_wf_rdsChip : (Instr.rdsChip 1 []).wellFormed = false := by decide
theorem test_wf_rdsBit : (Instr.rdsBit 1 []).wellFormed = false := by decide
theorem test_wf_crcSyn_sel : (Instr.crcSyn 1 0 0).wellFormed = false := by decide
theorem test_wf_crcSyn_imm : (Instr.crcSyn 0 1 0).wellFormed = false := by decide
theorem test_wf_rdsGroup_sel : (Instr.rdsGroup 1 0 0 0 0 0).wellFormed = false := by decide
theorem test_wf_rdsGroup_imm : (Instr.rdsGroup 0 1 0 0 0 0).wellFormed = false := by decide
theorem test_wf_chainU8 : (Instr.chainU8 1 []).wellFormed = false := by decide

/-- R141: 65536 samples fit no command word, 65535 do. -/
theorem test_wf_framed : (Instr.rdsBit 0 (List.replicate 65536 0)).wellFormed = false ∧
    (Instr.rdsBit 0 (List.replicate 65535 0)).wellFormed = true := by
  constructor <;> rw [Instr.wellFormed, Instr.framed, Instr.count, List.length_replicate] <;> decide

/-! ## Decode: words written out from 30_encoding.md R140, R144 and the commands' encodings -/

theorem test_decode_nop : decode [0x00000000#32] = .ok (.nop 0 0, []) := rfl
theorem test_decode_reset : decode [0x010F0000#32] = .ok (.reset 0x0F 0, []) := rfl
theorem test_decode_regRead : decode [0x0200004C#32] = .ok (.regRead 0 0x004C, []) := rfl
theorem test_decode_regWrite : decode [0x03002001#32, 0x3F000000#32]
    = .ok (.regWrite 0 0x2001 0x3F000000, []) := rfl
theorem test_decode_firProcC :
    decode [0x10000001#32, 8#32, 0x3F800000#32, 0x40000000#32, 0#32]
      = .ok (.firProcC 0 8 [⟨0x3F800000, 0x40000000⟩], [0]) := rfl
theorem test_decode_firProcR : decode [0x11030002#32, 4#32, 0x3F800000#32, 0xBF000000#32]
    = .ok (.firProcR 3 4 [0x3F800000, 0xBF000000], []) := rfl
theorem test_decode_firReset : decode [0x12020000#32] = .ok (.firReset 2 0, []) := rfl
theorem test_decode_ncoSet : decode [0x20000000#32, 0x40800000#32, 0x3F800000#32]
    = .ok (.ncoSet 0 0 0x40800000 0x3F800000, []) := rfl
theorem test_decode_ncoNext : decode [0x2100ABCD#32] = .ok (.ncoNext 0 0xABCD, []) := rfl
theorem test_decode_mix : decode [0x22000002#32, 1#32, 2#32, 3#32, 4#32]
    = .ok (.mix 0 [⟨1, 2⟩, ⟨3, 4⟩], []) := rfl
theorem test_decode_convU8 : decode [0x30000002#32, 0x80FF#32, 0x807F#32]
    = .ok (.convU8 0 [0x80FF, 0x807F], []) := rfl
theorem test_decode_fmdProc : decode [0x31000001#32, 8#32, 1#32, 2#32]
    = .ok (.fmdProc 0 8 [⟨1, 2⟩], []) := rfl
theorem test_decode_audProc : decode [0x40000001#32, 8#32, 0x3F000000#32]
    = .ok (.audProc 0 8 [0x3F000000], []) := rfl
theorem test_decode_rdsProc : decode [0x50000001#32, 5#32] = .ok (.rdsProc 0 [5], []) := rfl
theorem test_decode_rdsSlice : decode [0x51000001#32, 5#32] = .ok (.rdsSlice 0 [5], []) := rfl
theorem test_decode_rdsChip : decode [0x52000002#32, 0#32, 1#32]
    = .ok (.rdsChip 0 [0, 1], []) := rfl
theorem test_decode_rdsBit : decode [0x53000003#32, 0#32, 1#32, 1#32]
    = .ok (.rdsBit 0 [0, 1, 1], []) := rfl
theorem test_decode_crcSyn : decode [0x54000000#32, 0x0048D06A#32]
    = .ok (.crcSyn 0 0 0x0048D06A, []) := rfl
theorem test_decode_rdsGroup : decode [0x55000000#32, 0x1234#32, 1#32, 2#32, 0x4449#32]
    = .ok (.rdsGroup 0 0 0x1234 1 2 0x4449, []) := rfl
theorem test_decode_chainU8 : decode [0x60000001#32, 0x80FF#32]
    = .ok (.chainU8 0 [0x80FF], []) := rfl

/-- An illegal SEL decodes, with the payload its opcode and IMM announce (R146, R561). -/
theorem test_decode_illegal : decode [0x11000001#32, 1#32, 0x3F800000#32]
    = .ok (.firProcR 0 1 [0x3F800000], []) := rfl
/-- R147: reserved opcodes, between rows of the map and past its end. -/
theorem test_decode_reserved : decode [0x04000000#32] = .error (.unknownOpcode 0x04) ∧
    decode [0x7F000000#32, 0#32] = .error (.unknownOpcode 0x7F) := ⟨rfl, rfl⟩
/-- R143: payload words missing. -/
theorem test_decode_missing : decode [0x55000000#32, 1#32]
    = .error (.payloadMissing .rdsGroup 3) ∧ decode [] = .error .noWord := ⟨rfl, rfl⟩
/-- R151: the worked encoding of `FIR_PROC_R AU, n=2 : cap=4, 1.0, -0.5`. -/
theorem test_encode_firProcR : encode (.firProcR 1 4 [0x3F800000#32, 0xBF000000#32])
    = [0x11010002#32, 4#32, 0x3F800000#32, 0xBF000000#32] := by decide

theorem test_decodeTableWord :
    decodeTableWord 64 0x0048D06A54000000 = some (.crcSyn 0 0 0x0048D06A) ∧
    decodeTableWord 32 0x11010002 = some (.firProcR 1 0 [0, 0]) ∧
    decodeTableWord 32 0x7F000000 = none := ⟨rfl, rfl, rfl⟩
/-- V-CRC-2, placed and run as the first command after reset. -/
theorem test_withFetchWord :
    (after (step (State.reset.withFetchWord 64 0x0048D06A54000000))).resp = [0x000100FC] ∧
    (after (step (State.reset.withFetchWord 64 0x0048D06A54000000))).cp = 2 := by decide +kernel

/-! ## The step -/

/-- V-ERR-1 and R143: an unknown opcode is one word, and an incomplete command waits. -/
theorem test_step_unknown :
    after (step (sent [0x7F000000])) = { sent [0x7F000000] with err := 1, cp := 1 } := by decide
theorem test_step_waits :
    after (step (sent [0x55000000, 1, 2, 3])) = sent [0x55000000, 1, 2, 3] := by decide

/-! ## Memory -/

/-- Writing the unlisted value removes the entry; entries stay in rising order. -/
theorem test_memory : Memory.write (0 : Word) [(1, 5), (4, 6)] 4 0 = [(1, 5)] ∧
    Memory.write (0 : Word) [(1, 5), (4, 6)] 2 7 = [(1, 5), (2, 7), (4, 6)] ∧
    Memory.wf (0 : Word) [(1, 5), (4, 0)] = false ∧ Memory.wf (0 : Word) [(4, 5), (1, 6)] = false := by
  decide

/-! ## One step of each command -/

/-- R510. -/
theorem test_nop : run State.reset (.nop 0 0) = { State.reset with cp := 1 } := by decide
theorem test_nop_illegal : run State.reset (.nop 0 1) = { State.reset with err := 1, cp := 1 } := by
  decide

/-- V-CTL-5. -/
theorem test_reset_illegal :
    run State.reset (.reset 0x20 0) = { State.reset with err := 1, cp := 1 } := by decide
/-- R511, its example: RESET RDS while SYNCED keeps SYNC_COUNT and the PS state. -/
theorem test_reset_rds :
    run { State.reset with
        haveSync := true, slot := 2, shift := 5, bitcnt := 3, ncoPhase := 7, syncCount := 1
        psMask := 3, ncoInc := 9 } (.reset 0x08 0)
      = { State.reset with syncCount := 1, psMask := 3, ncoInc := 9, cp := 1 } := by decide

/-- V-CTL-1. -/
theorem test_regRead :
    (runs [.regRead 0 0x0000, .regRead 0 0x0008, .regRead 0 0x0028, .regRead 0 0x004C]).resp
      = [1, 0x3F800000, 0x20202020, 1] := by decide
/-- V-ERR-2 and R102: 0x13FF is past the last tap. -/
theorem test_regRead_unmapped :
    runs [.regRead 0 0x0006, .regRead 0 0x13FF]
      = { State.reset with resp := [0, 0], err := 2, cp := 2 } := by decide

/-- V-CTL-2, V-CTL-3. -/
theorem test_regWrite_firT : (runs [wr 0x0044 3]).au.t = 3 ∧
    runs [wr 0x0044 4, wr 0x0044 0x00010001, wr 0x0045 0]
      = { State.reset with err := 4, cp := 6 } := by decide
/-- V-ERR-3, V-ERR-5. -/
theorem test_regWrite_err :
    run State.reset (wr 0x000A 0x3F800000) = { State.reset with err := 2, cp := 2 } ∧
    (run { State.reset with err := 7 } (wr 0x0002 2)).err = 5 := by decide

/-- V-FIR-5: CH with T = 3, D = 1, taps 0.0, 1.0, 0.0. -/
theorem test_firProcC :
    (run { State.reset with ch := { State.reset.ch with t := 3, taps := [(1, 0x3F800000)] } }
      (.firProcC 0 8 [⟨0x3F800000, 0x40000000⟩, ⟨0x40400000, 0x40800000⟩])).resp
      = [0, 0, 0x3F800000, 0x40000000, 2] := by decide +kernel

/-- V-FIR-1: AU with T = 3, D = 2, taps 0.25, 0.5, 0.25. -/
theorem test_firProcR :
    let t := run { State.reset with au := { State.reset.au with
        t := 3, d := 2, taps := [(0, 0x3E800000), (1, 0x3F000000), (2, 0x3E800000)] } }
      (.firProcR 1 8 [0x3F800000, 0x40000000, 0x40400000, 0x40800000, 0x40A00000])
    t.resp = [0x3F800000, 0x40400000, 2] ∧ t.au.phase = 1 ∧ t.au.wptr = 2 := by decide +kernel
/-- V-FIR-8: rounding after every addition, the oldest sample first. -/
theorem test_firProcR_order :
    (run { State.reset with au := { State.reset.au with
        t := 3, d := 3, taps := [(0, 0x3F800000), (1, 0x3F800000), (2, 0x3F800000)] } }
      (.firProcR 1 8 [0x4B800000, 0x3F800000, 0x3F800000])).resp = [0x4B800000, 1] := by
  decide +kernel

/-- R208, R209. -/
theorem test_firReset :
    run { State.reset with rl := ⟨3, 2, 1, 2, [(0, 5)], [(1, 6)]⟩ } (.firReset 3 0)
      = { State.reset with rl := ⟨3, 2, 0, 0, [(0, 5)], []⟩, cp := 1 } := by decide

/-- V-NCO-2, V-NCO-4: the increment alone is written. -/
theorem test_ncoSet : run { State.reset with ncoPhase := 5 } (.ncoSet 0 0 0x41000000 0xBF800000)
    = { State.reset with ncoPhase := 5, ncoInc := 0xBF490FDB, cp := 3 } := by decide +kernel

/-- V-NCO-2: a negative phase is wrapped up. -/
theorem test_ncoNext : (run { State.reset with ncoInc := 0xBF490FDB } (.ncoNext 0 1)).ncoPhase
    = 0x40AFEDE0 := by decide +kernel
/-- V-NCO-3: the third sum reaches 2π and wraps to exactly 0. -/
theorem test_ncoNext_wrap : (run { State.reset with ncoInc := 0x40060A92 } (.ncoNext 0 3)).ncoPhase
    = 0 := by decide +kernel

/-- V-MIX-1: the phase after one of its samples, whatever the sinusoid is. -/
theorem test_mix :
    (run { State.reset with ncoInc := 0x3FC90FDB } (.mix 0 [⟨0x3F800000, 0⟩])).ncoPhase
      = 0x3FC90FDB := by
  have h : ncoNext { State.reset with ncoInc := 0x3FC90FDB } = (conjSample 0,
      { State.reset with ncoInc := 0x3FC90FDB, ncoPhase := 0x3FC90FDB }) := by
    refine Prod.ext rfl ?_
    decide +kernel
  obtain ⟨y, n, hy, -⟩ := mixSample_spec ⟨0x3F800000, 0⟩ (conjSample 0)
    { State.reset with ncoInc := 0x3FC90FDB, ncoPhase := 0x3FC90FDB }
  simp only [run, after, exec, execMix, command, mixBody, runM, forEach_cons, forEach_nil,
    bind_apply, modify_apply, h, hy]
  rfl

/-- V-CONV-1. -/
theorem test_convU8 :
    (run State.reset (.convU8 0 [0x00000000, 0x0000FF00, 0x0000807F, 0xABCD80FF, 0x1234])).resp
      = [0xBF7F0000, 0xBF7F0000, 0xBF7F0000, 0x3F7F0000, 0xBB800000, 0x3B800000, 0x3F7F0000,
         0x3B800000, 0xBF170000, 0xBF5B0000] := by decide +kernel

/-- V-FMD-4: the inputs past the capacity are not processed. -/
theorem test_fmdProc :
    run State.reset (.fmdProc 0 1 [⟨0x3F800000, 0⟩, ⟨0, 0x3F800000⟩, ⟨0xBF800000, 0⟩])
      = { State.reset with
          resp := [0, 1], fmdPrevI := 0x3F800000, fmdHasPrev := true, cp := 8 } := by decide

/-- V-AUD-2: DEEMPH_A 0.5, AU with T = D = 1 and tap 1.0. -/
theorem test_audProc :
    let t := run { State.reset with
        deemphA := 0x3F000000, au := { State.reset.au with taps := [(0, 0x3F800000)] } }
      (.audProc 0 8 [0x3F800000, 0x3F800000, 0x3F800000, 0])
    t.resp = [0x4000, 0x5FFF, 0x6FFF, 0x3800, 4] ∧ t.deemphY = 0x3EE00000 := by decide +kernel
/-- V-AUD-4 and the clip rows of V-AUD-1: a negative PCM word is sign-extended. -/
theorem test_audProc_negative :
    (run { State.reset with au := { State.reset.au with d := 2, taps := [(0, 0x3F800000)] } }
      (.audProc 0 8 [0xBF800000, 0xBE800000, 0x3F000000])).resp = [0xFFFFE000, 1] ∧
    (run { State.reset with au := { State.reset.au with taps := [(0, 0x3F800000)] } }
      (.audProc 0 8 [0xC0400000])).resp = [0xFFFF8001, 1] := by decide +kernel

/-- R370: an input that completes no group of RB moves RB alone. -/
theorem test_rdsProc :
    run { State.reset with rb := { State.reset.rb with d := 2 } } (.rdsProc 0 [0x3F800000])
      = { State.reset with
          rb := { State.reset.rb with d := 2, phase := 1, dl := [(0, 0x3F800000)] }, cp := 2 } := by
  decide

/-- V-RDS-4: chips 1 and 0 at the second and fourth sample give the bit 0. -/
theorem test_rdsSlice :
    run { State.reset with chipInc := 0x3F000000 }
      (.rdsSlice 0 [0x3F800000, 0x3F800000, 0x3F800000, 0xBF800000])
      = { State.reset with chipInc := 0x3F000000, bitcnt := 1, cp := 5 } := by decide +kernel

/-- V-RDS-1. -/
theorem test_rdsChip : run State.reset (.rdsChip 0 [0, 1, 0, 1, 1, 1])
    = { State.reset with prevBit := true, cp := 7 } := by decide
/-- V-RDS-2: MAN_SLIP keeps the second chip of the invalid pair. -/
theorem test_rdsChip_slip : run { State.reset with ctrl := 0x11 } (.rdsChip 0 [0, 1, 1, 1, 0])
    = { State.reset with ctrl := 0x11, shift := 1, bitcnt := 1, cp := 6 } := by decide

/-- V-SYNC-4. -/
theorem test_rdsBit_lock : run State.reset (.rdsBit 0 (windowWords 0x00000FC))
    = { State.reset with
        shift := 0xFC, haveSync := true, slot := 1, syncCount := 1, cp := 27 } := by decide +kernel
/-- V-SYNC-3: block B is stored although its syndrome is not B's offset. -/
theorem test_rdsBit_block :
    run { State.reset with shift := 0x048D06A, haveSync := true, slot := 1, group0 := 0x1234 }
      (.rdsBit 0 (windowWords 0))
      = { State.reset with haveSync := true, slot := 2, group0 := 0x1234, cp := 27 } := by
  decide +kernel

/-- V-CRC-3 and one row of V-CRC-1. -/
theorem test_crcSyn :
    (runs [.crcSyn 0 0 0, .crcSyn 0 0 0x03FFFFFF, .crcSyn 0 0 0xFC0000FC, .crcSyn 0 0 0x048D122]).resp
      = [0, 0x332, 0x000100FC, 0x000501B4] := by decide +kernel
/-- V-CRC-4. -/
theorem test_crc10 : crc10 0x0001 = 0x1B9 ∧ crc10 0x8000 = 0x077 ∧ crc10 0xFFFF = 0x0CD ∧
    crc10 0x1234 = 0x096 ∧ crc10 0xABCD = 0x05B := by decide +kernel

/-- V-PS-3. -/
theorem test_rdsGroup : run State.reset (.rdsGroup 0 0 0x1234 0x0800 0 0x4142)
    = { State.reset with psBuf0 := 0x20204241, psMask := 1, groupCount := 1, cp := 5 } := by decide
/-- Step 7 of the E6 table: a control character is stored as a space, and the name is published. -/
theorem test_rdsGroup_publish :
    run { State.reset with
        psBuf0 := 0x4A444152, psBuf1 := 0x2020204F, psMask := 0xF, psPub0 := 0x4A444152
        psPub1 := 0x2020204F, psValid := true, psPubCount := 2, groupCount := 6 }
      (.rdsGroup 0 0 0x1234 2 0 0x077E)
      = { State.reset with
          psBuf0 := 0x4A444152, psBuf1 := 0x20207E20, psMask := 0xF, psPub0 := 0x4A444152
          psPub1 := 0x20207E20, psValid := true, psNew := true, psPubCount := 3, groupCount := 7
          cp := 5 } := by decide

/-- The first word of V-CHAIN-1, before any use of fatan2. -/
theorem test_chainU8 :
    let t := run { State.reset with
        ctrl := 0, audGain := 0x3E800000
        ch := { State.reset.ch with taps := [(0, 0x3F800000)] }
        au := { State.reset.au with taps := [(0, 0x3F800000)] } } (.chainU8 0 [0x80FF])
    t.resp = [0, 1] ∧ t.fmdPrevI = 0x3F7F0000 ∧ t.fmdPrevQ = 0x3B800000 ∧ t.fmdHasPrev = true := by
  decide +kernel

/-! ## Arithmetic: the corners of 43_audio.md's rounding and of IEEE 754 -/

/-- V-AUD-1: ties of round_half_away, and 0.5 · 32767. -/
theorem test_roundHalfAway : F32.roundHalfAway 0x3F000000 = 1 ∧ F32.roundHalfAway 0x40200000 = 3 ∧
    F32.roundHalfAway 0xC0200000 = -3 ∧ F32.mul 0x37800100 0x46FFFE00 = some 0x3F000000 ∧
    F32.mul 0x38A00140 0x46FFFE00 = some 0x40200000 := by decide +kernel
/-- Overflow, the least subnormal halved (a tie to 0) and one and a half of it (a tie to 2). -/
theorem test_rounding : F32.add 0x7F7FFFFF 0x7F7FFFFF = some 0x7F800000 ∧
    F32.mul 0x00000001 0x3F000000 = some 0 ∧ F32.mul 0x00000003 0x3F000000 = some 2 ∧
    F32.div 0x3F800000 0x40400000 = some 0x3EAAAAAB := by decide +kernel

/-! ## Witnesses: states and operands that meet the hypotheses of each statement, together -/

/-- A command answers the state `run` gives. -/
theorem exec_run (i : Instr) (s : State) : exec i s = .next (run s i) := by
  rw [run, exec_command]
  rfl

theorem witness_DecodeEncodeRoundTrip :
    (Instr.rdsBit 1 (List.replicate 65535 0)).framed = true ∧ (Instr.nop 1 1).framed = true := by
  constructor
  · rw [Laws.framed_iff, Instr.count, List.length_replicate]
  · decide

theorem witness_DecodedWordsAreTheEncoding :
    decode [0x53000001#32, 7#32, 9#32] = .ok (.rdsBit 0 [7], [9]) := rfl

theorem witness_StepRunsDecodedCommand :
    decode ((sent [0x54000000, 0x0048D06A]).stream.drop (sent [0x54000000, 0x0048D06A]).cp)
      = .ok (.crcSyn 0 0 0x0048D06A, []) := rfl

theorem witness_StepConsumesTheCommand :
    decode ((sent [0x22000000, 5]).stream.drop (sent [0x22000000, 5]).cp)
      = .ok (.mix 0 [], [5]) := rfl

/-- No word, the command word alone, and the whole command (R619). -/
theorem witness_PartialCommandWaits :
    (Instr.crcSyn 0 0 6).framed = true ∧
    (∀ k, k < 3 → (sent ((encode (.crcSyn 0 0 6)).take k)).cp
        ≤ (sent ((encode (.crcSyn 0 0 6)).take k)).stream.length ∧
      (sent ((encode (.crcSyn 0 0 6)).take k)).stream.drop
        (sent ((encode (.crcSyn 0 0 6)).take k)).cp = (encode (.crcSyn 0 0 6)).take k) ∧
    1 < (encode (.crcSyn 0 0 6)).length ∧ ¬ 2 < (encode (.crcSyn 0 0 6)).length :=
  ⟨by decide, fun _ _ => ⟨Nat.zero_le _, rfl⟩, by decide, by decide⟩

theorem witness_IllegalCommandOnlySetsIllegal :
    (Instr.reset 0x20 0).legal = false ∧ (Instr.firProcR 4 0 []).legal = false ∧
    (sent [0x04FFFFFF, 1]).stream.drop (sent [0x04FFFFFF, 1]).cp = 0x04FFFFFF :: [1] ∧
    ∀ o, opcodeByte o ≠ (0x04FFFFFF#32).extractLsb' 24 8 :=
  ⟨by decide, by decide, rfl, fun o => by cases o <;> decide⟩

theorem witness_LegalCommandNeverSetsIllegal :
    (Instr.nop 0 0).legal = true ∧
    exec (.nop 0 0) { State.reset with err := 1 } = .next { State.reset with err := 1, cp := 1 } ∧
    (1#3).getLsbD 0 = true := ⟨by decide, rfl, by decide⟩

/-- Each of the three bits. -/
theorem witness_ErrorsAreSingleAndPrecise :
    (run State.reset (.nop 0 1)).err &&& ~~~State.reset.err = 1 ∧
    (run State.reset (.regRead 0 0x0006)).err &&& ~~~State.reset.err = 2 ∧
    (run State.reset (wr 0x0044 4)).err &&& ~~~State.reset.err = 4 ∧
    ∀ i, exec i State.reset = .next (run State.reset i) :=
  ⟨by decide, by decide, by decide, fun i => exec_run i _⟩

theorem witness_ErrorBitsAreSticky :
    exec (wr 0x0002 5) { State.reset with err := 7 } = .next { State.reset with err := 2, cp := 2 } ∧
    (7#3).getLsbD 2 = true ∧ (2#3).getLsbD 2 = false := ⟨rfl, by decide, by decide⟩

theorem witness_LegalUnitCommandsAreSafe :
    decode ((sent [0x52000001, 1]).stream.drop (sent [0x52000001, 1]).cp) = .ok (.rdsChip 0 [1], []) ∧
    (Instr.rdsChip 0 [1]).legal = true ∧ isRegCommand (.rdsChip 0 [1]) = false :=
  ⟨rfl, by decide, rfl⟩

/-- No unit and every unit. -/
theorem witness_ResetClearsTheMaskedUnits :
    (0#8).toNat < 32 ∧ (31#8).toNat < 32 := by decide

/-- The first and the last register, the last tap of the last engine. -/
theorem witness_RegReadEmitsTheRegister :
    (0x0000, 1) ∈ registerNats State.reset ∧ (0x004F, 0) ∈ registerNats State.reset ∧ 1022 < 1023 ∧
    (3, State.reset.rl.taps) ∈ [(0, State.reset.ch.taps), (1, State.reset.au.taps),
      (2, State.reset.rb.taps), (3, State.reset.rl.taps)] :=
  ⟨by decide, by decide, by decide, by decide⟩

/-- An address between registers, the one past the last tap of CH, and the last of the space. -/
theorem witness_UnmappedReadRaisesBadReg :
    ∀ addr ∈ [0x0006#16, 0x0050#16, 0x0FFF#16, 0x13FF#16, 0x5000#16, 0xFFFF#16],
      (∀ v, (addr.toNat, v) ∉ registerNats State.reset) ∧ ¬ IsTapAddr addr.toNat := by
  intro addr h
  constructor
  · intro v hv
    have key : [0x0006#16, 0x0050#16, 0x0FFF#16, 0x13FF#16, 0x5000#16, 0xFFFF#16].all
        (fun a => decide (a.toNat ∉ (registerNats State.reset).map (·.1))) = true := by decide +kernel
    exact of_decide_eq_true (List.all_eq_true.1 key addr h) (List.mem_map.2 ⟨_, hv, rfl⟩)
  · rintro ⟨n, k, hn, hk, e⟩
    simp only [List.mem_cons, List.not_mem_nil, or_false] at h
    obtain rfl | rfl | rfl | rfl | rfl | rfl := h <;> simp only [BitVec.toNat_ofNat] at e <;> omega

/-- A read-only register, an unmapped address, the one past the last tap of RL. -/
theorem witness_RefusedWriteRaisesBadReg :
    ∀ addr ∈ [0x0003#16, 0x000A#16, 0x0007#16, 0x0042#16, 0x43FF#16],
      addr.toNat ∉ writableAddrs ∧ ¬ IsTapAddr addr.toNat := by
  intro addr h
  constructor
  · have key : [0x0003#16, 0x000A#16, 0x0007#16, 0x0042#16, 0x43FF#16].all
        (fun a => decide (a.toNat ∉ writableAddrs)) = true := by decide +kernel
    exact of_decide_eq_true (List.all_eq_true.1 key addr h)
  · rintro ⟨n, k, hn, hk, e⟩
    simp only [List.mem_cons, List.not_mem_nil, or_false] at h
    obtain rfl | rfl | rfl | rfl | rfl := h <;> simp only [BitVec.toNat_ofNat] at e <;> omega

/-- Each engine; the ends of the legal values of T and D, and the first illegal ones past them. -/
theorem witness_FirConfigurationWrites :
    (1, RealInst.au) ∈ [(1, RealInst.au), (2, RealInst.rb), (3, RealInst.rl)] ∧
    (3, RealInst.rl) ∈ [(1, RealInst.au), (2, RealInst.rb), (3, RealInst.rl)] ∧
    ((1#32).toNat % 2 = 1 ∧ (1#32).toNat ≤ 1023) ∧
    ((1023#32).toNat % 2 = 1 ∧ (1023#32).toNat ≤ 1023) ∧
    ¬ ((1022#32).toNat % 2 = 1 ∧ (1022#32).toNat ≤ 1023) ∧
    ¬ ((1025#32).toNat % 2 = 1 ∧ (1025#32).toNat ≤ 1023) ∧
    (1 ≤ (1#32).toNat ∧ (1#32).toNat ≤ 65535) ∧
    (1 ≤ (65535#32).toNat ∧ (65535#32).toNat ≤ 65535) ∧
    ¬ (1 ≤ (0#32).toNat ∧ (0#32).toNat ≤ 65535) ∧
    ¬ (1 ≤ (65536#32).toNat ∧ (65536#32).toNat ≤ 65535) := by decide +kernel

theorem witness_TapWritesStoreOneWord :
    1022 < 1023 ∧ Memory.wf 0 State.reset.ch.taps = true ∧
    (3, RealInst.rl) ∈ [(1, RealInst.au), (2, RealInst.rb), (3, RealInst.rl)] ∧
    Memory.wf 0 (State.reset.fir .rl).taps = true := by decide

theorem witness_ResetRegisterValues :
    (0x0000, 1) ∈ resetNats ∧ (0x004F, 0) ∈ resetNats ∧ IsTapAddr (0x1000#16).toNat ∧
    IsTapAddr (0x43FE#16).toNat :=
  ⟨by decide, by decide, ⟨0, 0, by decide, by decide, rfl⟩, ⟨3, 1022, by decide, by decide, rfl⟩⟩

/-- An engine at the ends of its ranges: T = TMAX, D = DMAX, cursor and phase at their last value,
the last tap and the last delay entry listed. -/
def edgeFir {α : Type} (x : α) : Fir α :=
  ⟨1023, 65535, 65534, 1022, [(0, 0x3F800000), (1022, 0x80000000)], [(1022, x)]⟩

theorem edgeFir_real : FirOk F32.posZero (edgeFir 0x3F800000#32) :=
  ⟨by decide, by decide, by decide, by decide, by decide, by decide, by decide, by decide,
    by decide⟩

theorem edgeFir_cplx : FirOk cplxZero (edgeFir ⟨0, 0x3F800000#32⟩) :=
  ⟨by decide, by decide, by decide, by decide, by decide, by decide, by decide, by decide,
    by decide⟩

theorem initialFir_real : FirOk F32.posZero (Fir.initial Word) :=
  ⟨by decide, by decide, by decide, by decide, by decide, by decide, by decide, by decide,
    by decide⟩

theorem initialFir_cplx : FirOk cplxZero (Fir.initial Cplx) :=
  ⟨by decide, by decide, by decide, by decide, by decide, by decide, by decide, by decide,
    by decide⟩

theorem witness_FirProcRealRun :
    (3#8, RealInst.rl) ∈ [(1#8, RealInst.au), (2#8, RealInst.rb), (3#8, RealInst.rl)] ∧
    FirOk F32.posZero ({ State.reset with rl := edgeFir 0x3F800000 }.fir .rl) ∧
    FirOk F32.posZero (State.reset.fir .au) := ⟨by decide, edgeFir_real, initialFir_real⟩

theorem witness_FirProcComplexRun :
    FirOk cplxZero { State.reset with ch := edgeFir ⟨0, 0x3F800000⟩ }.ch ∧
    FirOk cplxZero State.reset.ch := ⟨edgeFir_cplx, initialFir_cplx⟩

/-- Two engines alike but for delay line, cursor and phase. -/
theorem witness_FirOutputsForgetBeforeReset :
    (1#8, RealInst.au) ∈ [(1#8, RealInst.au), (2#8, RealInst.rb), (3#8, RealInst.rl)] ∧
    ({ State.reset with au := ⟨3, 2, 1, 2, [(0, 5)], [(1, 6)]⟩ }.fir .au).t
      = ({ State.reset with au := ⟨3, 2, 0, 1, [(0, 5)], []⟩ }.fir .au).t ∧
    ({ State.reset with au := ⟨3, 2, 1, 2, [(0, 5)], [(1, 6)]⟩ }.fir .au).d
      = ({ State.reset with au := ⟨3, 2, 0, 1, [(0, 5)], []⟩ }.fir .au).d ∧
    ({ State.reset with au := ⟨3, 2, 1, 2, [(0, 5)], [(1, 6)]⟩ }.fir .au).taps
      = ({ State.reset with au := ⟨3, 2, 0, 1, [(0, 5)], []⟩ }.fir .au).taps ∧
    { State.reset with au := ⟨3, 2, 1, 2, [(0, 5)], [(1, 6)]⟩ }.nanDraws
      = { State.reset with au := ⟨3, 2, 0, 1, [(0, 5)], []⟩ }.nanDraws ∧
    ∀ s, exec (.firReset 1 0) s = .next (run s (.firReset 1 0)) :=
  ⟨by decide, rfl, rfl, rfl, rfl, fun s => exec_run _ s⟩

/-- The capacity exactly the number of inputs. -/
theorem witness_FirChunkingIsInvisible :
    (2#8, RealInst.rb) ∈ [(1#8, RealInst.au), (2#8, RealInst.rb), (3#8, RealInst.rl)] ∧
    [1#32, 2#32].length + [3#32].length ≤ (3#32).toNat := by decide

/-- An oscillator step, and a reset of the RDS unit. -/
theorem witness_PhaseOnlyMovesWithTheOscillator :
    (run { State.reset with ncoInc := 0xBF490FDB } (.ncoNext 0 1)).ncoPhase ≠ State.reset.ncoPhase ∧
    (run { State.reset with ncoPhase := 7 } (.reset 0x08 0)).ncoPhase ≠ 7 ∧
    ∀ i s, exec i s = .next (run s i) :=
  ⟨by rw [test_ncoNext]; decide, by decide, exec_run⟩

/-- Both ends of the phase, with the increments next to 2π and -2π, under a command and a step. -/
theorem witness_PhaseStaysInRange :
    let s := { sent [0x22000001, 1, 2] with ncoPhase := 0x40C90FDB, ncoInc := 0x40C90FDA }
    let r := { State.reset with ncoPhase := 0, ncoInc := 0xC0C90FDA }
    (PhaseInRange s ∧ IncInRange s) ∧ (PhaseInRange r ∧ IncInRange r) ∧
    step s = .next (run s (.mix 0 [⟨1, 2⟩])) ∧ (run s (.mix 0 [⟨1, 2⟩])).ncoInc = s.ncoInc ∧
    exec (.ncoNext 0 3) r = .next (run r (.ncoNext 0 3)) := by
  intro s r
  have hd : decode (fetch s) = .ok (.mix 0 [⟨1, 2⟩], []) := rfl
  refine ⟨⟨?_, ?_⟩, ⟨?_, ?_⟩, by rw [step, hd]; exact exec_run _ _, ?_, exec_run _ _⟩
  · exact ⟨by decide +kernel, by decide +kernel⟩
  · exact ⟨by decide +kernel, by decide +kernel⟩
  · exact ⟨by decide +kernel, by decide +kernel⟩
  · exact ⟨by decide +kernel, by decide +kernel⟩
  · exact (keeps_mixBody [⟨1, 2⟩] _).ncoInc

theorem witness_AudProcRun :
    FirOk F32.posZero { State.reset with au := edgeFir 0x3F800000 }.au := edgeFir_real

/-- Both commands. -/
theorem witness_PcmStaysInRange :
    (∃ cap xs, Instr.audProc 0 8 [0xC0400000] = .audProc 0 cap xs) ∧
    (∃ ws, Instr.chainU8 0 [0x80FF] = .chainU8 0 ws) ∧
    ∀ i, exec i State.reset = .next (run State.reset i) :=
  ⟨⟨_, _, rfl⟩, ⟨_, rfl⟩, fun i => exec_run i _⟩

theorem witness_RdsProcRun :
    FirOk F32.posZero { State.reset with rb := edgeFir 0x3F800000 }.rb ∧
    FirOk F32.posZero { State.reset with rb := edgeFir 0x3F800000 }.rl :=
  ⟨edgeFir_real, initialFir_real⟩

/-- Signals of opposite sign from states alike in accumulator and increment only. -/
theorem witness_SlicerIsOpenLoop :
    { State.reset with chipInc := 0x3F000000 }.chipInc
      = { State.reset with chipInc := 0x3F000000, shift := 3 }.chipInc ∧
    State.reset.chipAcc = { State.reset with shift := 3 }.chipAcc ∧
    State.reset.nanDraws = { State.reset with shift := 3 }.nanDraws ∧
    [0x3F800000#32].length = [0xBF800000#32].length ∧
    ∀ s ls, exec (.rdsSlice 0 ls) s = .next (run s (.rdsSlice 0 ls)) :=
  ⟨rfl, rfl, rfl, rfl, fun s _ => exec_run _ s⟩

/-- The three clauses: nothing held, a valid pair, an invalid pair. -/
theorem witness_RdsChipOne :
    State.reset.chipPend = false ∧
    ({ State.reset with chipPend := true }.chipPend = true ∧
      { State.reset with chipPend := true }.chip0 ≠ (1#32).getLsbD 0) ∧
    ({ State.reset with chipPend := true }.chipPend = true ∧
      { State.reset with chipPend := true }.chip0 = (2#32).getLsbD 0) := by decide

theorem witness_ManchesterRoundTrip :
    State.reset.chipPend = false ∧ State.reset.chip0 = false := ⟨rfl, rfl⟩

/-- The first and last row of both tables, and the pair C, D with bit 18. -/
theorem witness_OffsetWordsAndSingleFlips :
    (0x0FC#10, 1#3) ∈ offsetClasses ∧ (0x1B4#10, 5#3) ∈ offsetClasses ∧
    flipSyndromes[0]? = some 0x001#10 ∧ flipSyndromes[25]? = some 0x077#10 ∧
    flipSyndromes[18]? = some 0x0DC#10 ∧ (0x168#10, 3#3) ∈ offsetClasses := by decide

/-- A window that fills and locks, one already full that does not, and one not yet full. -/
theorem witness_HuntingBit :
    let s := { State.reset with shift := 0x07E, bitcnt := 25 }
    let t := { State.reset with bitcnt := 26 }
    (s.haveSync = false ∧ s.bitcnt.toNat ≤ 26 ∧
      0x0FC#26 = BitVec.ofNat 26 (2 * s.shift.toNat + (0#32).toNat % 2) ∧
      26 = min 26 (s.bitcnt.toNat + 1) ∧ syndrome 0x0FC#26 = 0x0FC#10) ∧
    (t.haveSync = false ∧ t.bitcnt.toNat ≤ 26 ∧
      1#26 = BitVec.ofNat 26 (2 * t.shift.toNat + (1#32).toNat % 2) ∧
      26 = min 26 (t.bitcnt.toNat + 1) ∧ syndrome 1#26 ≠ 0x0FC#10) ∧
    (State.reset.haveSync = false ∧ State.reset.bitcnt.toNat ≤ 26 ∧
      1 = min 26 (State.reset.bitcnt.toNat + 1)) := by decide +kernel

/-- A synchronized state with a given count and slot, its window full of ones. -/
def synced (n : BitVec 5) (slot : BitVec 2) : State :=
  { State.reset with haveSync := true, shift := 0x3FFFFFF, bitcnt := n, slot := slot }

/-- The count before its last value, and at it in each slot; the oldest bit falls out. -/
theorem witness_SyncedBit :
    (∀ n slot, (synced n slot).haveSync = true ∧
      0x3FFFFFE#26 = BitVec.ofNat 26 (2 * (synced n slot).shift.toNat + (2#32).toNat % 2) ∧
      0xFFFF#16 = (0x3FFFFFE#26).extractLsb' 10 16) ∧
    ((synced 24 0).bitcnt.toNat < 26 ∧ (synced 24 0).bitcnt.toNat < 25) ∧
    ((synced 25 0).bitcnt.toNat < 26 ∧ (synced 25 0).bitcnt.toNat = 25) ∧ (synced 25 0).slot = 0 ∧
    (synced 25 1).slot = 1 ∧ (synced 25 2).slot = 2 ∧ (synced 25 3).slot = 3 :=
  ⟨fun _ _ => ⟨rfl, (by decide : 0x3FFFFFE#26 =
    BitVec.ofNat 26 (2 * (0x3FFFFFF#26).toNat + (2#32).toNat % 2)), by decide⟩,
    by decide, by decide, rfl, rfl, rfl, rfl⟩

/-- An invalid pair, and a reset of the RDS unit. -/
theorem witness_SyncEndsOnlyByChipsOrReset :
    let s := { State.reset with haveSync := true, slot := 2, chipPend := true }
    s.haveSync = true ∧ (run s (.rdsChip 0 [0])).haveSync = false ∧
    (run s (.reset 0x08 0)).haveSync = false ∧ ∀ i, exec i s = .next (run s i) :=
  ⟨rfl, by decide, by decide, fun i => exec_run i _⟩

/-- Type 15, type 0 with every ignored bit set, and the two outcomes of a completed name. -/
theorem witness_RdsGroupEffect :
    ((0xF000#32).toNat / 2 ^ 12) % 16 ≠ 0 ∧ ((0xFFFF0FFF#32).toNat / 2 ^ 12) % 16 = 0 ∧
    (0xF#4 = 0xF#4 ∧ State.reset.psValid = false) ∧
    ¬ (0xF#4 = 0xF#4 ∧ (true = false ∨ 0x20202020#32 ≠ 0x20202020#32 ∨ 0#32 ≠ 0#32)) := by decide

theorem witness_PsNamePublishedOnce :
    State.reset.psMask = 0 ∧ State.reset.psValid = false ∧
    ∃ s4 s5 s6 : State,
      s4 = afterGroup (afterGroup (afterGroup (afterGroup State.reset 0x1234 0 0 0x5241) 0x1234 1 0
        0x4449) 0x1234 2 0 0x4F20) 0x1234 3 0 0x2020 ∧
      s5 = afterGroup s4 0x1234 3 0 0x2020 ∧ s6 = afterGroup s5 0x1234 1 0 0x444A :=
  ⟨rfl, rfl, _, _, _, rfl, rfl, rfl⟩

/-- Both values of RDS_EN. -/
theorem witness_ChainRun :
    let s := { State.reset with ch := edgeFir ⟨0, 0x3F800000⟩, rb := edgeFir 0x3F800000 }
    FirOk cplxZero s.ch ∧ FirOk F32.posZero s.au ∧ FirOk F32.posZero s.rb ∧ FirOk F32.posZero s.rl ∧
    s.ctrl.getLsbD 0 = true ∧ { s with ctrl := 0 }.ctrl.getLsbD 0 = false :=
  ⟨edgeFir_cplx, initialFir_real, edgeFir_real, initialFir_real, by decide, by decide⟩

theorem witness_ResponsesAreOnlyAppended :
    exec (.crcSyn 0 0 0) State.reset = .next (run State.reset (.crcSyn 0 0 0)) := exec_run _ _

theorem witness_OnlyTheHostConfigures :
    exec (.ncoNext 0 1) State.reset = .next (run State.reset (.ncoNext 0 1)) ∧
    (∀ sel addr v, Instr.ncoNext 0 1 ≠ .regWrite sel addr v) ∧
    ∀ sel imm fs f, Instr.ncoNext 0 1 ≠ .ncoSet sel imm fs f :=
  ⟨exec_run _ _, fun _ _ _ h => (nomatch h), fun _ _ _ _ h => (nomatch h)⟩

/-- The invariant and a step, with a command in the stream. -/
theorem witness_StepKeepsTheInvariant :
    Inv (sent [0x52000001, 1]) ∧ step (sent [0x52000001, 1])
      = .next { sent [0x52000001, 1] with chipPend := true, chip0 := true, cp := 2 } :=
  ⟨{ cp := by decide
     ch := initialFir_cplx
     au := initialFir_real
     rb := initialFir_real
     rl := initialFir_real
     bitcnt := by decide
     bitcntSync := by decide
     slot := by decide
     chip := by decide
     buf := fun c hc => by revert c; decide
     valid := by decide
     complete := by decide
     unpublished := by decide
     new := by decide }, rfl⟩

/-- The largest finite value and the smallest subnormal, with no zero sum and no zero divisor. -/
theorem witness_FloatResultsAreNearestEven :
    F32.isFinite 0x7F7FFFFF#32 = true ∧ F32.isFinite 0x80000001#32 = true ∧
    F32.value 0x7F7FFFFF#32 + F32.value 0x80000001#32 ≠ 0 ∧ F32.units 0x80000001#32 ≠ 0 := by
  decide +kernel

/-- An exact zero sum, an infinity with a finite value, with a value that is not 0 and with its
like, a division by zero. -/
theorem witness_FloatSpecialCases :
    (F32.isFinite 0x3F800000#32 ∧ F32.isFinite 0xBF800000#32 ∧
      F32.value 0x3F800000#32 + F32.value 0xBF800000#32 = 0) ∧
    (F32.isInf 0xFF800000#32 ∧ F32.isFinite 0x7F7FFFFF#32) ∧
    (¬ F32.isNaN 0x7F7FFFFF#32 ∧ ¬ F32.isZero 0x7F7FFFFF#32) ∧
    F32.sign 0xFF800000#32 = F32.sign 0xFF800000#32 ∧
    (F32.isFinite 0x00000001#32 ∧ F32.isZero 0x80000000#32 ∧ ¬ F32.isZero 0x00000001#32) := by
  decide +kernel

/-- Neighbouring subnormals, equal values, and for each clause with a NaN, an infinity or the two
zeros such operands. -/
theorem witness_FloatDifferencesAndComparisons :
    (F32.isFinite 0x00000001#32 ∧ F32.isFinite 0x00000002#32 ∧
      F32.value 0x00000001#32 - F32.value 0x00000002#32 ≠ 0) ∧
    (F32.isFinite 0x80000000#32 ∧ F32.isFinite 0#32 ∧
      F32.value 0x80000000#32 - F32.value 0#32 = 0) ∧
    (F32.isZero 0x80000000#32 ∧ F32.isZero 0#32) ∧ F32.isNaN 0x7FC00000#32 ∧
    (F32.isInf 0x7F800000#32 ∧ F32.isInf 0xFF800000#32 ∧
      F32.sign 0x7F800000#32 ≠ F32.sign 0xFF800000#32) ∧ F32.isFinite 0x7F7FFFFF#32 := by
  decide +kernel

/-- A tie: 0.5 is half a unit from 1, and 1.0 is farther from zero. -/
theorem witness_RoundHalfAwayIsNearest :
    F32.isFinite 0x3F000000#32 = true ∧
    2 * |F32.value 0x3F000000#32 - F32.roundHalfAway 0x3F000000#32 * 2 ^ 149| = 2 ^ 149 := by
  decide +kernel

end Sys2Proof.Tests
end

section
/-! PROOFS. The binary32 arithmetic of 00_scope.md R9 to R12. The magnitudes of R9, taken as numbers,
are in the order of their values, and neighbours are one step apart; so `roundMag`, which picks one of
two neighbours, gives the nearest of all values, overflow included. The other statements are the
branches of the operations and comparisons, one lemma each. -/

namespace Sys2Proof.Machine.F32

open Sys2Proof

/-! ## The bits below the sign (R9) -/

/-- The low 31 bits of a pattern, exponent and fraction together, as one number. -/
def mag (a : Word) : Nat := a.toNat % 2 ^ 31

/-- The units of 2^-149 that a magnitude encodes. It goes on past `infMag` with the same spacing rule,
as if there were larger exponents, so that rounding can be judged before it is cut off at infinity. -/
def magUnits (m : Nat) : Nat :=
  if m / 2 ^ 23 = 0 then m % 2 ^ 23 else (2 ^ 23 + m % 2 ^ 23) * 2 ^ (m / 2 ^ 23 - 1)

theorem expo_eq_mag_div (a : Word) : expo a = mag a / 2 ^ 23 := by
  rw [expo, mag, BitVec.extractLsb'_toNat, Nat.shiftRight_eq_div_pow]
  omega

theorem frac_eq_mag_mod (a : Word) : frac a = mag a % 2 ^ 23 := by
  rw [frac, mag, BitVec.extractLsb'_toNat, Nat.shiftRight_eq_div_pow]
  omega

theorem units_eq_magUnits (a : Word) : units a = magUnits (mag a) := by
  rw [units, magUnits, expo_eq_mag_div, frac_eq_mag_mod]

theorem mag_lt (a : Word) : mag a < 2 ^ 31 := Nat.mod_lt _ (by decide)

theorem isFinite_iff_mag_lt (a : Word) : isFinite a = true ↔ mag a < infMag := by
  have hm := mag_lt a
  rw [isFinite, bne_iff_ne, expo_eq_mag_div, infMag]
  omega

theorem toNat_pack {m : Nat} (hm : m < 2 ^ 31) (neg : Bool) :
    (pack neg m).toNat = if neg then 2 ^ 31 + m else m := by
  rw [pack, BitVec.toNat_ofNat]
  cases neg <;> simp <;> omega

theorem mag_pack {m : Nat} (hm : m < 2 ^ 31) (neg : Bool) : mag (pack neg m) = m := by
  rw [mag, toNat_pack hm]
  cases neg <;> simp <;> omega

theorem sign_pack {m : Nat} (hm : m < 2 ^ 31) (neg : Bool) : sign (pack neg m) = neg := by
  rw [sign, BitVec.getLsbD, toNat_pack hm, Nat.testBit_eq_decide_div_mod_eq]
  cases neg <;> simp <;> omega

/-- The two infinities. -/
theorem pack_infMag (neg : Bool) :
    pack neg infMag = if neg then 0xFF800000#32 else 0x7F800000#32 := by cases neg <;> rfl

/-- The two zeros. -/
theorem pack_zero (neg : Bool) : pack neg 0 = if neg then 0x80000000#32 else 0 := by
  cases neg <;> rfl

/-! ## Magnitudes in the order of their values -/

/-- `q` steps of 2^sh units are encoded by `sh * 2^23 + q`; at `q = 2^24` the carry has run into the
exponent and the encoding is still right. -/
theorem magUnits_encode {sh q : Nat} (hlo : sh = 0 ∨ 2 ^ 23 ≤ q) (hhi : q ≤ 2 ^ 24) :
    magUnits (sh * 2 ^ 23 + q) = q * 2 ^ sh := by
  rcases Nat.lt_or_ge q (2 ^ 23) with hsub | hnorm
  · obtain rfl : sh = 0 := by omega
    rw [magUnits, if_pos (by omega)]
    omega
  · rw [magUnits, if_neg (by omega)]
    rcases Nat.lt_or_eq_of_le hhi with hlt | rfl
    · rw [show (sh * 2 ^ 23 + q) / 2 ^ 23 - 1 = sh by omega,
        show 2 ^ 23 + (sh * 2 ^ 23 + q) % 2 ^ 23 = q by omega]
    · rw [show (sh * 2 ^ 23 + 2 ^ 24) / 2 ^ 23 - 1 = sh + 1 by omega,
        show 2 ^ 23 + (sh * 2 ^ 23 + 2 ^ 24) % 2 ^ 23 = 2 ^ 23 by omega, Nat.pow_succ]
      omega

/-- Every magnitude is a number of steps of its exponent's spacing. -/
theorem exists_encode (m : Nat) :
    ∃ sh q, m = sh * 2 ^ 23 + q ∧ (sh = 0 ∨ 2 ^ 23 ≤ q) ∧ q < 2 ^ 24 := by
  rcases Nat.lt_or_ge m (2 ^ 23) with hsub | hnorm
  · exact ⟨0, m, by omega, .inl rfl, by omega⟩
  · exact ⟨m / 2 ^ 23 - 1, 2 ^ 23 + m % 2 ^ 23, by omega, .inr (by omega), by omega⟩

theorem magUnits_strictMono : StrictMono magUnits := by
  refine strictMono_nat_of_lt_succ fun m => ?_
  obtain ⟨sh, q, rfl, hlo, hhi⟩ := exists_encode m
  rw [Nat.add_assoc, magUnits_encode hlo hhi.le, magUnits_encode (by omega) hhi]
  exact Nat.mul_lt_mul_of_pos_right q.lt_succ_self (Nat.two_pow_pos sh)

theorem magUnits_infMag : magUnits infMag = 2 ^ 24 * 2 ^ 253 := by
  rw [show infMag = 253 * 2 ^ 23 + 2 ^ 24 by decide]
  exact magUnits_encode (by decide) (by decide)

/-- The largest finite magnitude. -/
theorem magUnits_pred_infMag : magUnits (infMag - 1) = (2 ^ 24 - 1) * 2 ^ 253 := by
  rw [show infMag - 1 = 253 * 2 ^ 23 + (2 ^ 24 - 1) by decide]
  exact magUnits_encode (by decide) (by decide)

/-! ## Rounding to nearest, ties to even (R10) -/

/-- How far the magnitude `m` is from `num / den` units, in parts of `1 / den` unit. -/
def magDist (num den m : Nat) : Nat := ((num : Int) - magUnits m * den).natAbs

/-- Of all magnitudes, those past `infMag` too, `m` is nearest to `num / den` units, and is even where
another one is as near. -/
def NearestMag (num den m : Nat) : Prop :=
  ∀ c, magDist num den m ≤ magDist num den c ∧
    (magDist num den m = magDist num den c → c ≠ m → m % 2 = 0)

/-- The lower end `L` of a step is nearest up to half the step, and alone so below the half. -/
theorem natAbs_sub_lower_le {num L S rem C : Nat} (hnum : num = L + rem) (hhalf : 2 * rem ≤ S)
    (hC : C ≤ L ∨ L + S ≤ C) :
    ((num : Int) - L).natAbs ≤ ((num : Int) - C).natAbs ∧
      (((num : Int) - L).natAbs = ((num : Int) - C).natAbs → C ≠ L → 2 * rem = S) := by
  omega

/-- The upper end `L + S` of a step is nearest from half the step on, and alone so past the half. -/
theorem natAbs_sub_upper_le {num L S rem C : Nat} (hnum : num = L + rem) (hrem : rem < S)
    (hhalf : S ≤ 2 * rem) (hC : C ≤ L ∨ L + S ≤ C) :
    ((num : Int) - (L + S : Nat)).natAbs ≤ ((num : Int) - C).natAbs ∧
      (((num : Int) - (L + S : Nat)).natAbs = ((num : Int) - C).natAbs → C ≠ L + S →
        2 * rem = S) := by
  omega

/-- A value between two neighbours, `rem` of a step of `2^sh * den` past the lower one, is nearest to
the one that the half step decides. -/
theorem nearestMag_of_neighbours {num den sh q rem : Nat} (hlo : sh = 0 ∨ 2 ^ 23 ≤ q)
    (hhi : q < 2 ^ 24) (hnum : num = q * 2 ^ sh * den + rem) (hrem : rem < 2 ^ sh * den) {up : Bool}
    (hup : up = true ↔ 2 ^ sh * den < 2 * rem ∨ (2 * rem = 2 ^ sh * den ∧ q % 2 = 1)) :
    NearestMag num den (sh * 2 ^ 23 + if up then q + 1 else q) := by
  have hden : 0 < den := Nat.pos_of_mul_pos_left (Nat.zero_lt_of_lt hrem)
  have hL : magUnits (sh * 2 ^ 23 + q) * den = q * 2 ^ sh * den := by rw [magUnits_encode hlo hhi.le]
  have hH : magUnits (sh * 2 ^ 23 + (q + 1)) * den = q * 2 ^ sh * den + 2 ^ sh * den := by
    rw [magUnits_encode (q := q + 1) (by omega) hhi]
    ring
  have hmono {c d : Nat} (h : c ≤ d) : magUnits c * den ≤ magUnits d * den :=
    Nat.mul_le_mul_right _ (magUnits_strictMono.monotone h)
  have hne {c d : Nat} (h : c ≠ d) : magUnits c * den ≠ magUnits d * den := fun he =>
    h (magUnits_strictMono.injective (Nat.eq_of_mul_eq_mul_right hden he))
  intro c
  have hC : magUnits c * den ≤ q * 2 ^ sh * den ∨
      q * 2 ^ sh * den + 2 ^ sh * den ≤ magUnits c * den := by
    rw [← hH, ← hL]
    exact (Nat.lt_or_ge c (sh * 2 ^ 23 + (q + 1))).imp (fun h => hmono (by omega)) hmono
  simp only [magDist, ← Nat.cast_mul]
  cases up with
  | false =>
    simp only [Bool.false_eq_true, if_false, false_iff] at hup ⊢
    obtain ⟨hle, heq⟩ := natAbs_sub_lower_le hnum (by omega) hC
    rw [hL]
    refine ⟨hle, fun he hcm => ?_⟩
    have htie := heq he (hL ▸ hne hcm)
    omega
  | true =>
    simp only [if_true, true_iff] at hup ⊢
    obtain ⟨hle, heq⟩ := natAbs_sub_upper_le hnum hrem (by omega) hC
    rw [hH]
    refine ⟨hle, fun he hcm => ?_⟩
    have htie := heq he (hH ▸ hne hcm)
    omega

/-- The quotient of `roundMag` has at most 24 bits, and all 24 of them unless the spacing is one unit. -/
theorem div_pow_log2_bounds (n : Nat) :
    (Nat.log2 n - 23 = 0 ∨ 2 ^ 23 ≤ n / 2 ^ (Nat.log2 n - 23)) ∧
      n / 2 ^ (Nat.log2 n - 23) < 2 ^ 24 := by
  have hlt : n < 2 ^ (Nat.log2 n + 1) := Nat.lt_log2_self
  constructor
  · refine (Nat.eq_zero_or_pos _).imp_right fun hsh => ?_
    have hn : n ≠ 0 := by
      rintro rfl
      simp at hsh
    rw [Nat.le_div_iff_mul_le (Nat.two_pow_pos _), ← Nat.pow_add,
      show 23 + (Nat.log2 n - 23) = Nat.log2 n by omega]
    exact Nat.log2_self_le hn
  · rw [Nat.div_lt_iff_lt_mul (Nat.two_pow_pos _), ← Nat.pow_add]
    exact hlt.trans_le (Nat.pow_le_pow_right (by decide) (by omega))

/-- `roundMag` is the nearest magnitude, cut off at infinity. -/
theorem roundMag_eq_min_nearest (num : Nat) {den : Nat} (hden : 0 < den) :
    ∃ m, roundMag num den = min m infMag ∧ NearestMag num den m := by
  refine ⟨_, rfl, ?_⟩
  have hq : num / (den * 2 ^ (Nat.log2 (num / den) - 23))
      = num / den / 2 ^ (Nat.log2 (num / den) - 23) := (Nat.div_div_eq_div_mul ..).symm
  obtain ⟨hlo, hhi⟩ := div_pow_log2_bounds (num / den)
  rw [← hq] at hlo hhi
  generalize Nat.log2 (num / den) - 23 = sh at hlo hhi ⊢
  have hpos : 0 < den * 2 ^ sh := Nat.mul_pos hden (Nat.two_pow_pos sh)
  have hsplit := Nat.div_add_mod num (den * 2 ^ sh)
  refine nearestMag_of_neighbours hlo hhi (rem := num % (den * 2 ^ sh)) ?_ ?_ ?_
  · calc num = den * 2 ^ sh * (num / (den * 2 ^ sh)) + num % (den * 2 ^ sh) := hsplit.symm
      _ = _ := by ring
  · rw [Nat.mul_comm _ den]
    exact Nat.mod_lt _ hpos
  · simp [Nat.mul_comm _ den]

/-- Below the midpoint past the largest finite value a nearest magnitude is finite, and from it on it is
not: at the midpoint the largest finite magnitude is odd. -/
theorem NearestMag.lt_infMag_iff {num den m : Nat} (hden : 0 < den) (hm : NearestMag num den m) :
    m < infMag ↔ num < (2 ^ 25 - 1) * 2 ^ 252 * den := by
  have hmid : (2 ^ 25 - 1) * 2 ^ 252 * den = (2 ^ 25 - 1) * (2 ^ 252 * den) := Nat.mul_assoc ..
  have hmax : magUnits (infMag - 1) * den = (2 ^ 25 - 2) * (2 ^ 252 * den) := by
    rw [magUnits_pred_infMag]
    ring
  have hinf : magUnits infMag * den = 2 ^ 25 * (2 ^ 252 * den) := by
    rw [magUnits_infMag]
    ring
  have hpos : 0 < 2 ^ 252 * den := Nat.mul_pos (Nat.two_pow_pos _) hden
  have hmono {c d : Nat} (h : c ≤ d) : magUnits c * den ≤ magUnits d * den :=
    Nat.mul_le_mul_right _ (magUnits_strictMono.monotone h)
  rw [hmid]
  constructor
  · intro hlt
    by_contra hge
    have hbelow := hmono (show m ≤ infMag - 1 by omega)
    obtain ⟨hle, heq⟩ := hm infMag
    simp only [magDist, ← Nat.cast_mul, hinf] at hle heq
    rw [hmax] at hbelow
    have htie : magUnits m * den = (2 ^ 25 - 2) * (2 ^ 252 * den) ∧ m % 2 = 0 := by
      generalize 2 ^ 252 * den = w at *
      omega
    have hlast : m = infMag - 1 :=
      magUnits_strictMono.injective (Nat.eq_of_mul_eq_mul_right hden (htie.1.trans hmax.symm))
    have hodd : (infMag - 1) % 2 = 1 := by decide
    omega
  · intro hlt
    by_contra hge
    have habove := hmono (Nat.le_of_not_lt hge)
    obtain ⟨hle, -⟩ := hm (infMag - 1)
    simp only [magDist, ← Nat.cast_mul, hmax] at hle
    rw [hinf] at habove
    generalize 2 ^ 252 * den = w at *
    omega

/-- A nearest magnitude, cut off at infinity, is the correctly rounded result of either sign. -/
theorem NearestMag.nearestEven_pack {num den m : Nat} (hden : 0 < den) (hm : NearestMag num den m)
    (neg : Bool) : NearestEven neg num den (pack neg (min m infMag)) := by
  have hiff := hm.lt_infMag_iff hden
  unfold NearestEven
  split
  case isTrue hover =>
    rw [Nat.min_eq_right (by omega)]
  case isFalse hunder =>
    have hlt : m < infMag := by omega
    have hm31 : m < 2 ^ 31 := hlt.trans (by decide)
    rw [Nat.min_eq_left hlt.le, isFinite_iff_mag_lt, sign_pack hm31, frac_eq_mag_mod,
      units_eq_magUnits, mag_pack hm31]
    refine ⟨hlt, rfl, fun c _ => ?_⟩
    obtain ⟨hle, heq⟩ := hm (mag c)
    rw [units_eq_magUnits c]
    refine ⟨hle, fun he hne => ?_⟩
    have heven := heq he (ne_of_apply_ne magUnits hne)
    omega

/-- R10: what `roundMag` packs is the correctly rounded `num / den`. -/
theorem nearestEven_pack_roundMag (neg : Bool) (num : Nat) {den : Nat} (hden : 0 < den) :
    NearestEven neg num den (pack neg (roundMag num den)) := by
  obtain ⟨m, hround, hm⟩ := roundMag_eq_min_nearest num hden
  rw [hround]
  exact hm.nearestEven_pack hden neg

/-! ## The operations on finite operands (R10) -/

variable {a b : Word}

theorem isZero_iff_units_eq_zero : isZero a = true ↔ units a = 0 := by
  have hz : magUnits 0 = 0 := rfl
  rw [units_eq_magUnits, ← hz, magUnits_strictMono.injective.eq_iff, isZero, Bool.and_eq_true,
    beq_iff_eq, beq_iff_eq, expo_eq_mag_div, frac_eq_mag_mod]
  omega

theorem add_of_isFinite (ha : isFinite a = true) (hb : isFinite b = true) :
    add a b = some (if value a + value b = 0 then (if sign a && sign b then negZero else posZero)
      else pack (value a + value b < 0) (roundMag (value a + value b).natAbs 1)) := by
  simp [add, isNaN_of_isFinite, isInf_of_isFinite, ha, hb, apply_ite some]

theorem mul_of_isFinite (ha : isFinite a = true) (hb : isFinite b = true) :
    mul a b = some (pack (sign a != sign b) (roundMag (units a * units b) unitsPerOne)) := by
  simp [mul, isNaN_of_isFinite, isInf_of_isFinite, ha, hb]

theorem div_of_isFinite (ha : isFinite a = true) (hb : isFinite b = true) (hz : isZero b = false) :
    div a b = some (pack (sign a != sign b) (roundMag (units a * unitsPerOne) (units b))) := by
  simp [div, isNaN_of_isFinite, isInf_of_isFinite, ha, hb, hz]

/-- R10: a sum of finite values that is not 0 is correctly rounded. -/
theorem add_nearestEven (ha : isFinite a = true) (hb : isFinite b = true)
    (hne : value a + value b ≠ 0) : ∃ r, add a b = some r ∧
      NearestEven (decide (value a + value b < 0)) (value a + value b).natAbs 1 r := by
  refine ⟨_, add_of_isFinite ha hb, ?_⟩
  rw [if_neg hne]
  exact nearestEven_pack_roundMag _ _ Nat.one_pos

/-- An exactly zero sum of finite values is +0.0 unless both operands are negative zeros. -/
theorem add_eq_zero (ha : isFinite a = true) (hb : isFinite b = true) (h0 : value a + value b = 0) :
    add a b = some (if sign a && sign b then 0x80000000#32 else 0) := by
  rw [add_of_isFinite ha hb, if_pos h0]
  rfl

/-! ## The operations on NaNs, infinities and zeros (log entry 7) -/

theorem add_of_isInf_left (ha : isInf a = true) (hb : isFinite b = true) : add a b = some a := by
  simp [add, isNaN_of_isInf, isNaN_of_isFinite, isInf_of_isFinite, ha, hb]

theorem add_of_isInf_right (ha : isFinite a = true) (hb : isInf b = true) : add a b = some b := by
  simp [add, isNaN_of_isInf, isNaN_of_isFinite, isInf_of_isFinite, ha, hb]

theorem add_of_isInf_of_sign_eq (ha : isInf a = true) (hb : isInf b = true) (hs : sign a = sign b) :
    add a b = some a := by
  simp [add, isNaN_of_isInf, ha, hb, hs]

theorem add_eq_none_iff : add a b = none ↔
    isNaN a = true ∨ isNaN b = true ∨ (isInf a = true ∧ isInf b = true ∧ sign a ≠ sign b) := by
  rcases classes a with ha | ha | ha
  · simp [add, ha]
  · rcases classes b with hb | hb | hb
    · simp [add, hb]
    · simp [add, isNaN_of_isInf, ha, hb]
    · simp [add_of_isInf_left, isNaN_of_isInf, isNaN_of_isFinite, isInf_of_isFinite, ha, hb]
  · rcases classes b with hb | hb | hb
    · simp [add, hb]
    · simp [add_of_isInf_right, isNaN_of_isInf, isNaN_of_isFinite, isInf_of_isFinite, ha, hb]
    · simp [add_of_isFinite, isNaN_of_isFinite, isInf_of_isFinite, ha, hb]

theorem mul_symm (a b : Word) : mul b a = mul a b := by
  simp only [mul, Bool.or_comm (isNaN b), Bool.or_comm (isInf b), Bool.or_comm (isZero b),
    Nat.mul_comm (units b), bne_comm (a := sign b)]

theorem mul_of_isInf_left (ha : isInf a = true) (hb : isNaN b = false) (hz : isZero b = false) :
    mul a b = some (pack (sign a != sign b) infMag) := by
  simp [mul, isNaN_of_isInf, isZero_of_isInf, ha, hb, hz]

theorem mul_eq_none_iff : mul a b = none ↔ isNaN a = true ∨ isNaN b = true ∨
    (isInf a = true ∧ isZero b = true) ∨ (isZero a = true ∧ isInf b = true) := by
  rcases classes a with ha | ha | ha
  · simp [mul, ha]
  · rcases classes b with hb | hb | hb
    · simp [mul, hb]
    · simp [mul_of_isInf_left, isNaN_of_isInf, isZero_of_isInf, ha, hb]
    · cases hz : isZero b <;>
        simp [mul, isNaN_of_isInf, isNaN_of_isFinite, isInf_of_isFinite,
          isZero_of_isInf, ha, hb, hz]
  · rcases classes b with hb | hb | hb
    · simp [mul, hb]
    · cases hz : isZero a <;>
        simp [mul, isNaN_of_isInf, isNaN_of_isFinite, isInf_of_isFinite,
          isZero_of_isInf, ha, hb, hz]
    · simp [mul_of_isFinite, isNaN_of_isFinite, isInf_of_isFinite, ha, hb]

theorem div_of_isInf_left (ha : isInf a = true) (hb : isFinite b = true) :
    div a b = some (pack (sign a != sign b) infMag) := by
  simp [div, isNaN_of_isInf, isNaN_of_isFinite, isInf_of_isFinite, ha, hb]

theorem div_of_isInf_right (ha : isFinite a = true) (hb : isInf b = true) :
    div a b = some (pack (sign a != sign b) 0) := by
  simp [div, isNaN_of_isInf, isNaN_of_isFinite, isInf_of_isFinite, ha, hb]

theorem div_of_isZero_right (ha : isFinite a = true) (hb : isZero b = true) (hz : isZero a = false) :
    div a b = some (pack (sign a != sign b) infMag) := by
  have hfb := isFinite_of_isZero hb
  simp [div, isNaN_of_isFinite, isInf_of_isFinite, ha, hfb, hb, hz]

theorem div_eq_none_iff : div a b = none ↔ isNaN a = true ∨ isNaN b = true ∨
    (isInf a = true ∧ isInf b = true) ∨ (isZero a = true ∧ isZero b = true) := by
  rcases classes a with ha | ha | ha
  · simp [div, ha]
  · rcases classes b with hb | hb | hb
    · simp [div, hb]
    · simp [div, isNaN_of_isInf, ha, hb]
    · simp [div_of_isInf_left, isNaN_of_isInf, isNaN_of_isFinite, isInf_of_isFinite,
        isZero_of_isInf, ha, hb]
  · rcases classes b with hb | hb | hb
    · simp [div, hb]
    · simp [div_of_isInf_right, isNaN_of_isInf, isNaN_of_isFinite, isInf_of_isFinite,
        isZero_of_isInf, ha, hb]
    · cases hz : isZero b <;> simp [div, isNaN_of_isFinite, isInf_of_isFinite, ha, hb, hz]

/-! ## Differences: the sum with the second operand's sign flipped (R10) -/

theorem value_add_value_neg (a b : Word) : value a + value (neg b) = value a - value b := by
  rw [value_neg, ← sub_eq_add_neg]

theorem sub_nearestEven (ha : isFinite a = true) (hb : isFinite b = true)
    (hne : value a - value b ≠ 0) : ∃ r, sub a b = some r ∧
      NearestEven (decide (value a - value b < 0)) (value a - value b).natAbs 1 r := by
  rw [← value_add_value_neg] at hne ⊢
  exact add_nearestEven ha ((isFinite_neg b).trans hb) hne

theorem sub_eq_zero_of_value_eq (ha : isFinite a = true) (hb : isFinite b = true)
    (h0 : value a - value b = 0) :
    sub a b = some (if sign a && !sign b then 0x80000000#32 else 0) := by
  rw [← value_add_value_neg] at h0
  rw [sub, add_eq_zero ha ((isFinite_neg b).trans hb) h0, sign_neg]

theorem sub_eq_none_iff : sub a b = none ↔
    isNaN a = true ∨ isNaN b = true ∨ (isInf a = true ∧ isInf b = true ∧ sign a = sign b) := by
  rw [sub, add_eq_none_iff, isNaN_neg, isInf_neg, sign_neg, ne_eq, Bool.eq_not, not_not]

theorem sub_of_isInf_left (ha : isInf a = true)
    (hb : isFinite b = true ∨ (isInf b = true ∧ sign a ≠ sign b)) : sub a b = some a := by
  rcases hb with hfin | ⟨hinf, hs⟩
  · exact add_of_isInf_left ha ((isFinite_neg b).trans hfin)
  · refine add_of_isInf_of_sign_eq ha ((isInf_neg b).trans hinf) ?_
    rwa [sign_neg, Bool.eq_not]

theorem mag_of_isInf (ha : isInf a = true) : mag a = infMag := by
  simp only [isInf, Bool.and_eq_true, beq_iff_eq, expo_eq_mag_div, frac_eq_mag_mod] at ha
  rw [infMag]
  omega

/-- R9: a pattern is its sign and its low 31 bits. -/
theorem eq_pack (a : Word) : a = pack (sign a) (mag a) := by
  apply BitVec.eq_of_toNat_eq
  have hlt := a.isLt
  rw [toNat_pack (mag_lt a), sign, BitVec.getLsbD, Nat.testBit_eq_decide_div_mod_eq, mag]
  simp only [decide_eq_true_eq]
  split <;> omega

theorem sub_of_isInf_right (ha : isFinite a = true) (hb : isInf b = true) :
    sub a b = some (if sign b then 0x7F800000#32 else 0xFF800000#32) := by
  have hinf : isInf (neg b) = true := (isInf_neg b).trans hb
  rw [sub, add_of_isInf_right ha hinf, eq_pack (neg b), mag_of_isInf hinf, pack_infMag, sign_neg]
  cases sign b <;> rfl

/-! ## Comparisons (R11) -/

theorem comparisons_of_isNaN (h : isNaN a = true ∨ isNaN b = true) :
    lt a b = false ∧ gt a b = false ∧ ge a b = false ∧ le a b = false := by
  rcases h with h | h <;> simp [lt, gt, ge, le, h]

/-- Without a NaN each comparison is that of the values. -/
theorem comparisons_eq_decide (ha : isNaN a = false) (hb : isNaN b = false) :
    lt a b = decide (value a < value b) ∧ gt a b = decide (value b < value a) ∧
      ge a b = decide (value b ≤ value a) ∧ le a b = decide (value a ≤ value b) := by
  simp [lt, gt, ge, le, ha, hb]

theorem comparisons_of_isZero (ha : isZero a = true) (hb : isZero b = true) :
    lt a b = false ∧ gt a b = false ∧ ge a b = true ∧ le a b = true := by
  obtain ⟨hlt, hgt, hge, hle⟩ := comparisons_eq_decide (isNaN_of_isFinite (isFinite_of_isZero ha))
    (isNaN_of_isFinite (isFinite_of_isZero hb))
  rw [hlt, hgt, hge, hle, value_of_isZero ha, value_of_isZero hb]
  decide

/-- Two numbers in strict order fix the four comparisons both ways round. -/
theorem comparisons_of_value_lt (ha : isNaN a = false) (hb : isNaN b = false)
    (h : value a < value b) :
    (lt a b = true ∧ gt a b = false ∧ ge a b = false ∧ le a b = true) ∧
      lt b a = false ∧ gt b a = true ∧ ge b a = true ∧ le b a = false := by
  simp [lt, gt, ge, le, ha, hb, h, h.le]

theorem comparisons_isInf_isFinite (ha : isInf a = true) (hb : isFinite b = true) :
    lt a b = sign a ∧ gt a b = !sign a ∧ ge a b = !sign a ∧ le a b = sign a ∧
      lt b a = !sign a ∧ gt b a = sign a ∧ ge b a = sign a ∧ le b a = !sign a := by
  have hna := isNaN_of_isInf ha
  have hnb := isNaN_of_isFinite hb
  have horder := value_lt_of_isInf ha hb
  cases hs : sign a with
  | true =>
    rw [hs, if_pos rfl] at horder
    simp [comparisons_of_value_lt hna hnb horder]
  | false =>
    rw [hs, if_neg Bool.false_ne_true] at horder
    simp [comparisons_of_value_lt hnb hna horder]

theorem value_of_isInf (ha : isInf a = true) :
    value a = if sign a then -(2 ^ 23 * 2 ^ 254 : Int) else 2 ^ 23 * 2 ^ 254 := by
  rw [value, units_of_isInf ha]
  push_cast
  rfl

/-- Two infinities compare by their signs. -/
theorem comparisons_isInf_isInf (ha : isInf a = true) (hb : isInf b = true) :
    lt a b = (sign a && !sign b) ∧ gt a b = (!sign a && sign b) ∧
      ge a b = (!sign a || sign b) ∧ le a b = (sign a || !sign b) := by
  obtain ⟨hlt, hgt, hge, hle⟩ := comparisons_eq_decide (isNaN_of_isInf ha) (isNaN_of_isInf hb)
  rw [hlt, hgt, hge, hle, value_of_isInf ha, value_of_isInf hb]
  cases sign a <;> cases sign b <;> decide

/-! ## Rounding half away from zero (R12) -/

/-- `(2u + p) / 2p`, the quotient of `roundHalfAway`, is `u / p` to the nearest, a tie upwards. -/
theorem half_up_div_bounds (u : Nat) {p : Nat} (hp : 0 < p) :
    2 * u < 2 * ((2 * u + p) / (2 * p) * p) + p ∧ 2 * ((2 * u + p) / (2 * p) * p) ≤ 2 * u + p := by
  have hsplit := Nat.div_add_mod (2 * u + p) (2 * p)
  have hmod := Nat.mod_lt (2 * u + p) (show 0 < 2 * p by omega)
  have hcomm : 2 * p * ((2 * u + p) / (2 * p)) = 2 * ((2 * u + p) / (2 * p) * p) := by ring
  omega

end Sys2Proof.Machine.F32

namespace Sys2Proof.Machine

open Sys2Proof

/-- Settles O57: each operation rounds its exact result once. -/
theorem floatResultsAreNearestEven : Obligations.FloatResultsAreNearestEven := by
  intro a b ha hb
  refine ⟨F32.add_nearestEven ha hb,
    ⟨_, F32.mul_of_isFinite ha hb, F32.nearestEven_pack_roundMag _ _ (Nat.two_pow_pos _)⟩,
    fun hb0 => ?_⟩
  have hz : F32.isZero b = false :=
    Bool.eq_false_iff.mpr fun h => hb0 (F32.isZero_iff_units_eq_zero.mp h)
  exact ⟨_, F32.div_of_isFinite ha hb hz, F32.nearestEven_pack_roundMag _ _ (Nat.pos_of_ne_zero hb0)⟩

/-- Settles O59: `roundHalfAway` rounds the magnitude half up and gives it the sign of its operand. -/
theorem roundHalfAwayIsNearest : Obligations.RoundHalfAwayIsNearest := by
  intro a _
  obtain ⟨hlo, hhi⟩ := F32.half_up_div_bounds (F32.units a) (p := F32.unitsPerOne) (Nat.two_pow_pos _)
  rw [F32.value, F32.roundHalfAway]
  generalize (2 * F32.units a + F32.unitsPerOne) / (2 * F32.unitsPerOne) = m at *
  rw [F32.unitsPerOne] at hlo hhi
  simp only [Int.abs_eq_natAbs]
  cases F32.sign a <;> simp only [Bool.false_eq_true, if_true, if_false] <;> omega

/-- Settles O60: a difference is the sum with the flipped operand, a comparison one of the values. -/
theorem floatDifferencesAndComparisons : Obligations.FloatDifferencesAndComparisons :=
  ⟨fun _ _ => ⟨F32.sub_nearestEven, F32.sub_eq_zero_of_value_eq, F32.sub_eq_none_iff,
      F32.sub_of_isInf_left, F32.sub_of_isInf_right⟩,
    fun _ _ => ⟨F32.comparisons_of_isNaN,
      fun ha hb => F32.comparisons_eq_decide (F32.isNaN_of_isFinite ha) (F32.isNaN_of_isFinite hb),
      F32.comparisons_of_isZero, F32.comparisons_isInf_isFinite, F32.comparisons_isInf_isInf⟩⟩

/-- Settles O58: each clause is the equation of one branch of an operation. -/
theorem floatSpecialCases : Obligations.FloatSpecialCases := by
  intro a b
  refine ⟨F32.add_eq_none_iff, F32.mul_eq_none_iff, F32.div_eq_none_iff, F32.add_eq_zero,
    fun ha hb => ⟨F32.add_of_isInf_left ha hb, F32.add_of_isInf_right hb ha⟩,
    F32.add_of_isInf_of_sign_eq, fun ha hb hz => ⟨?_, F32.mul_symm a b⟩,
    fun ha hb => ⟨?_, ?_⟩, fun ha hb hz => ?_⟩
  · rw [F32.mul_of_isInf_left ha (Bool.eq_false_iff.mpr hb) (Bool.eq_false_iff.mpr hz),
      F32.pack_infMag]
  · rw [F32.div_of_isInf_left ha hb, F32.pack_infMag]
  · rw [F32.div_of_isInf_right hb ha, F32.pack_zero, bne_comm]
  · rw [F32.div_of_isZero_right ha hb (Bool.eq_false_iff.mpr hz), F32.pack_infMag]

end Sys2Proof.Machine
end

section
/-! PROOFS. What a whole command consumes and keeps (10_state.md R41, R45, R52, R57), and the register
space as REG_READ and REG_WRITE show it (R42, 47_control.md R512 to R514). -/

namespace Sys2Proof.Machine

open Sys2Proof Sys2Proof.Laws

/-! ## The words of a decoded command (30_encoding.md R142, R143) -/

theorem pairSamples_length (ws : List Word) : (pairSamples ws).length = ws.length / 2 := by
  induction ws using pairSamples.induct with
  | case1 a b rest ih => simp only [pairSamples, List.length_cons, ih]; omega
  | case2 ws hshort =>
    match ws, hshort with
    | [], _ => rfl
    | [_], _ => simp [pairSamples]
    | a :: b :: rest, hshort => exact absurd rfl (hshort a b rest)

/-- Assembling a command from as many payload words as its opcode takes loses none of them. -/
theorem assemble_payload_length (o : Opcode) (sel : BitVec 8) (imm : BitVec 16) (p : List Word)
    (h : p.length = payloadLen o imm.toNat) :
    (instrPayload (assemble o sel imm p)).length = p.length := by
  cases o <;>
    simp only [assemble, instrPayload, payloadLen, List.length_cons, List.length_nil,
      flattenSamples_length, pairSamples_length, List.length_drop] at h ⊢ <;>
    omega

/-- R143: a decoded command's words stand at the head, and what is left over comes after them. -/
theorem decode_rest {ws rest : List Word} {i : Instr} (h : decode ws = .ok (i, rest)) :
    rest = ws.drop (encode i).length := by
  cases ws with
  | nil => cases h
  | cons w ws =>
    rw [decode] at h
    cases ho : opcodeOf (fieldOpc w) with
    | none => rw [ho] at h; cases h
    | some o =>
      rw [ho] at h
      dsimp only at h
      split at h
      · next hle =>
        cases h
        rw [encode_length, assemble_payload_length _ _ _ _ (List.length_take_of_le hle),
          List.length_take_of_le hle, Nat.add_comm, List.drop_succ_cons]
      · cases h

theorem step_of_decode {s : State} {i : Instr} {rest : List Word}
    (h : decode (fetch s) = .ok (i, rest)) : step s = exec i s := by
  rw [step, h]

/-! ## Reads and writes of registers, said once (47_control.md R512 to R514) -/

/-- R512, R563: a read emits one word, after raising BAD_REG where the address is unmapped. -/
theorem regReadBody_cases (addr : BitVec 16) (s : State) :
    regReadBody addr s = (s.raise .badReg).emit 0 ∨
      ∃ r, regAt addr = some r ∧ regReadBody addr s = s.emit (memRead r s) := by
  unfold regReadBody
  cases regAt addr with
  | none => exact .inl rfl
  | some r => exact .inr ⟨r, rfl, rfl⟩

/-- R513, R563: a write is refused with BAD_REG or has the effect of its register. -/
theorem regWriteBody_cases (addr : BitVec 16) (v : Word) (s : State) :
    regWriteBody addr v s = s.raise .badReg ∨
      ∃ r, regAt addr = some r ∧ regWriteBody addr v s = memWrite r v s := by
  unfold regWriteBody
  cases regAt addr with
  | none => exact .inl rfl
  | some r =>
    dsimp only
    split
    · exact .inr ⟨r, rfl, rfl⟩
    · exact .inl rfl

theorem exec_regRead_of_regAt {addr : BitVec 16} {r : Reg} (h : regAt addr = some r) (s : State) :
    exec (.regRead 0 addr) s
      = .next { s with resp := s.resp ++ [memRead r s], cp := s.cp + 1 } := by
  show Host.Outcome.next ((regReadBody addr s).advance 1) = _
  rw [regReadBody, h]
  rfl

theorem exec_regWrite_of_regAt {addr : BitVec 16} {r : Reg} (h : regAt addr = some r)
    (hw : r.writable = true) (v : Word) (s : State) :
    exec (.regWrite 0 addr v) s = .next ((memWrite r v s).advance 2) := by
  show Host.Outcome.next ((regWriteBody addr v s).advance 2) = _
  rw [regWriteBody, h]
  dsimp only
  rw [if_pos hw]

/-- The state without what a register write can change (R42, access column). -/
def State.blankWritable (s : State) : State :=
  { s with
    ctrl := 0, err := 0, psNew := false, audGain := 0, deemphA := 0, ncoInc := 0, chipInc := 0
    ch := Fir.initial Cplx, au := Fir.initial Word, rb := Fir.initial Word, rl := Fir.initial Word }

section

variable (s : State) (i : Inst)

theorem blankWritable_firReset : (s.firReset i).blankWritable = s.blankWritable := by
  rcases i with _ | (_ | _ | _) <;> rfl

theorem blankWritable_storeT (t : BitVec 16) : (s.storeT i t).blankWritable = s.blankWritable := by
  rcases i with _ | (_ | _ | _) <;> rfl

theorem blankWritable_storeD (d : BitVec 16) : (s.storeD i d).blankWritable = s.blankWritable := by
  rcases i with _ | (_ | _ | _) <;> rfl

theorem blankWritable_storeTap (k : Nat) (v : Word) :
    (s.storeTap i k v).blankWritable = s.blankWritable := by
  rcases i with _ | (_ | _ | _) <;> rfl

end

/-- R514: a register write changes nothing but the writable registers and what they reset. -/
theorem memWrite_frame (r : Reg) (v : Word) (s : State) :
    (memWrite r v s).blankWritable = s.blankWritable := by
  cases r with
  | status =>
    rw [memWrite, State.writeStatus]
    split <;> rfl
  | firT i =>
    rw [memWrite, State.writeFirT]
    split
    · rw [blankWritable_firReset, blankWritable_storeT]
    · rfl
  | firD i =>
    rw [memWrite, State.writeFirD]
    split
    · rw [blankWritable_firReset, blankWritable_storeD]
    · rfl
  | tap i k => exact blankWritable_storeTap s i k v
  | _ => rfl

/-- R45, R514: a write of another register than ERR keeps ERR, or does nothing but raise BAD_CFG. -/
theorem memWrite_err {r : Reg} (hr : r ≠ .err) (v : Word) (s : State) :
    (memWrite r v s).err = s.err ∨ memWrite r v s = s.raise .badCfg := by
  cases r with
  | err => exact absurd rfl hr
  | status =>
    rw [memWrite, State.writeStatus]
    split <;> exact .inl rfl
  | firT i =>
    rw [memWrite, State.writeFirT]
    split
    · rcases i with _ | (_ | _ | _) <;> exact .inl rfl
    · exact .inr rfl
  | firD i =>
    rw [memWrite, State.writeFirD]
    split
    · rcases i with _ | (_ | _ | _) <;> exact .inl rfl
    · exact .inr rfl
  | tap i k => rcases i with _ | (_ | _ | _) <;> exact .inl rfl
  | _ => exact .inl rfl

/-- R514: a bit of ERR stays where the value written has a 0. -/
theorem writeErr_getLsbD (s : State) (v : Word) (b : Nat) :
    (s.writeErr v).err.getLsbD b = (s.err.getLsbD b && !v.getLsbD b) := by
  by_cases hb : b < 3
  · simp [State.writeErr, hb]
  · simp [State.writeErr, BitVec.getLsbD_of_ge _ b (Nat.le_of_not_lt hb)]

/-- R42: ERR has one address. -/
theorem regAt_eq_err {addr : BitVec 16} (h : regAt addr = some .err) : addr = 0x0002 := by
  have honly : ∀ row ∈ regTable, row.2 = .err → row.1 = 2 := by decide
  obtain hrow | ⟨i, k, htap, -⟩ := regAt_cases addr .err h
  · exact BitVec.eq_of_toNat_eq (honly _ hrow rfl)
  · cases htap

/-! ## What a command does beside its units (R52, R57, R511) -/

/-- Every legal command keeps the settings, but the register commands and NCO_SET. -/
theorem bodyOf_cases (i : Instr) (s : State) :
    Keeps s (bodyOf i s) ∨ (∃ sel addr, i = .regRead sel addr) ∨
      (∃ sel addr v, i = .regWrite sel addr v) ∨ ∃ sel imm fs f, i = .ncoSet sel imm fs f := by
  cases i with
  | regRead sel addr => exact .inr (.inl ⟨sel, addr, rfl⟩)
  | regWrite sel addr v => exact .inr (.inr (.inl ⟨sel, addr, v, rfl⟩))
  | ncoSet sel imm fs f => exact .inr (.inr (.inr ⟨sel, imm, fs, f, rfl⟩))
  | _ => exact .inl (keeps_bodyOf _ s rfl nofun)

/-- R57, R111: the command stream and `cp` stay, and responses are only appended. -/
structure KeepsStreams (s t : State) : Prop where
  stream : t.stream = s.stream
  cp : t.cp = s.cp
  resp : ∃ ws, t.resp = s.resp ++ ws

theorem KeepsStreams.of_eq {s t : State} (hs : t.stream = s.stream) (hc : t.cp = s.cp)
    (hr : t.resp = s.resp) : KeepsStreams s t :=
  ⟨hs, hc, [], by rw [hr, List.append_nil]⟩

theorem keepsStreams_bodyOf (i : Instr) (s : State) : KeepsStreams s (bodyOf i s) := by
  obtain h | ⟨sel, addr, rfl⟩ | ⟨sel, addr, v, rfl⟩ | ⟨sel, imm, fs, f, rfl⟩ := bodyOf_cases i s
  · exact ⟨h.stream, h.cp, h.resp⟩
  · show KeepsStreams s (regReadBody addr s)
    obtain h | ⟨r, -, h⟩ := regReadBody_cases addr s
    · rw [h]; exact ⟨rfl, rfl, [0], rfl⟩
    · rw [h]; exact ⟨rfl, rfl, [memRead r s], rfl⟩
  · show KeepsStreams s (regWriteBody addr v s)
    obtain h | ⟨r, -, h⟩ := regWriteBody_cases addr v s
    · rw [h]; exact .of_eq rfl rfl rfl
    · have hframe := memWrite_frame r v s
      rw [h]
      exact .of_eq (congrArg State.stream hframe :) (congrArg State.cp hframe :)
        (congrArg State.resp hframe :)
  · show KeepsStreams s (runM (ncoSetBody fs f) s)
    obtain ⟨p, inc, n, -, -, h⟩ := ncoSetBody_spec fs f s
    rw [h]
    exact .of_eq rfl rfl rfl

/-- R45, R569: no bit of ERR is lost. -/
def ErrGrows (s t : State) : Prop := ∀ b, s.err.getLsbD b = true → t.err.getLsbD b = true

theorem errGrows_of_eq {s t : State} (h : t.err = s.err) : ErrGrows s t := fun _ hb => h ▸ hb

theorem errGrows_raise (e : ErrCause) (s : State) : ErrGrows s (s.raise e) := fun b hb => by
  rw [State.raise, BitVec.getLsbD_or, hb, Bool.true_or]

theorem errGrows_bodyOf {i : Instr} (hi : ∀ sel v, i ≠ .regWrite sel 0x0002 v) (s : State) :
    ErrGrows s (bodyOf i s) := by
  obtain h | ⟨sel, addr, rfl⟩ | ⟨sel, addr, v, rfl⟩ | ⟨sel, imm, fs, f, rfl⟩ := bodyOf_cases i s
  · exact errGrows_of_eq h.err
  · show ErrGrows s (regReadBody addr s)
    obtain h | ⟨r, -, h⟩ := regReadBody_cases addr s
    · rw [h]; exact errGrows_raise .badReg s
    · rw [h]; exact errGrows_of_eq rfl
  · show ErrGrows s (regWriteBody addr v s)
    obtain h | ⟨r, hr, h⟩ := regWriteBody_cases addr v s
    · rw [h]; exact errGrows_raise .badReg s
    · have hne : r ≠ .err := by
        rintro rfl
        exact hi sel v (regAt_eq_err hr ▸ rfl)
      obtain he | he := memWrite_err hne v s
      · rw [h]; exact errGrows_of_eq he
      · rw [h, he]; exact errGrows_raise .badCfg s
  · show ErrGrows s (runM (ncoSetBody fs f) s)
    obtain ⟨p, inc, n, -, -, h⟩ := ncoSetBody_spec fs f s
    rw [h]
    exact errGrows_of_eq rfl

/-- R52, R511: the configuration a host sets by register writes, NCO_INC apart. -/
structure KeepsConfig (s t : State) : Prop where
  ctrl : t.ctrl = s.ctrl
  audGain : t.audGain = s.audGain
  deemphA : t.deemphA = s.deemphA
  chipInc : t.chipInc = s.chipInc
  /-- T, D and the taps of the complex engine. -/
  ch : t.ch.reset = s.ch.reset
  /-- T, D and the taps of the real engines. -/
  fir : ∀ j, (t.fir j).reset = (s.fir j).reset

theorem keepsConfig_bodyOf {i : Instr} (hi : ∀ sel addr v, i ≠ .regWrite sel addr v) (s : State) :
    KeepsConfig s (bodyOf i s) ∧
      ((∀ sel imm fs f, i ≠ .ncoSet sel imm fs f) → (bodyOf i s).ncoInc = s.ncoInc) := by
  obtain h | ⟨sel, addr, rfl⟩ | ⟨sel, addr, v, rfl⟩ | ⟨sel, imm, fs, f, rfl⟩ := bodyOf_cases i s
  · exact ⟨⟨h.ctrl, h.audGain, h.deemphA, h.chipInc, h.ch, h.fir⟩, fun _ => h.ncoInc⟩
  · show KeepsConfig s (regReadBody addr s) ∧ (_ → (regReadBody addr s).ncoInc = _)
    obtain h | ⟨r, -, h⟩ := regReadBody_cases addr s
    · rw [h]; exact ⟨⟨rfl, rfl, rfl, rfl, rfl, fun j => by cases j <;> rfl⟩, fun _ => rfl⟩
    · rw [h]; exact ⟨⟨rfl, rfl, rfl, rfl, rfl, fun j => by cases j <;> rfl⟩, fun _ => rfl⟩
  · exact absurd rfl (hi sel addr v)
  · refine ⟨?_, fun hset => absurd rfl (hset sel imm fs f)⟩
    show KeepsConfig s (runM (ncoSetBody fs f) s)
    obtain ⟨p, inc, n, -, -, h⟩ := ncoSetBody_spec fs f s
    rw [h]
    exact ⟨rfl, rfl, rfl, rfl, rfl, fun j => by cases j <;> rfl⟩

/-- What a command does but for moving `cp`: its effect, or ILLEGAL alone (R146, R560). -/
def effectOf (i : Instr) (s : State) : State := if i.legal then bodyOf i s else s.raise .illegal

theorem exec_effectOf (i : Instr) (s : State) :
    exec i s = .next ((effectOf i s).advance (encode i).length) :=
  exec_command i s

theorem keepsStreams_effectOf (i : Instr) (s : State) : KeepsStreams s (effectOf i s) := by
  unfold effectOf
  split
  · exact keepsStreams_bodyOf i s
  · exact .of_eq rfl rfl rfl

theorem errGrows_effectOf {i : Instr} (hi : ∀ v, i ≠ .regWrite 0 0x0002 v) (s : State) :
    ErrGrows s (effectOf i s) := by
  unfold effectOf
  split
  · next hl =>
    refine errGrows_bodyOf (fun sel v hw => ?_) s
    subst hw
    exact hi v (by rw [eq_of_beq hl])
  · exact errGrows_raise .illegal s

theorem keepsConfig_effectOf {i : Instr} (hi : ∀ sel addr v, i ≠ .regWrite sel addr v) (s : State) :
    KeepsConfig s (effectOf i s) ∧
      ((∀ sel imm fs f, i ≠ .ncoSet sel imm fs f) → (effectOf i s).ncoInc = s.ncoInc) := by
  unfold effectOf
  split
  · exact keepsConfig_bodyOf hi s
  · exact ⟨⟨rfl, rfl, rfl, rfl, rfl, fun j => by cases j <;> rfl⟩, fun _ => rfl⟩

/-! ## The addresses and words of R42 -/

/-- R42, R102: every row of the table is found at its address. -/
theorem regAt_of_mem_regTable : ∀ row ∈ regTable, regAt (BitVec.ofNat 16 row.1) = some row.2 := by
  decide

theorem regAt_of_isTapAddr {addr : BitVec 16} (h : IsTapAddr addr.toNat) :
    ∃ i k, regAt addr = some (.tap i k) := by
  obtain ⟨n, k, hn, hk, ha⟩ := h
  have haddr : addr = BitVec.ofNat 16 (0x1000 + 0x1000 * n + k) := by
    rw [← ha, BitVec.ofNat_toNat, BitVec.setWidth_eq]
  have hinst : insts[n]? = some insts[n] := List.getElem?_eq_getElem hn
  exact ⟨_, k, haddr ▸ regAt_tap n k _ hk hinst⟩

theorem memRead_chipBuf_toNat (s : State) :
    (memRead .chipBuf s).toNat = flagNat s.chipPend + 2 * flagNat s.chip0 := by
  rw [memRead]
  cases s.chip0 <;> cases s.chipPend <;> rfl

theorem firRegisterNats_eq (s : State) (n : Nat) (i : Inst) :
    firRegisterNats n (s.firT i).toNat (s.firD i).toNat (s.firPhase i).toNat (s.firWptr i).toNat
      = (firRegs n i).map fun row => (row.1, (memRead row.2 s).toNat) := by
  simp only [firRegisterNats, firRegs, List.map_cons, List.map_nil, memRead,
    BitVec.toNat_setWidth_of_le, Nat.reduceLeDiff]

/-- R42: the numbers of the registers are those of the words the registers read as. -/
theorem registerNats_eq (s : State) :
    registerNats s = regTable.map fun row => (row.1, (memRead row.2 s).toNat) := by
  have hch := firRegisterNats_eq s 0 .ch
  have hau := firRegisterNats_eq s 1 (.real .au)
  have hrb := firRegisterNats_eq s 2 (.real .rb)
  have hrl := firRegisterNats_eq s 3 (.real .rl)
  simp only [State.firT, State.firD, State.firPhase, State.firWptr, State.fir_au, State.fir_rb,
    State.fir_rl] at hch hau hrb hrl
  rw [registerNats, hch, hau, hrb, hrl, regTable]
  simp only [plainRegs, List.append_assoc, List.map_append, List.map_cons, List.map_nil,
    memRead_chipBuf_toNat]
  simp only [memRead, BitVec.toNat_setWidth_of_le, Nat.reduceLeDiff, statusWord_toNat, flag_toNat]

theorem registerNats_reset : registerNats State.reset = resetNats := rfl

theorem memRead_tap_reset (i : Inst) (k : Nat) : memRead (.tap i k) State.reset = 0 := by
  rcases i with _ | (_ | _ | _) <;> rfl

/-! ## The interrupt level (R56) -/

theorem irq_eq (s : State) :
    s.irq = ((s.ctrl.getLsbD 1 && s.psNew) || (s.ctrl.getLsbD 2 && decide (s.err ≠ 0))) := by
  simp [State.irq, State.psIe, State.errIe, bne, beq_eq_decide]

/-- R44: IRQ is bit 5 of STATUS. -/
theorem statusWord_getLsbD_irq (s : State) : s.statusWord.getLsbD 5 = s.irq := by
  rw [State.statusWord, BitVec.getLsbD_setWidth, BitVec.getLsbD_append]
  cases s.irq <;> rfl

/-! ## The statements -/

/-- Settles O5: the command moves `cp` by its length and keeps the stream. -/
theorem stepConsumesTheCommand : Obligations.StepConsumesTheCommand := by
  intro s i rest h
  obtain ⟨hstream, hcp, -⟩ := keepsStreams_effectOf i s
  have hcp' : ((effectOf i s).advance (encode i).length).cp = s.cp + (encode i).length :=
    congrArg (· + (encode i).length) hcp
  refine ⟨_, (step_of_decode h).trans (exec_effectOf i s), hcp', hstream, ?_⟩
  rw [hcp', State.advance_stream, hstream, decode_rest h, List.drop_drop]

/-- Settles O11: every other command lets ERR only grow, and this one clears the bits it names. -/
theorem errorBitsAreSticky : Obligations.ErrorBitsAreSticky := by
  intro i s t b h hs ht
  rw [exec_next i s t h] at ht
  by_cases hw : ∃ v, i = .regWrite 0 0x0002 v
  · obtain ⟨v, rfl⟩ := hw
    have hcleared : (s.writeErr v).err.getLsbD b = false := ht
    rw [writeErr_getLsbD, hs, Bool.true_and, Bool.not_eq_false'] at hcleared
    exact ⟨v, rfl, hcleared⟩
  · have hkept := errGrows_effectOf (not_exists.mp hw) s b hs
    exact absurd (ht.symm.trans hkept) Bool.false_ne_true

/-- Settles O15: the table of R42 by its rows, the taps by their addresses. -/
theorem regReadEmitsTheRegister : Obligations.RegReadEmitsTheRegister := by
  refine ⟨fun s a v h => ?_, fun s n k taps hk h => ?_⟩
  · rw [registerNats_eq, List.mem_map] at h
    obtain ⟨⟨a, r⟩, hrow, hav⟩ := h
    cases hav
    rw [exec_regRead_of_regAt (regAt_of_mem_regTable _ hrow), BitVec.ofNat_toNat,
      BitVec.setWidth_eq]
  · have hread : ∀ i, insts[n]? = some i → _ := fun i hi =>
      exec_regRead_of_regAt (regAt_tap n k i hk hi) s
    simp only [List.mem_cons, Prod.mk.injEq, List.not_mem_nil, or_false] at h
    obtain ⟨rfl, rfl⟩ | ⟨rfl, rfl⟩ | ⟨rfl, rfl⟩ | ⟨rfl, rfl⟩ := h
    · exact hread .ch rfl
    · exact hread (.real .au) rfl
    · exact hread (.real .rb) rfl
    · exact hread (.real .rl) rfl

/-- Settles O53: neither a command's effect nor ILLEGAL takes a response back. -/
theorem responsesAreOnlyAppended : Obligations.ResponsesAreOnlyAppended := by
  intro i s t h
  rw [exec_next i s t h]
  exact (keepsStreams_effectOf i s).resp

/-- Settles O54: T, D and the taps of an engine are what its reset keeps. -/
theorem onlyTheHostConfigures : Obligations.OnlyTheHostConfigures := by
  intro i s t h hi
  obtain ⟨hconfig, hinc⟩ := keepsConfig_effectOf hi s
  rw [exec_next i s t h]
  exact ⟨hconfig.ctrl, hconfig.audGain, hconfig.deemphA, hconfig.chipInc,
    (congrArg Fir.taps hconfig.ch :), (congrArg Fir.t hconfig.ch :),
    (congrArg Fir.d hconfig.ch :), fun j => ⟨(congrArg Fir.taps (hconfig.fir j) :),
      (congrArg Fir.t (hconfig.fir j) :), (congrArg Fir.d (hconfig.fir j) :)⟩, hinc⟩

/-- Settles O18: the three writes, each by the effect of its register. -/
theorem controlRegisterWrites : Obligations.ControlRegisterWrites := by
  intro s v
  refine ⟨?_, ?_, (s.writeErr v).err, ?_, fun b _ => writeErr_getLsbD s v b⟩
  · have hlow : v.extractLsb' 0 5 = BitVec.ofNat 5 (v.toNat % 32) :=
      BitVec.eq_of_toNat_eq (by simp)
    rw [exec_regWrite_of_regAt (r := .ctrl) rfl rfl, ← hlow]
    rfl
  · rw [exec_regWrite_of_regAt (r := .status) rfl rfl]
    show Host.Outcome.next ((if v.getLsbD 4 then _ else _ : State).advance 2) = _
    cases v.getLsbD 4 with
    | false => rw [Bool.not_false, Bool.and_true]; rfl
    | true => rw [Bool.not_true, Bool.and_false]; rfl
  · exact exec_regWrite_of_regAt (r := .err) rfl rfl v s

/-- Settles O19: the four addresses are those of the parameters, which take any word. -/
theorem parameterWrites : Obligations.ParameterWrites := fun s v =>
  ⟨exec_regWrite_of_regAt (r := .audGain) rfl rfl v s,
    exec_regWrite_of_regAt (r := .deemphA) rfl rfl v s,
    exec_regWrite_of_regAt (r := .ncoInc) rfl rfl v s,
    exec_regWrite_of_regAt (r := .chipInc) rfl rfl v s⟩

/-- Settles O22: reads after power-on reset are mapped reads of the reset state. -/
theorem resetRegisterValues : Obligations.ResetRegisterValues := by
  refine ⟨fun a v h => ?_, fun addr haddr => ?_⟩
  · rw [← registerNats_reset] at h
    exact ⟨_, regReadEmitsTheRegister.1 State.reset a v h, rfl⟩
  · obtain ⟨i, k, htap⟩ := regAt_of_isTapAddr haddr
    exact ⟨_, exec_regRead_of_regAt htap State.reset, by rw [memRead_tap_reset]; rfl⟩

/-- Settles O23: the word a read of STATUS emits is the STATUS word. -/
theorem irqIsTheStatedLevel : Obligations.IrqIsTheStatedLevel := fun s =>
  ⟨irq_eq s, s.statusWord, exec_regRead_of_regAt (r := .status) rfl s, statusWord_getLsbD_irq s⟩

end Sys2Proof.Machine
end

section
/-! PROOFS. The RDS front end over a list of samples (44_rds_bits.md R370 to R372). One sample is one of
two kinds of step, by whether RB gives an output for it; each puts its own part in front of the
streams of `RdsRun`, and the chips of a run are those of its first step followed by those of the rest. -/

namespace Sys2Proof.Machine

open Sys2Proof

/-! ## The effect of chips in sequence -/

theorem operandBit_bitWord (b : Bool) : operandBit (bitWord b) = b := by cases b <;> rfl

theorem chipsEffect_cons (c : Bool) (cs : List Bool) (s : State) :
    chipsEffect (c :: cs) s = chipsEffect cs (manchester c s) := by
  rw [chipsEffect, List.map_cons, rdsChipBody, List.foldl_cons, operandBit_bitWord]
  rfl

theorem chipsEffect_append (cs ds : List Bool) (s : State) :
    chipsEffect (cs ++ ds) s = chipsEffect ds (chipsEffect cs s) := by
  simp only [chipsEffect, rdsChipBody, List.map_append, List.foldl_append]

theorem chipsEffect_outside (cs : List Bool) (s t : State) :
    chipsEffect cs (s.outside t) = (chipsEffect cs s).outside t :=
  rdsChipBody_outside (cs.map bitWord) s t

/-- Outside what chips can change, the state after them is the one before. -/
theorem chipsEffect_eq_outside (cs : List Bool) (s : State) :
    chipsEffect cs s = (chipsEffect cs s).outside s :=
  (congrArg (State.outside (chipsEffect cs s)) (rdsChipBody_frame (cs.map bitWord) s) :)

/-- The state after `chips` with the state of the front end replaced: what RDS_PROC can change. -/
def State.afterFront (s : State) (chips : List Bool) (rb rl : Fir Word) (phase acc : Word) (n : Nat) :
    State :=
  { chipsEffect chips s with
    rb := rb, rl := rl, ncoPhase := phase, chipAcc := acc, nanDraws := n }

/-- Chips do not read the state of the front end: they have their effect after its update as before. -/
theorem chipsEffect_afterFront (cs ds : List Bool) (s : State) (rb rl : Fir Word) (phase acc : Word)
    (n : Nat) :
    chipsEffect ds (s.afterFront cs rb rl phase acc n)
      = s.afterFront (cs ++ ds) rb rl phase acc n := by
  have hupdate : s.afterFront cs rb rl phase acc n
      = (chipsEffect cs s).outside (s.afterFront cs rb rl phase acc n) := rfl
  rw [hupdate, chipsEffect_outside, State.afterFront, State.afterFront, chipsEffect_append,
    chipsEffect_eq_outside ds (chipsEffect cs s)]
  rfl

theorem afterFront_afterFront (s : State) (cs ds : List Bool) (rb rl rb' rl' : Fir Word)
    (phase acc phase' acc' : Word) (n n' : Nat) :
    (s.afterFront cs rb rl phase acc n).afterFront ds rb' rl' phase' acc' n'
      = s.afterFront (cs ++ ds) rb' rl' phase' acc' n' := by
  rw [State.afterFront, chipsEffect_afterFront]
  rfl

section

variable (s : State) (cs : List Bool) (rb rl : Fir Word) (phase acc : Word) (n : Nat)

@[simp] theorem afterFront_ncoPhase : (s.afterFront cs rb rl phase acc n).ncoPhase = phase := rfl
@[simp] theorem afterFront_ncoInc : (s.afterFront cs rb rl phase acc n).ncoInc = s.ncoInc :=
  (congrArg State.ncoInc (chipsEffect_eq_outside cs s) :)
@[simp] theorem afterFront_chipInc : (s.afterFront cs rb rl phase acc n).chipInc = s.chipInc :=
  (congrArg State.chipInc (chipsEffect_eq_outside cs s) :)

end

/-! ## Slicer runs (R372) -/

/-- A stream of samples cut in two: the second part goes on from the first part's accumulator. -/
theorem SliceRun.append {inc : Word} {as bs : List Word} {a b c : Word} {cs ds : List Bool}
    (h : SliceRun inc a as b cs) (k : SliceRun inc b bs c ds) :
    SliceRun inc a (as ++ bs) c (cs ++ ds) := by
  induction as generalizing a cs with
  | nil => obtain ⟨rfl, rfl⟩ := h; exact k
  | cons l as ih =>
    obtain ⟨mid, taken, rest, hacc, hrest, rfl⟩ := h
    exact ⟨mid, taken, rest ++ ds, hacc, ih hrest, by cases taken <;> rfl⟩

/-- R372: one sample moves the accumulator and has the effect of the chip it gives, if any. -/
theorem slice_run (l : Word) (s : State) : ∃ acc chips n,
    (slice l s).2 = s.afterFront chips s.rb s.rl s.ncoPhase acc n ∧
      SliceRun s.chipInc s.chipAcc [l] acc chips := by
  obtain ⟨acc, taken, n, hs, hacc⟩ := slice_spec l s
  refine ⟨acc, if taken then [chipOf l] else [], n, ?_, acc, taken, [], hacc, ⟨rfl, rfl⟩, rfl⟩
  rw [hs]
  cases taken with
  | false => rfl
  | true =>
    rw [if_pos rfl, if_pos rfl, ← List.nil_append [chipOf l], ← chipsEffect_afterFront,
      chipsEffect_cons]
    rfl

/-! ## One step of an engine at the front of a run (R201) -/

/-- R201, R202: what stepping an engine by `x` gives: an inner product where an output is due. -/
def FirOut {α : Type} [DecidableEq α] (zero : α) (dot : List (Word × α) → α → Prop) (f : Fir α)
    (x : α) (o : Option α) : Prop :=
  (f.due = false → o = none) ∧
    (f.due = true → ∃ y, o = some y ∧ dot ((firTaps f).zip (firWindow zero (f.insert zero x))) y)

theorem FirRun.cons_out {α : Type} [DecidableEq α] {zero : α} {dot : List (Word × α) → α → Prop}
    {f f' : Fir α} {x : α} {o : Option α} {xs ys : List α} (h : FirOk zero f)
    (ho : FirOut zero dot f x o) (r : FirRun zero dot (f.insert zero x) xs ys f') :
    FirRun zero dot f (x :: xs) (o.toList ++ ys) f' := by
  obtain ⟨hskip, hout⟩ := FirRun.cons h x r
  cases hd : f.due with
  | false => rw [ho.1 hd]; exact hskip hd
  | true =>
    obtain ⟨y, rfl, hy⟩ := ho.2 hd
    exact hout hd y hy

/-! ## One sample through the front end (R370) -/

/-- R370: what `rds_front(m)` can do. Without an RB output only RB moves; with one, the oscillator
moves too, the product goes to RL, and an RL output to the slicer. -/
inductive RdsStep (s : State) (m : Word) : State → Prop
  | held (n : Nat) (hb : FirOut F32.posZero DotReal s.rb m none) :
    RdsStep s m (s.afterFront [] (s.rb.insert F32.posZero m) s.rl s.ncoPhase s.chipAcc n)
  | mixed (b r phase acc : Word) (o : Option Word) (chips : List Bool) (n : Nat)
    (hb : FirOut F32.posZero DotReal s.rb m (some b))
    (hphase : PhaseNext s.ncoInc s.ncoPhase phase)
    (hr : MixRealResult b (conjSample s.ncoPhase) r)
    (ho : FirOut F32.posZero DotReal s.rl r o)
    (hslice : SliceRun s.chipInc s.chipAcc o.toList acc chips) :
    RdsStep s m (s.afterFront chips (s.rb.insert F32.posZero m) (s.rl.insert F32.posZero r) phase
      acc n)

theorem rdsFront_step (m : Word) (s : State) : RdsStep s m (rdsFront m s).2 := by
  obtain ⟨ob, n1, h1, hb⟩ := firStepR_spec .rb m s
  rw [rdsFront, bind_apply, h1]
  cases ob with
  | none => exact .held n1 hb
  | some b =>
    obtain ⟨phase, n2, h2, hphase⟩ :=
      ncoNext_spec { s with rb := s.rb.insert F32.posZero m, nanDraws := n1 }
    obtain ⟨r, n3, h3, hr⟩ := mixReal_spec b (conjSample s.ncoPhase)
      { s with rb := s.rb.insert F32.posZero m, ncoPhase := phase, nanDraws := n2 }
    obtain ⟨ol, n4, h4, ho⟩ := firStepR_spec .rl r
      { s with rb := s.rb.insert F32.posZero m, ncoPhase := phase, nanDraws := n3 }
    simp only [State.setFir_rb, State.fir_rb, bind_apply, h2, h3, h4]
    cases ol with
    | none => exact .mixed b r phase s.chipAcc none [] n4 hb hphase hr ho ⟨rfl, rfl⟩
    | some l =>
      obtain ⟨acc, chips, n5, h5, hslice⟩ := slice_run l
        (s.afterFront [] (s.rb.insert F32.posZero m) (s.rl.insert F32.posZero r) phase s.chipAcc n4)
      rw [afterFront_afterFront] at h5
      exact h5 ▸ .mixed b r phase acc (some l) chips n5 hb hphase hr ho hslice

/-- The engines a step leaves are the ones before or have taken one input, so they stay legal. -/
theorem RdsStep.firOk {s t : State} {m : Word} (h : RdsStep s m t) (hrb : FirOk F32.posZero s.rb)
    (hrl : FirOk F32.posZero s.rl) : FirOk F32.posZero t.rb ∧ FirOk F32.posZero t.rl := by
  cases h with
  | held => exact ⟨Fir.insert_ok hrb m, hrl⟩
  | mixed _ r => exact ⟨Fir.insert_ok hrb m, Fir.insert_ok hrl r⟩

/-! ## The whole list (R371) -/

/-- The phases of a run with one more oscillator step before it. -/
def consPhase (phase : Word) (phi : Nat → Word) : Nat → Word
  | 0 => phase
  | k + 1 => phi k

theorem NcoRun.cons {inc phase : Word} {n : Nat} {phi : Nat → Word}
    (h : PhaseNext inc phase (phi 0)) (r : NcoRun inc n phi) :
    NcoRun inc (n + 1) (consPhase phase phi) := by
  intro k hk
  cases k with
  | zero => exact h
  | succ k => exact r k (by omega)

theorem RdsRun.nil {s : State} (hrb : FirOk F32.posZero s.rb) (hrl : FirOk F32.posZero s.rl) :
    RdsRun s [] s :=
  ⟨[], [], [], fun _ => s.ncoPhase, s.chipAcc, [], s.rb, s.rl, s.nanDraws, FirRun.nil _ hrb, rfl,
    fun _ hk => absurd hk (Nat.not_lt_zero _), rfl, fun _ _ _ hb => (nomatch hb), FirRun.nil _ hrl,
    ⟨rfl, rfl⟩, rfl⟩

/-- R370, R371: a run is its first sample's step and then the run from the state that step leaves. -/
theorem RdsRun.cons {s t u : State} {m : Word} {ms : List Word} (hrb : FirOk F32.posZero s.rb)
    (hrl : FirOk F32.posZero s.rl) (hstep : RdsStep s m t) (hrun : RdsRun t ms u) :
    RdsRun s (m :: ms) u := by
  obtain ⟨bs, rs, ls, phi, acc', chips', rb', rl', n', hbs, hphi, hnco, hlen, hmix, hls, hslices,
    hu⟩ := hrun
  change u = t.afterFront chips' rb' rl' (phi bs.length) acc' n' at hu
  cases hstep with
  | held n hb =>
    rw [afterFront_afterFront] at hu
    rw [afterFront_chipInc] at hslices
    rw [afterFront_ncoInc] at hnco
    exact ⟨bs, rs, ls, phi, acc', chips', rb', rl', n', FirRun.cons_out hrb hb hbs, hphi, hnco,
      hlen, hmix, hls, hslices, hu⟩
  | mixed b r phase acc o chips n hb hphase hr ho hslice =>
    rw [afterFront_afterFront] at hu
    rw [afterFront_chipInc] at hslices
    rw [afterFront_ncoInc] at hnco
    rw [afterFront_ncoPhase] at hphi
    refine ⟨b :: bs, r :: rs, o.toList ++ ls, consPhase s.ncoPhase phi, acc', chips ++ chips', rb',
      rl', n', FirRun.cons_out hrb hb hbs, rfl, NcoRun.cons (hphi ▸ hphase) hnco,
      congrArg Nat.succ hlen, ?_, FirRun.cons_out hrl ho hls, hslice.append hslices, hu⟩
    intro k b' r' hb' hr'
    cases k with
    | zero => cases hb'; cases hr'; exact hr
    | succ k => exact hmix k b' r' hb' hr'

theorem forEach_rdsFront_run {s : State} (ms : List Word) (hrb : FirOk F32.posZero s.rb)
    (hrl : FirOk F32.posZero s.rl) : RdsRun s ms (forEach rdsFront ms s).2 := by
  induction ms generalizing s with
  | nil => exact .nil hrb hrl
  | cons m ms ih =>
    have hstep := rdsFront_step m s
    obtain ⟨hrb', hrl'⟩ := hstep.firOk hrb hrl
    exact .cons hrb hrl hstep (ih hrb' hrl')

/-- Settles O38: the loop of RDS_PROC is a run of the front end, which leaves `cp` alone. -/
theorem rdsProcRun : Obligations.RdsProcRun := by
  intro s xs hrb hrl
  refine ⟨(forEach rdsFront xs s).2, forEach_rdsFront_run xs hrb hrl, ?_⟩
  have hcp : (forEach rdsFront xs s).2.cp = s.cp := (keeps_forEach _ keeps_rdsFront xs s).cp
  show Host.Outcome.next ((forEach rdsFront xs s).2.advance (1 + xs.length)) = _
  rw [State.advance, hcp, Nat.add_assoc]

end Sys2Proof.Machine
end

section
/-! PROOFS. The addresses that REG_READ and REG_WRITE refuse (20_memory.md R103, 60_exceptions.md R563):
`regAt` maps only the rows of R42 and the taps, and of the rows the access column names the writable. -/

namespace Sys2Proof.Machine

open Sys2Proof

variable {addr : BitVec 16}

/-! ## The mapped addresses (10_state.md R42, 20_memory.md R102) -/

/-- R102: the converse of `regAt_of_mem_regTable` and `regAt_of_isTapAddr`. -/
theorem mem_regTable_or_isTapAddr_of_regAt {r : Reg} (h : regAt addr = some r) :
    (addr.toNat, r) ∈ regTable ∨ IsTapAddr addr.toNat := by
  unfold regAt at h
  dsimp only at h
  split at h
  · obtain ⟨row, hfind, rfl⟩ := Option.map_eq_some_iff.mp h
    have haddr : row.1 = addr.toNat := eq_of_beq (List.find?_some hfind :)
    exact .inl (haddr ▸ List.mem_of_find?_eq_some hfind)
  · split at h
    · next hlow hk =>
      obtain ⟨i, hi, -⟩ := Option.map_eq_some_iff.mp h
      obtain ⟨hn, -⟩ := List.getElem?_eq_some_iff.mp hi
      exact .inr ⟨addr.toNat / 0x1000 - 1, addr.toNat % 0x1000, hn, hk, by omega⟩
    · cases h

theorem regAt_eq_none (s : State) (hreg : ∀ v, (addr.toNat, v) ∉ registerNats s)
    (htap : ¬ IsTapAddr addr.toNat) : regAt addr = none := by
  refine Option.eq_none_iff_forall_not_mem.mpr fun r hr => ?_
  obtain hrow | haddr := mem_regTable_or_isTapAddr_of_regAt hr
  · refine hreg (memRead r s).toNat ?_
    rw [registerNats_eq]
    exact List.mem_map_of_mem hrow
  · exact htap haddr

/-- R42, access column: the writable rows stand at the addresses of `writableAddrs`. -/
theorem mem_writableAddrs_of_mem_regTable :
    ∀ row ∈ regTable, row.2.writable = true → row.1 ∈ writableAddrs := by
  decide

theorem writable_eq_false_of_regAt {r : Reg} (h : regAt addr = some r)
    (hwrite : addr.toNat ∉ writableAddrs) (htap : ¬ IsTapAddr addr.toNat) : r.writable = false := by
  obtain hrow | haddr := mem_regTable_or_isTapAddr_of_regAt h
  · exact Bool.eq_false_iff.mpr fun hw => hwrite (mem_writableAddrs_of_mem_regTable _ hrow hw)
  · exact absurd haddr htap

/-! ## Refused reads and writes (47_control.md R512, R513) -/

theorem exec_regRead_of_regAt_eq_none (h : regAt addr = none) (s : State) :
    exec (.regRead 0 addr) s = .next (((s.raise .badReg).emit 0).advance 1) := by
  show Host.Outcome.next ((regReadBody addr s).advance 1) = _
  rw [regReadBody, h]

/-- R513: a write is refused where there is no register or the register is wholly read only. -/
theorem exec_regWrite_of_not_writable (h : ∀ r, regAt addr = some r → r.writable = false) (v : Word)
    (s : State) : exec (.regWrite 0 addr v) s = .next ((s.raise .badReg).advance 2) := by
  show Host.Outcome.next ((regWriteBody addr v s).advance 2) = _
  unfold regWriteBody
  cases hr : regAt addr with
  | none => rfl
  | some r =>
    dsimp only
    rw [h r hr, if_neg Bool.false_ne_true]

/-! ## The statements -/

/-- Settles O16: an address outside R42 and the taps has no register. -/
theorem unmappedReadRaisesBadReg : Obligations.UnmappedReadRaisesBadReg :=
  fun s _ hreg htap => exec_regRead_of_regAt_eq_none (regAt_eq_none s hreg htap) s

/-- Settles O17: the register at such an address, where there is one, is wholly read only. -/
theorem refusedWriteRaisesBadReg : Obligations.RefusedWriteRaisesBadReg :=
  fun s _ v hwrite htap => exec_regWrite_of_not_writable
    (fun _ hr => writable_eq_false_of_regAt hr hwrite htap) v s

end Sys2Proof.Machine
end

section
/-! PROOFS. Decoder and encoder are inverse to each other (30_encoding.md R140 to R144, R148), and what
a step does with the unread words (R143, R619). -/

namespace Sys2Proof.Machine

open Sys2Proof Sys2Proof.Laws

/-! ## The command word (R140, R144) -/

theorem opcodeByte_of_opcodeOf {b : BitVec 8} {o : Opcode} (h : opcodeOf b = some o) :
    opcodeByte o = b :=
  eq_of_beq (List.find?_some h :)

theorem fields_append (w : Word) : fieldOpc w ++ fieldSel w ++ fieldImm w = w := by
  unfold fieldOpc fieldSel fieldImm
  rw [BitVec.extractLsb'_append_extractLsb'_eq_extractLsb' (by omega),
    BitVec.extractLsb'_append_extractLsb'_eq_extractLsb' (by omega), BitVec.extractLsb'_eq_self]

/-- R140: a word with a known opcode has no bits beside its three fields. -/
theorem commandWord_of_opcodeOf {w : Word} {o : Opcode} (h : opcodeOf (fieldOpc w) = some o) :
    commandWord o (fieldSel w) (fieldImm w) = w := by
  rw [commandWord, opcodeByte_of_opcodeOf h, fields_append]

/-! ## The decoder on a command word (R142, R143) -/

section

variable (o : Opcode) (sel : BitVec 8) (imm : BitVec 16) {p : List Word}

/-- R143: with all its payload words present a command is read, and only they are taken. -/
theorem decode_commandWord_append (hp : p.length = payloadLen o imm.toNat) (rest : List Word) :
    decode (commandWord o sel imm :: (p ++ rest)) = .ok (assemble o sel imm p, rest) := by
  have hle : payloadLen o imm.toNat ≤ (p ++ rest).length := by
    rw [List.length_append]; omega
  rw [decode, fieldOpc_commandWord, opcodeOf_opcodeByte, fieldSel_commandWord, fieldImm_commandWord]
  dsimp only
  rw [if_pos hle, ← hp, List.take_left, List.drop_left]

/-- R143: with a payload word missing no command is read. -/
theorem decode_commandWord_of_lt (hp : p.length < payloadLen o imm.toNat) :
    decode (commandWord o sel imm :: p)
      = .error (.payloadMissing o (payloadLen o imm.toNat - p.length)) := by
  rw [decode, fieldOpc_commandWord, opcodeOf_opcodeByte, fieldImm_commandWord]
  dsimp only
  rw [if_neg (Nat.not_le_of_lt hp)]

end

/-- What the decoder answers a command for: a command word and the payload it announces. -/
theorem decode_eq_ok {ws rest : List Word} {i : Instr} (h : decode ws = .ok (i, rest)) :
    ∃ o sel imm p, ws = commandWord o sel imm :: (p ++ rest) ∧
      p.length = payloadLen o imm.toNat ∧ i = assemble o sel imm p := by
  cases ws with
  | nil => cases h
  | cons w ws =>
    rw [decode] at h
    cases ho : opcodeOf (fieldOpc w) with
    | none => rw [ho] at h; cases h
    | some o =>
      rw [ho] at h
      dsimp only at h
      split at h
      · next hle =>
        cases h
        refine ⟨o, fieldSel w, fieldImm w, ws.take (payloadLen o (fieldImm w).toNat), ?_,
          List.length_take_of_le hle, rfl⟩
        rw [commandWord_of_opcodeOf ho, List.take_append_drop]
      · cases h

/-! ## From a command to its fields and back (R141, R148) -/

/-- R148: no payload bit of a command is lost. -/
theorem assemble_fields (i : Instr) :
    assemble (instrOpcode i) (instrSel i) (instrImm i) (instrPayload i) = i := by
  cases i with
  | firProcC sel cap xs => exact congrArg (Instr.firProcC sel cap) (pairSamples_flattenSamples xs)
  | fmdProc sel cap xs => exact congrArg (Instr.fmdProc sel cap) (pairSamples_flattenSamples xs)
  | mix sel xs => exact congrArg (Instr.mix sel) (pairSamples_flattenSamples xs)
  | _ => rfl

/-- R143, by the length of each command. -/
theorem encodedLength (i : Instr) : EncodedLength.Statement i := by
  cases i with
  | nop => exact EncodedLength.nop _ _
  | reset => exact EncodedLength.reset _ _
  | regRead => exact EncodedLength.regRead _ _
  | regWrite => exact EncodedLength.regWrite _ _ _
  | firProcC => exact EncodedLength.firProcC _ _ _
  | firProcR => exact EncodedLength.firProcR _ _ _
  | firReset => exact EncodedLength.firReset _ _
  | ncoSet => exact EncodedLength.ncoSet _ _ _ _
  | ncoNext => exact EncodedLength.ncoNext _ _
  | mix => exact EncodedLength.mix _ _
  | convU8 => exact EncodedLength.convU8 _ _
  | fmdProc => exact EncodedLength.fmdProc _ _ _
  | audProc => exact EncodedLength.audProc _ _ _
  | rdsProc => exact EncodedLength.rdsProc _ _
  | rdsSlice => exact EncodedLength.rdsSlice _ _
  | rdsChip => exact EncodedLength.rdsChip _ _
  | rdsBit => exact EncodedLength.rdsBit _ _
  | crcSyn => exact EncodedLength.crcSyn _ _ _
  | rdsGroup => exact EncodedLength.rdsGroup _ _ _ _ _ _
  | chainU8 => exact EncodedLength.chainU8 _ _

/-- R141: where the payload depends on IMM, IMM holds the sample count. -/
theorem payloadLen_instrImm {i : Instr} (h : i.framed = true) :
    payloadLen (instrOpcode i) (instrImm i).toNat = payloadLen (instrOpcode i) i.count := by
  have hcount : (BitVec.ofNat 16 i.count).toNat = i.count :=
    Nat.mod_eq_of_lt (Nat.lt_succ_of_le ((framed_iff i).mp h))
  cases i with
  | nop | reset | regRead | regWrite | firReset | ncoSet | ncoNext | crcSyn | rdsGroup => rfl
  | _ => exact congrArg (payloadLen _) hcount

/-- R142: a framed command has the payload its command word announces. -/
theorem instrPayload_length {i : Instr} (h : i.framed = true) :
    (instrPayload i).length = payloadLen (instrOpcode i) (instrImm i).toNat := by
  have hlen : (encode i).length = instrLength i := encodedLength i
  rw [encode_length, instrLength] at hlen
  rw [payloadLen_instrImm h]
  exact Nat.add_left_cancel hlen

/-! ## From fields to a command and back (R141, R148) -/

/-- R14: an even number of words is the words of the samples they are read as. -/
theorem flattenSamples_pairSamples {n : Nat} {ws : List Word} (h : ws.length = 2 * n) :
    flattenSamples (pairSamples ws) = ws := by
  induction n generalizing ws with
  | zero => rw [List.length_eq_zero_iff.mp h]; rfl
  | succ n ih =>
    match ws, h with
    | a :: b :: ws, h =>
      have hws : ws.length = 2 * n := by simp only [List.length_cons] at h; omega
      rw [pairSamples, flattenSamples, ih hws]

/-- R141: a list of as many samples as IMM says gives IMM back and fits it. -/
theorem imm_of_count {n : Nat} {imm : BitVec 16} (h : n = imm.toNat) :
    BitVec.ofNat 16 n = imm ∧ n ≤ imm.toNat := by
  rw [h, BitVec.ofNat_toNat, BitVec.setWidth_eq]
  exact ⟨rfl, Nat.le_refl _⟩

section

variable (o : Opcode) (sel : BitVec 8) (imm : BitVec 16) {p : List Word}

theorem instrOpcode_assemble : instrOpcode (assemble o sel imm p) = o := by
  cases o <;> rfl

theorem instrSel_assemble : instrSel (assemble o sel imm p) = sel := by
  cases o <;> rfl

theorem instrPayload_assemble (h : p.length = payloadLen o imm.toNat) :
    instrPayload (assemble o sel imm p) = p := by
  cases o with
  | nop | reset | regRead | firReset | ncoNext => exact (List.length_eq_zero_iff.mp h).symm
  | regWrite | crcSyn => match p, h with | [_], _ => rfl
  | ncoSet => match p, h with | [_, _], _ => rfl
  | rdsGroup => match p, h with | [_, _, _, _], _ => rfl
  | firProcR | audProc =>
    rw [payloadLen, Nat.add_comm] at h
    obtain ⟨cap, xs, rfl⟩ := List.exists_cons_of_length_eq_add_one h
    rfl
  | firProcC | fmdProc =>
    rw [payloadLen, Nat.add_comm] at h
    obtain ⟨cap, ws, rfl⟩ := List.exists_cons_of_length_eq_add_one h
    exact congrArg (cap :: ·) (flattenSamples_pairSamples (Nat.succ.inj h))
  | mix => exact flattenSamples_pairSamples h
  | convU8 | rdsProc | rdsSlice | rdsChip | rdsBit | chainU8 => rfl

/-- R141: an assembled command has the IMM it was sent with, and its sample count fits there. -/
theorem instrImm_assemble (h : p.length = payloadLen o imm.toNat) :
    instrImm (assemble o sel imm p) = imm ∧ (assemble o sel imm p).count ≤ imm.toNat := by
  cases o with
  | nop | reset | regRead | regWrite | firReset | ncoSet | crcSyn | rdsGroup =>
    exact ⟨rfl, Nat.zero_le _⟩
  | ncoNext => exact ⟨rfl, Nat.le_refl _⟩
  | firProcC | fmdProc =>
    refine imm_of_count ?_
    rw [pairSamples_length, List.length_drop, h, payloadLen]
    omega
  | firProcR | audProc =>
    refine imm_of_count ?_
    rw [List.length_drop, h, payloadLen]
    omega
  | mix =>
    refine imm_of_count ?_
    rw [pairSamples_length, h, payloadLen]
    omega
  | convU8 | rdsProc | rdsSlice | rdsChip | rdsBit | chainU8 => exact imm_of_count h

theorem encode_assemble (h : p.length = payloadLen o imm.toNat) :
    encode (assemble o sel imm p) = commandWord o sel imm :: p := by
  obtain ⟨himm, -⟩ := instrImm_assemble o sel imm h
  rw [encode, instrOpcode_assemble, instrSel_assemble, himm, instrPayload_assemble o sel imm h]

theorem framed_assemble (h : p.length = payloadLen o imm.toNat) :
    (assemble o sel imm p).framed = true := by
  obtain ⟨-, hcount⟩ := instrImm_assemble o sel imm h
  exact (framed_iff _).mpr (hcount.trans (Nat.le_of_lt_succ imm.isLt))

end

/-! ## The round trips (R140 to R144) -/

/-- Settles O1: the decoder takes the announced payload, and the fields make the command again. -/
theorem decodeEncodeRoundTrip : Obligations.DecodeEncodeRoundTrip := by
  intro i rest h
  rw [encode, List.cons_append, decode_commandWord_append _ _ _ (instrPayload_length h) rest,
    assemble_fields]

/-- Settles O2: what decodes is a command word with its payload, which encode what they mean. -/
theorem decodedWordsAreTheEncoding : Obligations.DecodedWordsAreTheEncoding := by
  intro ws i rest h
  obtain ⟨o, sel, imm, p, rfl, hp, rfl⟩ := decode_eq_ok h
  rw [encode_assemble o sel imm hp]
  exact ⟨rfl, framed_assemble o sel imm hp⟩

/-! ## The step on part of a command and on all of it (R143, R619) -/

/-- R143: before its last word is there a command does not decode. -/
theorem decode_take_encode {i : Instr} (hi : i.framed = true) {k : Nat} (hk : k < (encode i).length) :
    decode ((encode i).take k) = .error .noWord ∨
      ∃ m, decode ((encode i).take k) = .error (.payloadMissing (instrOpcode i) m) := by
  cases k with
  | zero => exact .inl rfl
  | succ k =>
    refine .inr ⟨_, decode_commandWord_of_lt (instrOpcode i) (instrSel i) (instrImm i) ?_⟩
    rw [encode_length] at hk
    rw [List.length_take, ← instrPayload_length hi]
    omega

/-- R619: with part of a command unread the machine waits. -/
theorem step_of_fetch_eq_take {s : State} {i : Instr} (hi : i.framed = true) {k : Nat}
    (hfetch : fetch s = (encode i).take k) (hk : k < (encode i).length) : step s = .next s := by
  rw [step, hfetch]
  obtain h | ⟨m, h⟩ := decode_take_encode hi hk
  · rw [h]; rfl
  · rw [h]; rfl

theorem step_of_fetch_eq_encode {s : State} {i : Instr} (hi : i.framed = true)
    (hfetch : fetch s = encode i) : step s = exec i s := by
  refine step_of_decode (rest := []) ?_
  rw [hfetch, ← List.append_nil (encode i)]
  exact decodeEncodeRoundTrip i [] hi

/-- R57: words the host supplies come after the unread ones. -/
theorem fetch_supply {s : State} (hcp : s.cp ≤ s.stream.length) (ws : List Word) :
    fetch (s.supply ws) = fetch s ++ ws :=
  List.drop_append_of_le_length hcp

/-- Settles O6: the unread words are a proper part of the command, then with the others all of it. -/
theorem partialCommandWaits : Obligations.PartialCommandWaits := by
  intro s i k hi hcp hfetch
  refine ⟨step_of_fetch_eq_take hi hfetch, step_of_fetch_eq_encode hi ?_⟩
  calc fetch (s.supply ((encode i).drop k))
      = fetch s ++ (encode i).drop k := fetch_supply hcp _
    _ = (encode i).take k ++ (encode i).drop k := congrArg (· ++ _) hfetch
    _ = encode i := List.take_append_drop k _

/-- Settles O3: the decoder evaluated on the words of the spec. -/
theorem specWordsDecode : Obligations.SpecWordsDecode :=
  ⟨rfl, rfl, rfl, rfl, rfl, rfl, rfl, rfl⟩

/-- Settles O4: the unread words are what the step fetches. -/
theorem stepRunsDecodedCommand : Obligations.StepRunsDecodedCommand :=
  fun _ _ _ h => step_of_decode h

end Sys2Proof.Machine
end

section
/-! PROOFS. The FIR commands over whole lists of samples (40_fir.md R201 to R213). The real and the
complex engine are stepped in the same way, said once as `StepsEngine`; a loop over inputs is then a
`FirRun`. What a real engine gives depends on that engine and the number of drawn NaNs alone, said as
`Respects (SameEngine i)`; FIR_RESET and a split of the inputs are two uses of it. -/

namespace Sys2Proof.Machine

open Sys2Proof

/-! ## An engine in the state -/

/-- An engine of the state and its update together with the count of drawn NaNs. -/
structure EngineSlot (α : Type) where
  engine : State → Fir α
  put : State → Fir α → Nat → State

/-- The slot of a real engine (R50). -/
def realSlot (i : RealInst) : EngineSlot Word where
  engine s := s.fir i
  put s f n := { s.setFir i f with nanDraws := n }

/-- The slot of the complex engine (R50). -/
def cplxSlot : EngineSlot Cplx where
  engine s := s.ch
  put s f n := { s with ch := f, nanDraws := n }

/-- R201: `stp` steps the engine of a slot: the engine takes the input, an output comes where one is
due, and nothing else changes but the count of drawn NaNs. -/
structure StepsEngine {α : Type} [DecidableEq α] (zero : α) (dot : List (Word × α) → α → Prop)
    (slot : EngineSlot α) (stp : α → M (Option α)) : Prop where
  engine_put : ∀ s f n, slot.engine (slot.put s f n) = f
  put_put : ∀ s f n g m, slot.put (slot.put s f n) g m = slot.put s g m
  put_engine : ∀ s, slot.put s (slot.engine s) s.nanDraws = s
  step : ∀ x s, ∃ o n, stp x s = (o, slot.put s ((slot.engine s).insert zero x) n) ∧
    FirOut zero dot (slot.engine s) x o

theorem firStepR_stepsEngine (i : RealInst) :
    StepsEngine F32.posZero DotReal (realSlot i) (firStepR i) where
  engine_put s f n := fir_setFir_draws s i f n
  put_put s f n g m := by cases i <;> rfl
  put_engine s := by cases i <;> rfl
  step := firStepR_spec i

theorem firStepC_stepsEngine : StepsEngine cplxZero DotCplx cplxSlot firStepC where
  engine_put _ _ _ := rfl
  put_put _ _ _ _ _ := rfl
  put_engine _ := rfl
  step := firStepC_spec

/-- R201 to R205: a loop over inputs is a run of the engine, of whose outputs the first are kept while
there is room for them. -/
theorem StepsEngine.keepOutputs_run {α : Type} [DecidableEq α] {zero : α}
    {dot : List (Word × α) → α → Prop} {slot : EngineSlot α} {stp : α → M (Option α)}
    (h : StepsEngine zero dot slot stp) (cap : Word) (xs : List α) (m : Nat) (s : State)
    (hs : FirOk zero (slot.engine s)) :
    ∃ ys f n, FirRun zero dot (slot.engine s) xs ys f ∧ FirOk zero f ∧
      keepOutputs stp (underCap cap) xs m s = (ys.take (cap.toNat - m), slot.put s f n) := by
  induction xs generalizing m s with
  | nil =>
    refine ⟨[], slot.engine s, s.nanDraws, FirRun.nil dot hs, hs, ?_⟩
    rw [keepOutputs_nil, h.put_engine, List.take_nil]
  | cons x xs ih =>
    obtain ⟨o, n₁, hstep, ho⟩ := h.step x s
    have hengine := h.engine_put s ((slot.engine s).insert zero x) n₁
    have hrest : ∀ k, ∃ ys f n,
        FirRun zero dot (slot.engine s) (x :: xs) (o.toList ++ ys) f ∧ FirOk zero f ∧
        keepOutputs stp (underCap cap) xs k (stp x s).2
          = (ys.take (cap.toNat - k), slot.put s f n) := by
      intro k
      obtain ⟨ys, f, n, hrun, hok, hkeep⟩ := ih k (stp x s).2 (by
        rw [hstep, hengine]; exact Fir.insert_ok hs x)
      rw [hstep, hengine] at hrun
      refine ⟨ys, f, n, FirRun.cons_out hs ho hrun, hok, ?_⟩
      rw [hkeep, hstep, h.put_put]
    have hfst : (stp x s).1 = o := by rw [hstep]
    rw [keepOutputs_cons, hfst]
    cases o with
    | none => exact hrest m
    | some y =>
      by_cases hm : m < cap.toNat
      · obtain ⟨ys, f, n, hrun, hok, hkeep⟩ := hrest (m + 1)
        refine ⟨y :: ys, f, n, hrun, hok, ?_⟩
        dsimp only
        rw [underCap, decide_eq_true hm, if_pos rfl, hkeep,
          show cap.toNat - m = cap.toNat - (m + 1) + 1 by omega, List.take_succ_cons]
      · obtain ⟨ys, f, n, hrun, hok, hkeep⟩ := hrest m
        refine ⟨y :: ys, f, n, hrun, hok, ?_⟩
        dsimp only
        rw [underCap, decide_eq_false hm, if_neg Bool.false_ne_true, hkeep,
          show cap.toNat - m = 0 by omega, List.take_zero, List.take_zero]

/-! ## The commands as their loops (R206, R207, R209) -/

/-- A real engine's number and the engine it names, as the statements list them. -/
theorem sel_names_realInst {sel : BitVec 8} {i : RealInst}
    (h : (sel, i) ∈ [(1#8, RealInst.au), (2#8, RealInst.rb), (3#8, RealInst.rl)]) :
    realOfSel sel = some i ∧ instOfSel sel = some (.real i) := by
  simp only [List.mem_cons, Prod.mk.injEq, List.not_mem_nil, or_false] at h
  obtain ⟨rfl, rfl⟩ | ⟨rfl, rfl⟩ | ⟨rfl, rfl⟩ := h <;> exact ⟨rfl, rfl⟩

theorem exec_firProcR_eq {sel : BitVec 8} {i : RealInst} (h : realOfSel sel = some i) (cap : Word)
    (xs : List Word) (s : State) :
    exec (.firProcR sel cap xs) s
      = .next ((runM (firProcRBody i cap xs) s).advance (2 + xs.length)) := by
  show execFirProcR sel cap xs s = _
  rw [execFirProcR, h]
  rfl

theorem exec_firReset_eq {sel : BitVec 8} {i : Inst} (h : instOfSel sel = some i) (s : State) :
    exec (.firReset sel 0) s = .next ((s.firReset i).advance 1) := by
  show execFirReset sel 0 s = _
  rw [execFirReset, h]
  rfl

theorem firProcRBody_eq (i : RealInst) (cap : Word) (xs : List Word) (s : State) :
    runM (firProcRBody i cap xs) s =
      (keepOutputs (firStepR i) (underCap cap) xs 0 s).2.emitCounted
        (keepOutputs (firStepR i) (underCap cap) xs 0 s).1
        (keepOutputs (firStepR i) (underCap cap) xs 0 s).1.length :=
  rfl

/-- Two words per complex sample, the real part first (R14). -/
theorem flattenSamples_eq_flatMap (zs : List Cplx) :
    flattenSamples zs = zs.flatMap fun z => [z.re, z.im] := by
  induction zs with
  | nil => rfl
  | cons z zs ih => rw [flattenSamples, ih]; rfl

/-- R205, R149: the count of the outputs kept. -/
theorem countWord_take {α : Type} (ys : List α) (c : Nat) :
    countWord (ys.take c).length = BitVec.ofNat 32 (min ys.length c) := by
  rw [countWord, List.length_take, Nat.min_comm]

/-- Settles O24: the loop of FIR_PROC_R is a run of the engine. -/
theorem firProcRealRun : Obligations.FirProcRealRun := by
  intro s sel i cap xs hsel hok
  obtain ⟨ys, f, n, hrun, hok', hkeep⟩ :=
    (firStepR_stepsEngine i).keepOutputs_run cap xs 0 s hok
  refine ⟨ys, f, n, hrun, hok', ?_⟩
  rw [exec_firProcR_eq (sel_names_realInst hsel).1, firProcRBody_eq, hkeep, Nat.sub_zero,
    State.emitCounted, countWord_take, Nat.add_assoc]
  cases i <;> rfl

/-- Settles O25: the loop of FIR_PROC_C is a run of the engine. -/
theorem firProcComplexRun : Obligations.FirProcComplexRun := by
  intro s cap xs hok
  obtain ⟨ys, f, n, hrun, hok', hkeep⟩ := firStepC_stepsEngine.keepOutputs_run cap xs 0 s hok
  refine ⟨ys, f, n, hrun, hok', ?_⟩
  show Host.Outcome.next ((State.emitCounted (keepOutputs firStepC (underCap cap) xs 0 s).2
    (flattenSamples (keepOutputs firStepC (underCap cap) xs 0 s).1)
    (keepOutputs firStepC (underCap cap) xs 0 s).1.length).advance (2 + 2 * xs.length)) = _
  rw [hkeep, Nat.sub_zero, State.emitCounted, countWord_take, flattenSamples_eq_flatMap,
    Nat.add_assoc]
  rfl

/-! ## What an engine's outputs depend on (R210, R211) -/

/-- From states that `R` relates, `m` gives the same value and leaves states that `R` relates. -/
def Respects {α : Type} (R : State → State → Prop) (m : M α) : Prop :=
  ∀ s t, R s t → (m s).1 = (m t).1 ∧ R (m s).2 (m t).2

section

variable {α β : Type} {R : State → State → Prop}

theorem Respects.pure (a : α) : Respects R (pure a) := fun _ _ h => ⟨rfl, h⟩

theorem Respects.bind {m : M α} {f : α → M β} (hm : Respects R m) (hf : ∀ a, Respects R (f a)) :
    Respects R (m >>= f) := by
  intro s t h
  obtain ⟨hval, hstate⟩ := hm s t h
  rw [bind_apply, bind_apply, hval]
  exact hf _ _ _ hstate

theorem Respects.keepOutputs {stp : α → M (Option β)} (h : ∀ x, Respects R (stp x))
    (keep : Nat → Bool) (xs : List α) (m : Nat) : Respects R (keepOutputs stp keep xs m) := by
  induction xs generalizing m with
  | nil => exact .pure []
  | cons x xs ih =>
    refine .bind (h x) fun o => ?_
    cases o with
    | none => exact ih m
    | some y =>
      dsimp only
      split
      · exact .bind (ih (m + 1)) fun _ => .pure _
      · exact ih m

end

/-- Two states with the same real engine and as many NaNs drawn (log entry 1). -/
structure SameEngine (i : RealInst) (s t : State) : Prop where
  engine : s.fir i = t.fir i
  draws : s.nanDraws = t.nanDraws

/-- The end of a command moves no engine and draws nothing. -/
theorem sameEngine_emitCounted (i : RealInst) (s : State) (ws : List Word) (m len : Nat) :
    SameEngine i s ((s.emitCounted ws m).advance len) :=
  ⟨by cases i <;> rfl, rfl⟩

theorem SameEngine.emitCounted {i : RealInst} {s t : State} (h : SameEngine i s t)
    {ws ws' : List Word} {m m' len len' : Nat} :
    SameEngine i ((s.emitCounted ws m).advance len) ((t.emitCounted ws' m').advance len') :=
  ⟨by cases i <;> exact h.engine, h.draws⟩

section

variable (i : RealInst)

theorem respects_orNaN (r : Option Word) : Respects (SameEngine i) (orNaN r) := by
  intro s t h
  cases r with
  | some w => exact ⟨rfl, h⟩
  | none =>
    rw [orNaN, drawNaN_eq, drawNaN_eq, h.draws]
    exact ⟨rfl, by cases i <;> exact h.engine, rfl⟩

theorem respects_accumulateR (f : Fir Word) (ks : List Nat) (acc : Word) :
    Respects (SameEngine i) (accumulateR f ks acc) := by
  induction ks generalizing acc with
  | nil => exact .pure acc
  | cons k ks ih =>
    exact .bind (respects_orNaN i _) fun _ => .bind (respects_orNaN i _) fun _ => ih _

/-- R201: a step as the engine's update and then the output, where one is due. -/
theorem firStepR_apply (x : Word) (s : State) :
    firStepR i x s =
      (if (s.fir i).due then firDotR ((s.fir i).insert F32.posZero x) >>= fun y => pure (some y)
        else pure none : M (Option Word)) (s.setFir i ((s.fir i).insert F32.posZero x)) :=
  rfl

/-- R201, R203: a step reads and writes nothing but its engine and the draws. -/
theorem respects_firStepR (x : Word) : Respects (SameEngine i) (firStepR i x) := by
  intro s t h
  have hset : SameEngine i (s.setFir i ((t.fir i).insert F32.posZero x))
      (t.setFir i ((t.fir i).insert F32.posZero x)) :=
    ⟨by rw [State.setFir_fir_same, State.setFir_fir_same],
      by rw [State.setFir_nanDraws, State.setFir_nanDraws, h.draws]⟩
  rw [firStepR_apply, firStepR_apply, h.engine]
  split
  · exact Respects.bind (respects_accumulateR i _ _ _) (fun y => .pure (some y)) _ _ hset
  · exact ⟨rfl, hset⟩

/-- R207: the loop emits nothing, so the words after it come next. -/
theorem emitCounted_keepOutputs_resp (keep : Nat → Bool) (xs : List Word) (k : Nat) (s : State)
    (ws : List Word) (m len : Nat) :
    (((keepOutputs (firStepR i) keep xs k s).2.emitCounted ws m).advance len).resp
      = s.resp ++ (ws ++ [countWord m]) := by
  have hloop : (keepOutputs (firStepR i) keep xs k s).2.resp = s.resp := by
    refine keepOutputs_keeps (fun s t => t.resp = s.resp) (fun _ => rfl)
      (fun _ _ _ hst htu => htu.trans hst) _ keep (fun x s => ?_) xs k s
    obtain ⟨o, n, hstep, -⟩ := firStepR_spec i x s
    rw [hstep]
    exact State.setFir_resp s i _
  rw [State.advance_resp, State.emitCounted_resp, hloop]

/-- R208: after their reset two engines with the same T, D and taps are the same. -/
theorem sameEngine_firReset {s t : State} (ht : (s.fir i).t = (t.fir i).t)
    (hd : (s.fir i).d = (t.fir i).d) (htaps : (s.fir i).taps = (t.fir i).taps)
    (hdraws : s.nanDraws = t.nanDraws) (len : Nat) :
    SameEngine i ((s.firReset (.real i)).advance len) ((t.firReset (.real i)).advance len) := by
  have hreset : (s.fir i).reset = (t.fir i).reset := by rw [Fir.reset, Fir.reset, ht, hd, htaps]
  exact ⟨by cases i <;> exact hreset, by cases i <;> exact hdraws⟩

end

/-- Settles O27: FIR_RESET makes the engines the same, and FIR_PROC_R respects that. -/
theorem firOutputsForgetBeforeReset : Obligations.FirOutputsForgetBeforeReset := by
  intro s s' u u' sel i cap xs hsel ht hd htaps hdraws hu hu'
  obtain ⟨hreal, hinst⟩ := sel_names_realInst hsel
  rw [exec_firReset_eq hinst] at hu hu'
  injection hu with hu
  injection hu' with hu'
  have hresp : u.resp = s.resp := by rw [← hu]; exact State.setFir_resp s i _
  have hresp' : u'.resp = s'.resp := by rw [← hu']; exact State.setFir_resp s' i _
  have hsame : SameEngine i u u' := by
    rw [← hu, ← hu']; exact sameEngine_firReset i ht hd htaps hdraws 1
  obtain ⟨hout, hend⟩ := Respects.keepOutputs (respects_firStepR i) (underCap cap) xs 0 _ _ hsame
  rw [exec_firProcR_eq hreal, exec_firProcR_eq hreal, firProcRBody_eq, firProcRBody_eq, ← hout]
  exact ⟨_, _, _, rfl, rfl,
    (emitCounted_keepOutputs_resp i _ xs 0 u _ _ _).trans (congrArg (· ++ _) hresp),
    (emitCounted_keepOutputs_resp i _ xs 0 u' _ _ _).trans (congrArg (· ++ _) hresp'),
    hend.emitCounted.engine⟩

/-! ## Inputs in two parts (R210) -/

section

variable {α β : Type} (stp : α → M (Option β))

/-- R205: with room for every output the loop does not depend on the capacity or on how many outputs
are kept before. -/
theorem keepOutputs_of_room {keep keep' : Nat → Bool} (xs : List α) (m m' : Nat) (s : State)
    (h : ∀ k < m + xs.length, keep k = true) (h' : ∀ k < m' + xs.length, keep' k = true) :
    keepOutputs stp keep xs m s = keepOutputs stp keep' xs m' s := by
  induction xs generalizing m m' s with
  | nil => rfl
  | cons x xs ih =>
    rw [List.length_cons] at h h'
    rw [keepOutputs_cons, keepOutputs_cons]
    cases (stp x s).1 with
    | none => exact ih m m' _ (fun k hk => h k (by omega)) fun k hk => h' k (by omega)
    | some y =>
      dsimp only
      rw [if_pos (h m (by omega)), if_pos (h' m' (by omega)),
        ih (m + 1) (m' + 1) _ (fun k hk => h k (by omega)) fun k hk => h' k (by omega)]

/-- Every input stepped, every output kept. -/
def allOutputs (xs : List α) : M (List β) := keepOutputs stp (fun _ => true) xs 0

theorem keepOutputs_underCap {cap : Word} {xs : List α} (h : xs.length ≤ cap.toNat) (s : State) :
    keepOutputs stp (underCap cap) xs 0 s = allOutputs stp xs s :=
  keepOutputs_of_room stp xs 0 0 s (fun k hk => decide_eq_true (by omega)) fun _ _ => rfl

/-- The outputs of a list in two parts: those of the first, then those of the second from there. -/
theorem allOutputs_append (xs ys : List α) (s : State) :
    allOutputs stp (xs ++ ys) s =
      ((allOutputs stp xs s).1 ++ (allOutputs stp ys (allOutputs stp xs s).2).1,
        (allOutputs stp ys (allOutputs stp xs s).2).2) := by
  induction xs generalizing s with
  | nil => rfl
  | cons x xs ih =>
    have hcons : ∀ zs, allOutputs stp (x :: zs) s =
        ((stp x s).1.toList ++ (allOutputs stp zs (stp x s).2).1, (allOutputs stp zs (stp x s).2).2) := by
      intro zs
      rw [allOutputs, keepOutputs_cons]
      cases (stp x s).1 with
      | none => rfl
      | some y =>
        dsimp only
        rw [if_pos rfl, keepOutputs_of_room stp zs _ 0 _ (fun _ _ => rfl) fun _ _ => rfl]
        rfl
    rw [List.cons_append, hcons, hcons, ih, List.append_assoc]

end

/-- R205: FIR_PROC_R with a capacity for every input emits every output. -/
theorem exec_firProcR_allOutputs {sel : BitVec 8} {i : RealInst} (h : realOfSel sel = some i)
    {cap : Word} {xs : List Word} (hcap : xs.length ≤ cap.toNat) (s : State) :
    exec (.firProcR sel cap xs) s =
      .next (((allOutputs (firStepR i) xs s).2.emitCounted (allOutputs (firStepR i) xs s).1
        (allOutputs (firStepR i) xs s).1.length).advance (2 + xs.length)) := by
  rw [exec_firProcR_eq h, firProcRBody_eq, keepOutputs_underCap _ hcap]

/-- Settles O28: the second command starts from the engine and the draws that the first part leaves. -/
theorem firChunkingIsInvisible : Obligations.FirChunkingIsInvisible := by
  intro s sel i cap xs ys hsel hcap
  have hreal := (sel_names_realInst hsel).1
  rw [exec_firProcR_allOutputs hreal (by rwa [List.length_append]), allOutputs_append,
    exec_firProcR_allOutputs hreal (by omega)]
  set r := allOutputs (firStepR i) xs s
  set u := (r.2.emitCounted r.1 r.1.length).advance (2 + xs.length)
  obtain ⟨hout, hend⟩ : (allOutputs (firStepR i) ys r.2).1 = (allOutputs (firStepR i) ys u).1 ∧
      SameEngine i (allOutputs (firStepR i) ys r.2).2 (allOutputs (firStepR i) ys u).2 :=
    Respects.keepOutputs (respects_firStepR i) (fun _ => true) ys 0 r.2 u
      (sameEngine_emitCounted i r.2 r.1 r.1.length (2 + xs.length))
  have hu : u.resp = s.resp ++ (r.1 ++ [countWord r.1.length]) :=
    emitCounted_keepOutputs_resp i _ xs 0 s _ _ _
  have hmid : r.2.resp = s.resp := List.append_cancel_right hu
  refine ⟨_, u, _, r.1, (allOutputs (firStepR i) ys r.2).1, rfl, rfl,
    exec_firProcR_allOutputs hreal (by omega) u, ?_, hu, ?_, hend.emitCounted.engine.symm,
    hend.draws.symm⟩
  · rw [← hmid, ← List.length_append]
    exact emitCounted_keepOutputs_resp i _ ys 0 r.2 _ _ _
  · rw [hout]
    exact emitCounted_keepOutputs_resp i _ ys 0 u _ _ _

/-- Settles O26: each engine number names its own engine. -/
theorem firResetClearsOneEngine : Obligations.FirResetClearsOneEngine := fun s =>
  ⟨exec_firReset_eq (i := .ch) rfl s, exec_firReset_eq (i := .real .au) rfl s,
    exec_firReset_eq (i := .real .rb) rfl s, exec_firReset_eq (i := .real .rl) rfl s⟩

end Sys2Proof.Machine
end

section
/-! PROOFS. The invariant of every reachable state (40_fir.md R200, 10_state.md R41, R44, R49, R55,
46_rds_group.md R470 to R478). Its parts are four: the engines, the synchronizer, the held chip and the
PS name. Each unit is shown to keep the parts it writes; a frame carries the others past it. -/

namespace Sys2Proof.Machine

open Sys2Proof

/-! ## The parts of the invariant -/

/-- R200: every engine is legal. -/
def EnginesOk (s : State) : Prop :=
  FirOk cplxZero s.ch ∧ FirOk F32.posZero s.au ∧ FirOk F32.posZero s.rb ∧ FirOk F32.posZero s.rl

/-- R44, R49: BITCNT and SLOT agree with the synchronization. -/
def SyncOk (s : State) : Prop :=
  s.bitcnt.toNat ≤ 26 ∧ (s.haveSync = true → s.bitcnt.toNat < 26) ∧
    (s.haveSync = false → s.slot = 0)

theorem syncOk_synced {s : State} (hs : s.haveSync = true) (hcnt : s.bitcnt.toNat < 26) : SyncOk s :=
  ⟨hcnt.le, fun _ => hcnt, fun hs' => absurd (hs.symm.trans hs') (by decide)⟩

theorem syncOk_unsynced {s : State} (hs : s.haveSync = false) (hcnt : s.bitcnt.toNat ≤ 26)
    (hslot : s.slot = 0) : SyncOk s :=
  ⟨hcnt, fun hs' => absurd (hs.symm.trans hs') (by decide), fun _ => hslot⟩

/-- R49: CHIP0 reads 0 while no chip is held. -/
def ChipOk (s : State) : Prop := s.chipPend = false → s.chip0 = false

/-- R55, R474 to R478: the name but for its publication, which a stored segment may make due. -/
def NamePending (s : State) : Prop :=
  NamePrintable s.psBuf0 s.psBuf1 ∧ (s.psValid = true → s.psMask = 0xF#4) ∧
    (s.psValid = false → s.psPub0 = 0 ∧ s.psPub1 = 0) ∧ (s.psNew = true → s.psValid = true)

/-- R470, R474: a complete name is published. -/
def NameOk (s : State) : Prop :=
  NamePending s ∧
    (s.psMask = 0xF#4 → s.psValid = true ∧ s.psPub0 = s.psBuf0 ∧ s.psPub1 = s.psBuf1)

/-- What a command's effect keeps: all of the invariant but the bound on `cp`. -/
def UnitsOk (s : State) : Prop := EnginesOk s ∧ SyncOk s ∧ ChipOk s ∧ NameOk s

theorem inv_iff (s : State) : Inv s ↔ s.cp ≤ s.stream.length ∧ UnitsOk s := by
  constructor
  · intro h
    exact ⟨h.cp, ⟨h.ch, h.au, h.rb, h.rl⟩, ⟨h.bitcnt, h.bitcntSync, h.slot⟩, h.chip,
      ⟨h.buf, h.valid, h.unpublished, h.new⟩, h.complete⟩
  · rintro ⟨hcp, ⟨hch, hau, hrb, hrl⟩, ⟨hcnt, hsync, hslot⟩, hchip, ⟨hbuf, hvalid, hunpub, hnew⟩,
      hcomplete⟩
    exact ⟨hcp, hch, hau, hrb, hrl, hcnt, hsync, hslot, hchip, hbuf, hvalid, hcomplete, hunpub, hnew⟩

/-! ## Engines (40_fir.md) -/

section

variable {s : State}

theorem UnitsOk.ch (h : UnitsOk s) : FirOk cplxZero s.ch := by
  obtain ⟨⟨hch, -⟩, -⟩ := h
  exact hch

theorem UnitsOk.fir (h : UnitsOk s) (i : RealInst) : FirOk F32.posZero (s.fir i) := by
  obtain ⟨⟨-, hau, hrb, hrl⟩, -⟩ := h
  cases i with
  | au => exact hau
  | rb => exact hrb
  | rl => exact hrl

theorem UnitsOk.setFir (h : UnitsOk s) (i : RealInst) {f : Fir Word} (hf : FirOk F32.posZero f) :
    UnitsOk (s.setFir i f) := by
  obtain ⟨⟨hch, hau, hrb, hrl⟩, hrest⟩ := h
  cases i with
  | au => exact ⟨⟨hch, hf, hrb, hrl⟩, hrest⟩
  | rb => exact ⟨⟨hch, hau, hf, hrl⟩, hrest⟩
  | rl => exact ⟨⟨hch, hau, hrb, hf⟩, hrest⟩

theorem UnitsOk.setCh (h : UnitsOk s) {f : Fir Cplx} (hf : FirOk cplxZero f) :
    UnitsOk { s with ch := f } := by
  obtain ⟨⟨-, hreal⟩, hrest⟩ := h
  exact ⟨⟨hf, hreal⟩, hrest⟩

theorem UnitsOk.firReset (h : UnitsOk s) (i : Inst) : UnitsOk (s.firReset i) := by
  cases i with
  | ch => exact h.setCh (Fir.reset_ok h.ch)
  | real i => exact h.setFir i (Fir.reset_ok (h.fir i))

end

section

variable {α : Type} [DecidableEq α] {zero : α} {f : Fir α}

/-- R514: an engine with a legal tap count or decimation factor stored is reset, so it is legal. -/
theorem FirOk.configured (h : FirOk zero f) {t d : BitVec 16} (hodd : t.toNat % 2 = 1)
    (hmax : t.toNat ≤ Config.TMAX) (hd : 1 ≤ d.toNat) :
    FirOk zero { f with t := t, d := d }.reset where
  odd := hodd
  tmax := hmax
  dpos := hd
  cursor := by show 0 < t.toNat; omega
  phase := hd
  tapsWf := h.tapsWf
  tapsBelow := h.tapsBelow
  dlWf := rfl
  dlBelow := rfl

/-- R514: a tap stored at an index below TMAX. -/
theorem FirOk.storeTap (h : FirOk zero f) {k : Nat} (hk : k < Config.TMAX) (v : Word) :
    FirOk zero { f with taps := Memory.write F32.posZero f.taps k v } :=
  { h with
    tapsWf := Memory.write_wf F32.posZero f.taps k v h.tapsWf
    tapsBelow := Memory.write_below F32.posZero f.taps Config.TMAX k v hk h.tapsBelow }

end

/-- R51: what of a legal value is stored. -/
theorem low16_toNat {v : Word} (h : v.toNat ≤ 65535) : (v.extractLsb' 0 16).toNat = v.toNat := by
  rw [low16, BitVec.toNat_ofNat, Nat.mod_eq_of_lt (by omega)]

/-! ## Register writes (47_control.md R514) -/

section

variable {s : State}

theorem UnitsOk.writeFirT (h : UnitsOk s) (i : Inst) (v : Word) : UnitsOk (s.writeFirT i v) := by
  unfold State.writeFirT
  split
  · next hv =>
    obtain ⟨hodd, hmax⟩ := (legalT_iff v).mp hv
    rw [← low16_toNat (by omega)] at hodd hmax
    cases i with
    | ch => exact h.setCh (h.ch.configured hodd hmax h.ch.dpos)
    | real i =>
      show UnitsOk ((s.setFir i _).setFir i ((s.setFir i _).fir i).reset)
      rw [State.setFir_fir_same, State.setFir_setFir]
      exact h.setFir i ((h.fir i).configured hodd hmax (h.fir i).dpos)
  · exact h

theorem UnitsOk.writeFirD (h : UnitsOk s) (i : Inst) (v : Word) : UnitsOk (s.writeFirD i v) := by
  unfold State.writeFirD
  split
  · next hv =>
    obtain ⟨hd, hmax⟩ := (legalD_iff v).mp hv
    rw [← low16_toNat hmax] at hd
    cases i with
    | ch => exact h.setCh (h.ch.configured h.ch.odd h.ch.tmax hd)
    | real i =>
      show UnitsOk ((s.setFir i _).setFir i ((s.setFir i _).fir i).reset)
      rw [State.setFir_fir_same, State.setFir_setFir]
      exact h.setFir i ((h.fir i).configured (h.fir i).odd (h.fir i).tmax hd)
  · exact h

theorem UnitsOk.storeTap (h : UnitsOk s) (i : Inst) {k : Nat} (hk : k < Config.TMAX) (v : Word) :
    UnitsOk (s.storeTap i k v) := by
  cases i with
  | ch => exact h.setCh (h.ch.storeTap hk v)
  | real i => exact h.setFir i ((h.fir i).storeTap hk v)

/-- R44: PS_NEW may be cleared at any time. -/
theorem UnitsOk.writeStatus (h : UnitsOk s) (v : Word) : UnitsOk (s.writeStatus v) := by
  unfold State.writeStatus
  split
  · obtain ⟨heng, hsync, hchip, ⟨hbuf, hvalid, hunpub, -⟩, hcomplete⟩ := h
    exact ⟨heng, hsync, hchip, ⟨hbuf, hvalid, hunpub, nofun⟩, hcomplete⟩
  · exact h

theorem UnitsOk.memWrite (h : UnitsOk s) {r : Reg} (hr : ∀ i k, r = .tap i k → k < Config.TMAX)
    (v : Word) : UnitsOk (memWrite r v s) := by
  cases r with
  | status => exact h.writeStatus v
  | firT i => exact h.writeFirT i v
  | firD i => exact h.writeFirD i v
  | tap i k => exact h.storeTap i (hr i k rfl) v
  | _ => exact h

theorem regTable_ne_tap : ∀ row ∈ regTable, ∀ i k, row.2 ≠ .tap i k := by
  simp [regTable, plainRegs, firRegs]

/-- R102: an address maps to taps below TMAX only. -/
theorem tap_lt_of_regAt {addr : BitVec 16} {i : Inst} {k : Nat} (h : regAt addr = some (.tap i k)) :
    k < Config.TMAX := by
  obtain hrow | ⟨i', k', htap, hk⟩ := regAt_cases addr _ h
  · exact absurd rfl (regTable_ne_tap _ hrow i k)
  · cases htap; exact hk

theorem UnitsOk.regWriteBody (h : UnitsOk s) (addr : BitVec 16) (v : Word) :
    UnitsOk (regWriteBody addr v s) := by
  obtain hw | ⟨r, hr, hw⟩ := regWriteBody_cases addr v s
  · rw [hw]; exact h
  · rw [hw]; exact h.memWrite (fun i k htap => tap_lt_of_regAt (htap ▸ hr)) v

theorem UnitsOk.regReadBody (h : UnitsOk s) (addr : BitVec 16) : UnitsOk (regReadBody addr s) := by
  obtain hw | ⟨r, -, hw⟩ := regReadBody_cases addr s
  · rw [hw]; exact h
  · rw [hw]; exact h

/-! ## RESET (47_control.md R511) -/

theorem UnitsOk.resetAud (h : UnitsOk s) : UnitsOk s.resetAud :=
  h.firReset (.real .au)

theorem UnitsOk.resetRds (h : UnitsOk s) : UnitsOk s.resetRds := by
  obtain ⟨heng, -, -, hname⟩ := (h.firReset (.real .rb)).firReset (.real .rl)
  exact ⟨heng, syncOk_unsynced rfl (Nat.zero_le _) rfl, fun _ => rfl, hname⟩

/-- R476: eight spaces, nothing received and nothing published. -/
theorem nameOk_resetPs (s : State) : NameOk s.resetPs := by
  have hspaces : NamePrintable 0x20202020#32 0x20202020#32 := by unfold NamePrintable; decide
  exact ⟨⟨hspaces, nofun, fun _ => ⟨rfl, rfl⟩, nofun⟩, fun hfull => absurd hfull (by decide : 0#4 ≠ 0xF#4)⟩

theorem UnitsOk.resetPs (h : UnitsOk s) : UnitsOk s.resetPs := by
  obtain ⟨heng, hsync, hchip, -⟩ := h
  exact ⟨heng, hsync, hchip, nameOk_resetPs s⟩

theorem UnitsOk.ite {t : State} (h : UnitsOk s) (ht : UnitsOk t) (b : Bool) :
    UnitsOk (if b then t else s) := by
  cases b
  · exact h
  · exact ht

theorem UnitsOk.resetUnits (h : UnitsOk s) (mask : BitVec 8) : UnitsOk (resetUnits mask s) := by
  have h0 := h.ite (h.firReset .ch) (mask.getLsbD 0)
  have h1 := h0.ite (t := State.resetFmd _) h0 (mask.getLsbD 1)
  have h2 := h1.ite h1.resetAud (mask.getLsbD 2)
  have h3 := h2.ite h2.resetRds (mask.getLsbD 3)
  exact h3.ite h3.resetPs (mask.getLsbD 4)

end

/-! ## The PS name (46_rds_group.md R470 to R474) -/

theorem printable_range (c : Byte) : 32 ≤ (printable c).toNat ∧ (printable c).toNat ≤ 126 := by
  unfold printable
  split
  · next hc => simpa using hc
  · decide

/-- The mask of one byte. -/
theorem getLsbD_byteMask (n : Nat) : (0xFF#32).getLsbD n = decide (n < 8) := by
  by_cases hn : n < 8
  · interval_cases n <;> rfl
  · rw [decide_eq_false hn]
    have hpow : 2 ^ 8 ≤ 2 ^ n := Nat.pow_le_pow_right (by decide) (Nat.le_of_not_lt hn)
    exact Nat.testBit_lt_two_pow ((by decide : 0xFF < 2 ^ 8).trans_le hpow)

/-- R55: the bits of a word with byte j replaced. -/
theorem getLsbD_setByte (w : Word) (c : Byte) (j : Nat) {n : Nat} (hn : n < 32) :
    (setByte w j c).getLsbD n
      = if 8 * j ≤ n ∧ n < 8 * j + 8 then c.getLsbD (n - 8 * j) else w.getLsbD n := by
  simp only [setByte, BitVec.getLsbD_or, BitVec.getLsbD_and, BitVec.getLsbD_not,
    BitVec.getLsbD_shiftLeft, BitVec.getLsbD_setWidth, getLsbD_byteMask, hn, decide_true, Bool.true_and]
  by_cases hlow : n < 8 * j
  · rw [if_neg (by omega)]
    simp [hlow]
  · by_cases hhigh : n < 8 * j + 8
    · rw [if_pos ⟨by omega, hhigh⟩]
      simp [hlow, show n - 8 * j < 8 by omega, show n - 8 * j < 32 by omega]
    · rw [if_neg (by omega)]
      simp [show ¬ n - 8 * j < 8 by omega, BitVec.getLsbD_of_ge c (n - 8 * j) (by omega)]

/-- R55: byte k of a word with byte j replaced. -/
theorem extractLsb'_setByte (w : Word) (c : Byte) {j k : Nat} (hk : k < 4) :
    (setByte w j c).extractLsb' (8 * k) 8 = if k = j then c else w.extractLsb' (8 * k) 8 := by
  apply BitVec.eq_of_getLsbD_eq
  intro i hi
  rw [BitVec.getLsbD_extractLsb', decide_eq_true hi, Bool.true_and, getLsbD_setByte w c j (by omega)]
  by_cases hkj : k = j
  · rw [if_pos (by omega), if_pos hkj, hkj, Nat.add_sub_cancel_left]
  · rw [if_neg (by omega), if_neg hkj, BitVec.getLsbD_extractLsb', decide_eq_true hi, Bool.true_and]

/-- R55: character k of the buffer with character c replaced. -/
theorem nameChar_setPsChar (s : State) (b : Byte) {c k : Nat} (hc : c < 8) (hk : k < 8) :
    nameChar (s.setPsChar c b).psBuf0 (s.setPsChar c b).psBuf1 k
      = if k = c then b else nameChar s.psBuf0 s.psBuf1 k := by
  have hbyte := fun w => extractLsb'_setByte w b (j := c % 4) (Nat.mod_lt k (by decide : 4 > 0))
  unfold State.setPsChar nameChar
  by_cases hc0 : c / 4 = 0 <;> by_cases hk0 : k / 4 = 0
  · simp only [hc0, hk0, if_true, hbyte, show k % 4 = c % 4 ↔ k = c by omega]
  · simp only [hc0, hk0, if_true, if_false, show k ≠ c by rintro rfl; exact hk0 hc0]
  · simp only [hc0, hk0, if_true, if_false, show k ≠ c by rintro rfl; exact hc0 hk0]
  · simp only [hc0, hk0, if_false, hbyte, show k % 4 = c % 4 ↔ k = c by omega]

theorem NamePrintable.setPsChar {s : State} (h : NamePrintable s.psBuf0 s.psBuf1) {c : Nat} (hc : c < 8)
    (b : Byte) :
    NamePrintable (s.setPsChar c (printable b)).psBuf0 (s.setPsChar c (printable b)).psBuf1 := by
  intro k hk
  rw [nameChar_setPsChar s _ hc hk]
  split
  · exact printable_range b
  · exact h k hk

theorem NamePending.setPsChar {s : State} (h : NamePending s) {c : Nat} (hc : c < 8) (b : Byte) :
    NamePending (s.setPsChar c (printable b)) := by
  obtain ⟨hbuf, hrest⟩ := h
  refine ⟨hbuf.setPsChar hc b, ?_⟩
  unfold State.setPsChar
  split <;> exact hrest

/-- R470: a stored segment leaves the name in order, its publication apart. -/
theorem NamePending.storeSegment {s : State} (h : NamePending s) (seg : BitVec 2) (d : BitVec 16) :
    NamePending (s.storeSegment seg.toNat d) := by
  have hseg := seg.isLt
  have hfirst := h.setPsChar (c := 2 * seg.toNat) (by omega) (d.extractLsb' 8 8)
  obtain ⟨hbuf, hvalid, hrest⟩ :=
    hfirst.setPsChar (c := 2 * seg.toNat + 1) (by omega) (d.extractLsb' 0 8)
  refine ⟨hbuf, fun hv => ?_, hrest⟩
  show _ ||| _ = _
  rw [hvalid hv]
  exact BitVec.allOnes_or

/-- R470, R474: after the publication, where one is due, a complete name is the published one. -/
theorem NamePending.published {s : State} (h : NamePending s) :
    NameOk (if s.publishes then s.publish else s) := by
  obtain ⟨hbuf, hvalid, hunpub, hnew⟩ := h
  cases hp : s.publishes with
  | true =>
    obtain ⟨hmask, -⟩ := Bool.and_eq_true_iff.mp hp
    exact ⟨⟨hbuf, fun _ => eq_of_beq hmask, nofun, fun _ => rfl⟩, fun _ => ⟨rfl, rfl, rfl⟩⟩
  | false =>
    refine ⟨⟨hbuf, hvalid, hunpub, hnew⟩, fun (hmask : s.psMask = 0xF#4) => ?_⟩
    rw [State.publishes, hmask, beq_self_eq_true, Bool.true_and] at hp
    simp only [Bool.or_eq_false_iff, Bool.not_eq_false', bne_eq_false_iff_eq] at hp
    obtain ⟨⟨hv, hbuf0⟩, hbuf1⟩ := hp
    exact ⟨hv, hbuf0.symm, hbuf1.symm⟩

theorem NameOk.groupDispatch {s : State} (h : NameOk s) (a b c d : BitVec 16) :
    NameOk (groupDispatch a b c d s) := by
  by_cases hb : b.extractLsb' 12 4 = 0
  · rw [groupDispatch_zero a b c d s _ hb rfl]
    exact (NamePending.storeSegment (s := { s with groupCount := s.groupCount + 1 }) h.1 _ d).published
  · rw [groupDispatch_other a b c d s hb]
    exact h

/-! ## What a frame carries -/

theorem EnginesOk.of_blankChips {s t : State} (h : EnginesOk s) (hframe : t.blankChips = s.blankChips) :
    EnginesOk t :=
  show EnginesOk t.blankChips from hframe ▸ h

theorem ChipOk.of_blankSync {s t : State} (h : ChipOk s) (hframe : t.blankSync = s.blankSync) :
    ChipOk t :=
  show ChipOk t.blankSync from hframe ▸ h

theorem SyncOk.of_blankPs {s t : State} (h : SyncOk s) (hframe : t.blankPs = s.blankPs) : SyncOk t :=
  show SyncOk t.blankPs from hframe ▸ h

/-! ## The synchronizer (45_rds_sync.md R424 to R426) -/

theorem bitcnt_succ {c : BitVec 5} (h : c.toNat < 26) : (c + 1).toNat = c.toNat + 1 := by
  rw [BitVec.toNat_add, show (1 : BitVec 5).toNat = 1 from rfl]
  omega

theorem SyncOk.huntStep {s : State} (h : SyncOk s) (hs : s.haveSync = false) : SyncOk (huntStep s) := by
  obtain ⟨hcnt, -, hslot⟩ := h
  have hcount : SyncOk s.countBit := by
    unfold State.countBit
    split
    · next hlt => exact syncOk_unsynced hs ((bitcnt_succ hlt).trans_le hlt) (hslot hs)
    · exact syncOk_unsynced hs hcnt (hslot hs)
  unfold Machine.huntStep
  split
  · exact syncOk_synced rfl (by show 0 < 26; decide)
  · exact hcount

theorem syncOk_nextSlot {s : State} (hs : s.haveSync = true) : SyncOk s.nextSlot := by
  have hfresh : ∀ v, SyncOk { s with bitcnt := 0, slot := v } :=
    fun v => syncOk_synced hs (by show 0 < 26; decide)
  unfold State.nextSlot
  dsimp only
  split
  · exact (hfresh 0).of_blankPs (groupDispatch_frame _ _ _ _ _)
  · exact hfresh _

/-- The state without the stored blocks. -/
def State.blankBlocks (s : State) : State :=
  { s with group0 := 0, group1 := 0, group2 := 0, group3 := 0 }

theorem storeBlock_blankBlocks (s : State) (slot : BitVec 2) (v : BitVec 16) :
    (s.storeBlock slot v).blankBlocks = s.blankBlocks := by
  unfold State.storeBlock
  split
  · rfl
  · split
    · rfl
    · split <;> rfl

theorem storeBlock_haveSync (s : State) (slot : BitVec 2) (v : BitVec 16) :
    (s.storeBlock slot v).haveSync = s.haveSync :=
  (congrArg State.haveSync (storeBlock_blankBlocks s slot v) :)

theorem SyncOk.syncStep {s : State} (h : SyncOk s) (hs : s.haveSync = true) : SyncOk (syncStep s) := by
  obtain ⟨-, hlt, -⟩ := h
  have hlt := hlt hs
  unfold Machine.syncStep
  dsimp only
  split
  · exact syncOk_nextSlot ((storeBlock_haveSync _ _ _).trans hs)
  · next hne =>
    have hne : (s.bitcnt + 1).toNat ≠ 26 := fun h26 => hne (beq_iff_eq.mpr (BitVec.eq_of_toNat_eq h26))
    have hle : (s.bitcnt + 1).toNat ≤ 26 := (bitcnt_succ hlt).trans_le hlt
    exact syncOk_synced hs (lt_of_le_of_ne hle hne)

theorem NameOk.nextSlot {s : State} (h : NameOk s) : NameOk s.nextSlot := by
  unfold State.nextSlot
  dsimp only
  split
  · exact NameOk.groupDispatch (s := { s with bitcnt := 0, slot := 0 }) h _ _ _ _
  · exact h

theorem NameOk.storeBlock {s : State} (h : NameOk s) (slot : BitVec 2) (v : BitVec 16) :
    NameOk (s.storeBlock slot v) :=
  show NameOk (s.storeBlock slot v).blankBlocks from (storeBlock_blankBlocks s slot v).symm ▸ h

theorem NameOk.syncStep {s : State} (h : NameOk s) : NameOk (syncStep s) := by
  unfold Machine.syncStep
  dsimp only
  split
  · exact (NameOk.storeBlock (s := { s with bitcnt := s.bitcnt + 1 }) h _ _).nextSlot
  · exact h

theorem NameOk.huntStep {s : State} (h : NameOk s) : NameOk (huntStep s) := by
  unfold Machine.huntStep State.countBit
  split <;> split <;> exact h

section

variable {s : State}

theorem UnitsOk.groupDispatch (h : UnitsOk s) (a b c d : BitVec 16) :
    UnitsOk (groupDispatch a b c d s) := by
  obtain ⟨heng, hsync, hchip, hname⟩ := h
  have hframe := groupDispatch_frame a b c d s
  exact ⟨heng.of_blankChips (blankChips_of_blankSync (blankSync_of_blankPs hframe)),
    hsync.of_blankPs hframe, hchip.of_blankSync (blankSync_of_blankPs hframe),
    hname.groupDispatch a b c d⟩

theorem UnitsOk.blockStep (h : UnitsOk s) (d : Bool) : UnitsOk (blockStep d s) := by
  obtain ⟨heng, hsync, hchip, hname⟩ := h
  have hframe := blockStep_frame d s
  obtain ⟨hsync', hname'⟩ : SyncOk (Machine.blockStep d s) ∧ NameOk (Machine.blockStep d s) := by
    unfold Machine.blockStep
    dsimp only
    split
    · next hs => exact ⟨SyncOk.syncStep hsync hs, NameOk.syncStep hname⟩
    · next hs => exact ⟨SyncOk.huntStep hsync (Bool.eq_false_iff.mpr hs), NameOk.huntStep hname⟩
  exact ⟨heng.of_blankChips (blankChips_of_blankSync hframe), hsync', hchip.of_blankSync hframe,
    hname'⟩

/-! ## The Manchester decoder (44_rds_bits.md R374 to R379) -/

theorem UnitsOk.manchester (h : UnitsOk s) (c : Bool) : UnitsOk (manchester c s) := by
  obtain ⟨heng, hsync, -, hname⟩ := h
  by_cases hp : s.chipPend = true
  · by_cases hc : s.chip0 = c
    · rw [manchester_invalid c s hp hc]
      exact ⟨heng, syncOk_unsynced rfl (Nat.zero_le _) rfl,
        fun hslip => (congrArg (· && c) hslip).trans (Bool.false_and c), hname⟩
    · rw [manchester_valid c s hp hc]
      exact UnitsOk.blockStep (s := { s with chipPend := false, chip0 := false, prevBit := c })
        ⟨heng, hsync, fun _ => rfl, hname⟩ _
  · rw [manchester_first c s (Bool.eq_false_iff.mpr hp)]
    exact ⟨heng, hsync, nofun, hname⟩

theorem UnitsOk.rdsChipBody (h : UnitsOk s) (ws : List Word) : UnitsOk (rdsChipBody ws s) := by
  induction ws generalizing s with
  | nil => exact h
  | cons w ws ih => exact ih (h.manchester _)

theorem UnitsOk.rdsBitBody (h : UnitsOk s) (ws : List Word) : UnitsOk (rdsBitBody ws s) := by
  induction ws generalizing s with
  | nil => exact h
  | cons w ws ih => exact ih (h.blockStep _)

end

/-! ## Computations -/

/-- A computation that keeps the units in order. -/
def Maintains {α : Type} (m : M α) : Prop := ∀ s, UnitsOk s → UnitsOk (m s).2

section

variable {α β : Type}

theorem Maintains.pure (a : α) : Maintains (pure a) := fun _ h => h

theorem Maintains.bind {m : M α} {f : α → M β} (hm : Maintains m) (hf : ∀ a, Maintains (f a)) :
    Maintains (m >>= f) := fun s h => hf _ _ (hm s h)

theorem Maintains.forEach {f : α → M Unit} (hf : ∀ x, Maintains (f x)) (xs : List α) :
    Maintains (forEach f xs) :=
  forEach_keeps (fun s t => UnitsOk s → UnitsOk t) (fun _ h => h) (fun _ _ _ hst htu h => htu (hst h)) f
    hf xs

theorem Maintains.mapEach {f : α → M β} (hf : ∀ x, Maintains (f x)) (xs : List α) :
    Maintains (mapEach f xs) :=
  mapEach_keeps (fun s t => UnitsOk s → UnitsOk t) (fun _ h => h) (fun _ _ _ hst htu h => htu (hst h)) f
    hf xs

theorem Maintains.keepOutputs {stp : α → M (Option β)} (hstp : ∀ x, Maintains (stp x))
    (keep : Nat → Bool) (xs : List α) (m : Nat) : Maintains (keepOutputs stp keep xs m) :=
  keepOutputs_keeps (fun s t => UnitsOk s → UnitsOk t) (fun _ h => h)
    (fun _ _ _ hst htu h => htu (hst h)) stp keep hstp xs m

/-- R57: responses are no part of the units. -/
theorem maintains_emitTwo (z : Cplx) : Maintains (modify fun s => (s.emit z.re).emit z.im) :=
  fun _ h => h

/-- R205: a loop over inputs, then its words and their count. -/
theorem Maintains.counted {stp : α → M (Option β)} (hstp : ∀ x, Maintains (stp x)) (keep : Nat → Bool)
    (xs : List α) (words : List β → List Word) :
    Maintains (Machine.keepOutputs stp keep xs 0 >>= fun kept =>
      modify fun s => s.emitCounted (words kept) kept.length) :=
  .bind (.keepOutputs hstp keep xs 0) fun _ _ h => h

end

theorem maintains_firStepR (i : RealInst) (x : Word) : Maintains (firStepR i x) := by
  intro s h
  obtain ⟨o, n, hstep, -⟩ := firStepR_spec i x s
  rw [hstep]
  exact h.setFir i (Fir.insert_ok (h.fir i) x)

theorem maintains_firStepC (x : Cplx) : Maintains (firStepC x) := by
  intro s h
  obtain ⟨o, n, hstep, -⟩ := firStepC_spec x s
  rw [hstep]
  exact h.setCh (Fir.insert_ok h.ch x)

theorem maintains_ncoNext : Maintains ncoNext := by
  intro s h
  obtain ⟨p, n, hstep, -⟩ := ncoNext_spec s
  rw [hstep]
  exact h

theorem maintains_mixSample (x c : Cplx) : Maintains (mixSample x c) := by
  intro s h
  obtain ⟨y, n, hstep, -⟩ := mixSample_spec x c s
  rw [hstep]
  exact h

theorem maintains_mixReal (b : Word) (c : Cplx) : Maintains (mixReal b c) := by
  intro s h
  obtain ⟨r, n, hstep, -⟩ := mixReal_spec b c s
  rw [hstep]
  exact h

theorem maintains_fmdStep (x : Cplx) : Maintains (fmdStep x) := by
  intro s h
  obtain ⟨y, n, hstep, -⟩ := fmdStep_spec x s
  rw [hstep]
  exact h

theorem maintains_iqConv (w : Word) : Maintains (iqConv w) := by
  intro s h
  obtain ⟨z, n, hstep⟩ := iqConv_frame w s
  rw [hstep]
  exact h

theorem maintains_audStep (x : Word) : Maintains (audStep x) := by
  intro s h
  obtain ⟨y, r, n, hstep, -⟩ := audStep_spec x s
  rw [hstep]
  exact h.setFir .au (Fir.insert_ok (h.fir .au) y)

theorem maintains_slice (l : Word) : Maintains (slice l) := by
  intro s h
  obtain ⟨acc, taken, n, hstep, -⟩ := slice_spec l s
  rw [hstep]
  cases taken with
  | false => exact h
  | true => exact UnitsOk.manchester (s := { s with chipAcc := acc, nanDraws := n }) h (chipOf l)

theorem maintains_rdsFront (m : Word) : Maintains (rdsFront m) := by
  refine .bind (maintains_firStepR .rb m) fun o => ?_
  cases o with
  | none => exact .pure _
  | some b =>
    refine .bind maintains_ncoNext fun c => .bind (maintains_mixReal b c) fun r =>
      .bind (maintains_firStepR .rl r) fun o => ?_
    cases o with
    | none => exact .pure _
    | some l => exact maintains_slice l

theorem maintains_rdsGated (m : Word) : Maintains (rdsGated m) := by
  intro s h
  rw [rdsGated, bind_apply, get_apply]
  dsimp only
  split
  · exact maintains_rdsFront m s h
  · exact h

theorem maintains_chainStep (w : Word) : Maintains (chainStep w) := by
  refine .bind (maintains_iqConv w) fun z => .bind (maintains_firStepC z) fun o => ?_
  cases o with
  | none => exact .pure _
  | some c =>
    exact .bind (maintains_fmdStep c) fun m => .bind (maintains_rdsGated m) fun _ => maintains_audStep m

/-! ## Commands -/

/-- Every command's effect keeps the units in order. -/
theorem UnitsOk.bodyOf {s : State} (h : UnitsOk s) (i : Instr) : UnitsOk (bodyOf i s) := by
  cases i with
  | nop => exact h
  | reset sel => exact h.resetUnits sel
  | regRead _ addr => exact h.regReadBody addr
  | regWrite _ addr v => exact h.regWriteBody addr v
  | firProcC _ cap xs => exact Maintains.counted maintains_firStepC _ xs flattenSamples s h
  | firProcR sel cap xs =>
    simp only [Machine.bodyOf]
    cases realOfSel sel with
    | none => exact h
    | some i => exact Maintains.counted (maintains_firStepR i) _ xs id s h
  | firReset sel =>
    simp only [Machine.bodyOf]
    cases instOfSel sel with
    | none => exact h
    | some i => exact h.firReset i
  | ncoSet _ _ fs f =>
    obtain ⟨p, inc, n, -, -, hset⟩ := ncoSetBody_spec fs f s
    rw [Machine.bodyOf, hset]
    exact h
  | ncoNext _ n =>
    exact Maintains.forEach (fun _ => .bind maintains_ncoNext maintains_emitTwo) _ s h
  | mix _ xs =>
    exact Maintains.forEach (fun x => .bind maintains_ncoNext fun c =>
      .bind (maintains_mixSample x c) maintains_emitTwo) xs s h
  | convU8 _ ws => exact Maintains.forEach (fun w => .bind (maintains_iqConv w) maintains_emitTwo) ws s h
  | fmdProc _ cap xs =>
    exact Maintains.bind (.mapEach maintains_fmdStep _) (fun _ _ h => h) s h
  | audProc _ cap xs => exact Maintains.counted maintains_audStep _ xs (List.map pcmWord) s h
  | rdsProc _ xs => exact Maintains.forEach maintains_rdsFront xs s h
  | rdsSlice _ xs => exact Maintains.forEach maintains_slice xs s h
  | rdsChip _ ws => exact h.rdsChipBody ws
  | rdsBit _ ws => exact h.rdsBitBody ws
  | crcSyn => exact h
  | rdsGroup _ _ a b c d =>
    exact h.groupDispatch (operandDatum a) (operandDatum b) (operandDatum c) (operandDatum d)
  | chainU8 _ ws => exact Maintains.counted maintains_chainStep _ ws (List.map pcmWord) s h

theorem UnitsOk.effectOf {s : State} (h : UnitsOk s) (i : Instr) : UnitsOk (effectOf i s) := by
  unfold Machine.effectOf
  split
  · exact h.bodyOf i
  · exact h

/-! ## The step (30_encoding.md R143) -/

/-- R143, R561, R619: a step runs the decoded command, takes a word with an unknown opcode, or waits. -/
theorem step_cases {s t : State} (h : step s = .next t) :
    (∃ i rest, fetch s = encode i ++ rest ∧ t = (effectOf i s).advance (encode i).length) ∨
      (fetch s ≠ [] ∧ t = (s.raise .illegal).advance 1) ∨ t = s := by
  rw [step] at h
  split at h
  · next i rest hdecode =>
    rw [exec_effectOf] at h
    exact .inl ⟨i, rest, (decodedWordsAreTheEncoding _ i rest hdecode).1, (Host.Outcome.next.inj h).symm⟩
  · next hdecode =>
    refine .inr (.inl ⟨fun hnil => ?_, (Host.Outcome.next.inj h).symm⟩)
    rw [hnil] at hdecode
    cases hdecode
  · exact .inr (.inr (Host.Outcome.next.inj h).symm)
  · exact .inr (.inr (Host.Outcome.next.inj h).symm)

/-- R41: `cp` does not pass the end of the stream by as many words as are unread. -/
theorem cp_add_le {s : State} (hcp : s.cp ≤ s.stream.length) {n : Nat} (hn : n ≤ (fetch s).length) :
    s.cp + n ≤ s.stream.length := by
  rw [fetch, List.length_drop] at hn
  omega

/-- Settles O56: a step's effect keeps the units in order, and `cp` moves over unread words only. -/
theorem stepKeepsTheInvariant : Obligations.StepKeepsTheInvariant := by
  intro s t hinv hstep
  obtain ⟨hcp, hunits⟩ := (inv_iff s).mp hinv
  obtain ⟨i, rest, hfetch, rfl⟩ | ⟨hfetch, rfl⟩ | rfl := step_cases hstep
  · obtain ⟨hstream, hcp', -⟩ := keepsStreams_effectOf i s
    refine (inv_iff _).mpr ⟨?_, hunits.effectOf i⟩
    rw [State.advance_cp, State.advance_stream, hcp', hstream]
    exact cp_add_le hcp (by rw [hfetch, List.length_append]; exact Nat.le_add_right _ _)
  · exact (inv_iff _).mpr ⟨cp_add_le hcp (List.length_pos_iff.mpr hfetch), hunits⟩
  · exact hinv

theorem firOk_initial {α : Type} [DecidableEq α] (zero : α) : FirOk zero (Fir.initial α) where
  odd := rfl
  tmax := show 1 ≤ 1023 by decide
  dpos := Nat.le_refl 1
  cursor := Nat.zero_lt_one
  phase := Nat.zero_lt_one
  tapsWf := rfl
  tapsBelow := rfl
  dlWf := rfl
  dlBelow := rfl

/-- Settles O55: T and D are 1, nothing is received or published. -/
theorem invariantAtReset : Obligations.InvariantAtReset :=
  (inv_iff State.reset).mpr ⟨Nat.le_refl 0,
    ⟨firOk_initial _, firOk_initial _, firOk_initial _, firOk_initial _⟩,
    syncOk_unsynced rfl (Nat.zero_le _) rfl, fun _ => rfl, nameOk_resetPs State.reset⟩

end Sys2Proof.Machine
end

section
/-! PROOFS. The oscillator phase stays in [0, 2π] (41_nco_mixer.md R251, R255, R256). A rounded sum is
nearest to the exact one, so it does not pass a word on either side of the exact one; -2π and 4π, then
0 and 2π, are such words for the two sums of an oscillator step. Every command moves the phase along a
path of oscillator steps and resets. -/

namespace Sys2Proof.Machine.F32

open Sys2Proof

/-! ## Sums between two words (R10) -/

/-- No finite word is nearer to the value `v`, in units of 2^-149, than the finite word `r`. -/
def NearestValue (v : Int) (r : Word) : Prop :=
  isFinite r = true ∧ ∀ c, isFinite c = true → (v - value r).natAbs ≤ (v - value c).natAbs

section

variable {a b c r : Word} {v : Int}

theorem value_posZero : value posZero = 0 := rfl

theorem units_le_of_isFinite (h : isFinite a = true) : units a ≤ (2 ^ 24 - 1) * 2 ^ 253 := by
  have hlt := (isFinite_iff_mag_lt a).mp h
  rw [units_eq_magUnits, ← magUnits_pred_infMag]
  exact magUnits_strictMono.monotone (by omega)

theorem natAbs_value (a : Word) : (value a).natAbs = units a := by
  rw [value]
  split <;> omega

/-- A correctly rounded value short of overflow is nearest among the words of either sign: one of the
other sign is no nearer than zero is. -/
theorem nearestValue_of_nearestEven (hv : v.natAbs < (2 ^ 25 - 1) * 2 ^ 252)
    (h : NearestEven (decide (v < 0)) v.natAbs 1 r) : NearestValue v r := by
  rw [NearestEven, if_neg (by omega)] at h
  obtain ⟨hfin, hsign, hbest⟩ := h
  have hdist {d : Word} (hd : sign d = decide (v < 0)) :
      (v - value d).natAbs = ((v.natAbs : Int) - units d * (1 : Nat)).natAbs := by
    rw [value, hd]
    by_cases hneg : v < 0
    · rw [if_pos (decide_eq_true hneg)]
      omega
    · rw [if_neg (by simpa using hneg)]
      omega
  refine ⟨hfin, fun c hc => ?_⟩
  rw [hdist hsign]
  by_cases hc' : sign c = decide (v < 0)
  · rw [hdist hc']
    exact (hbest c hc).1
  · have hzero := (hbest posZero rfl).1
    have hopp : v.natAbs ≤ (v - value c).natAbs := by
      rw [value]
      by_cases hneg : v < 0
      · rw [if_neg (by simpa [hneg] using hc')]
        omega
      · rw [if_pos (by simpa [hneg] using hc')]
        omega
    rw [show units posZero = 0 from rfl] at hzero
    omega

/-- R10: short of overflow a sum of finite words is a nearest one, an exactly zero sum included. -/
theorem add_nearestValue (ha : isFinite a = true) (hb : isFinite b = true)
    (hv : (value a + value b).natAbs < (2 ^ 25 - 1) * 2 ^ 252) :
    ∃ r, add a b = some r ∧ NearestValue (value a + value b) r := by
  by_cases h0 : value a + value b = 0
  · refine ⟨_, add_eq_zero ha hb h0, ?_⟩
    rw [h0]
    cases sign a && sign b <;> exact ⟨rfl, fun c _ => Nat.zero_le _⟩
  · obtain ⟨r, hr, hnear⟩ := add_nearestEven ha hb h0
    exact ⟨r, hr, nearestValue_of_nearestEven hv hnear⟩

theorem NearestValue.le_value (h : NearestValue v r) (hc : isFinite c = true) (hle : value c ≤ v) :
    value c ≤ value r := by
  obtain ⟨-, hnear⟩ := h
  have hdist := hnear c hc
  omega

theorem NearestValue.value_le (h : NearestValue v r) (hc : isFinite c = true) (hle : v ≤ value c) :
    value r ≤ value c := by
  obtain ⟨-, hnear⟩ := h
  have hdist := hnear c hc
  omega

/-- Rounding does not carry a sum past a word that bounds it. -/
theorem between_of_res_add {lo hi : Word} (ha : isFinite a = true) (hb : isFinite b = true)
    (hlo : isFinite lo = true) (hhi : isFinite hi = true) (hle : value lo ≤ value a + value b)
    (hge : value a + value b ≤ value hi) (h : Res (add a b) r) :
    isFinite r = true ∧ value lo ≤ value r ∧ value r ≤ value hi := by
  have hunder : (value a + value b).natAbs < (2 ^ 25 - 1) * 2 ^ 252 := by
    have hl := units_le_of_isFinite hlo
    have hh := units_le_of_isFinite hhi
    rw [← natAbs_value] at hl hh
    omega
  obtain ⟨w, hw, hnear⟩ := add_nearestValue ha hb hunder
  rw [hw] at h
  obtain rfl : r = w := h
  exact ⟨hnear.1, hnear.le_value hlo hle, hnear.value_le hhi hge⟩

/-! ## Words between two words (R11) -/

theorem lt_eq_true_iff : lt a b = true ↔ isNaN a = false ∧ isNaN b = false ∧ value a < value b := by
  simp [lt, and_assoc]

theorem le_eq_true_iff : le a b = true ↔ isNaN a = false ∧ isNaN b = false ∧ value a ≤ value b := by
  simp only [le, ge, Bool.and_eq_true, Bool.not_eq_true', decide_eq_true_eq]
  tauto

theorem isFinite_of_value_between {lo hi : Word} (hlo : isFinite lo = true) (hhi : isFinite hi = true)
    (ha : isNaN a = false) (hle : value lo ≤ value a) (hge : value a ≤ value hi) :
    isFinite a = true := by
  obtain hnan | hinf | hfin := classes a
  · rw [ha] at hnan
    cases hnan
  · have hbelow := value_lt_of_isInf hinf hlo
    have habove := value_lt_of_isInf hinf hhi
    exfalso
    split at hbelow
    case isTrue => omega
    case isFalse hpos =>
      rw [if_neg hpos] at habove
      omega
  · exact hfin

end

end Sys2Proof.Machine.F32

namespace Sys2Proof.Machine

open Sys2Proof

/-! ## One oscillator step (R251, R256) -/

/-- R256: a phase in [0, 2π], 2π being TWO_PI_F32. -/
def PhaseOk (p : Word) : Prop :=
  F32.isFinite p = true ∧ 0 ≤ F32.value p ∧ F32.value p ≤ F32.value Config.TWO_PI_F32

/-- R256: an increment strictly between -2π and 2π. -/
def IncOk (inc : Word) : Prop :=
  F32.isFinite inc = true ∧ -F32.value Config.TWO_PI_F32 < F32.value inc ∧
    F32.value inc < F32.value Config.TWO_PI_F32

theorem isFinite_twoPi : F32.isFinite Config.TWO_PI_F32 = true := rfl

theorem value_negTwoPi : F32.value 0xC0C90FDB#32 = -F32.value Config.TWO_PI_F32 :=
  F32.value_neg Config.TWO_PI_F32

theorem value_fourPi : F32.value 0x41490FDB#32 = 2 * F32.value Config.TWO_PI_F32 := by decide +kernel

theorem value_twoPi_pos : 0 < F32.value Config.TWO_PI_F32 := by decide +kernel

theorem phaseInRange_iff (s : State) : PhaseInRange s ↔ PhaseOk s.ncoPhase := by
  constructor
  · rintro ⟨hlo, hhi⟩
    obtain ⟨-, hnan, hlo⟩ := F32.le_eq_true_iff.mp hlo
    obtain ⟨-, -, hhi⟩ := F32.le_eq_true_iff.mp hhi
    exact ⟨F32.isFinite_of_value_between (lo := F32.posZero) rfl isFinite_twoPi hnan hlo hhi, hlo, hhi⟩
  · rintro ⟨hfin, hlo, hhi⟩
    have hnan := F32.isNaN_of_isFinite hfin
    exact ⟨F32.le_eq_true_iff.mpr ⟨rfl, hnan, hlo⟩, F32.le_eq_true_iff.mpr ⟨hnan, rfl, hhi⟩⟩

theorem incOk_of_incInRange {s : State} (h : IncInRange s) : IncOk s.ncoInc := by
  obtain ⟨hlo, hhi⟩ := h
  obtain ⟨-, hnan, hlo⟩ := F32.lt_eq_true_iff.mp hlo
  obtain ⟨-, -, hhi⟩ := F32.lt_eq_true_iff.mp hhi
  refine ⟨F32.isFinite_of_value_between (lo := 0xC0C90FDB#32) rfl isFinite_twoPi hnan hlo.le hhi.le, ?_,
    hhi⟩
  rwa [← value_negTwoPi]

theorem phaseOk_posZero : PhaseOk F32.posZero :=
  ⟨rfl, le_refl _, value_twoPi_pos.le⟩

/-- A sum within [0, 2π] is a phase in range after rounding. -/
theorem phaseOk_of_res_add {a b q : Word} (ha : F32.isFinite a = true) (hb : F32.isFinite b = true)
    (hle : 0 ≤ F32.value a + F32.value b)
    (hge : F32.value a + F32.value b ≤ F32.value Config.TWO_PI_F32) (h : Res (F32.add a b) q) :
    PhaseOk q :=
  F32.between_of_res_add (lo := F32.posZero) ha hb rfl isFinite_twoPi hle hge h

/-- The advanced phase, rounded, is within [-2π, 4π], and the one correction brings it back. -/
theorem PhaseOk.next {inc p q : Word} (hp : PhaseOk p) (hinc : IncOk inc) (h : PhaseNext inc p q) :
    PhaseOk q := by
  obtain ⟨hpfin, hp0, hp1⟩ := hp
  obtain ⟨hifin, hi0, hi1⟩ := hinc
  obtain ⟨sum, hsum, hwrap⟩ := h
  obtain ⟨hfin, hlo, hhi⟩ := F32.between_of_res_add (lo := 0xC0C90FDB#32) (hi := 0x41490FDB#32)
    hpfin hifin rfl rfl (by rw [value_negTwoPi]; omega) (by rw [value_fourPi]; omega) hsum
  rw [value_negTwoPi] at hlo
  rw [value_fourPi] at hhi
  have hnan := F32.isNaN_of_isFinite hfin
  obtain ⟨-, -, hge, -⟩ := F32.comparisons_eq_decide hnan (F32.isNaN_of_isFinite isFinite_twoPi)
  obtain ⟨hlt, -⟩ := F32.comparisons_eq_decide hnan (b := F32.posZero) rfl
  rw [hge, hlt, F32.value_posZero] at hwrap
  simp only [decide_eq_true_eq] at hwrap
  split at hwrap
  case isTrue habove =>
    have hdiff := F32.value_add_value_neg sum Config.TWO_PI_F32
    exact phaseOk_of_res_add hfin ((F32.isFinite_neg _).trans isFinite_twoPi) (by omega) (by omega)
      hwrap
  case isFalse hbelow =>
    split at hwrap
    case isTrue hnegative =>
      exact phaseOk_of_res_add hfin isFinite_twoPi (by omega) (by omega) hwrap
    case isFalse hnonneg =>
      subst hwrap
      exact ⟨hfin, by omega, by omega⟩

/-! ## Commands and steps (R255, R256) -/

theorem regReadBody_ncoPhase (addr : BitVec 16) (s : State) :
    (regReadBody addr s).ncoPhase = s.ncoPhase := by
  obtain h | ⟨r, -, h⟩ := regReadBody_cases addr s <;> rw [h] <;> rfl

theorem regWriteBody_ncoPhase (addr : BitVec 16) (v : Word) (s : State) :
    (regWriteBody addr v s).ncoPhase = s.ncoPhase := by
  obtain h | ⟨r, -, h⟩ := regWriteBody_cases addr v s
  · rw [h]; rfl
  · rw [h]; exact (congrArg State.ncoPhase (memWrite_frame r v s) :)

theorem runM_ncoSetBody_ncoPhase (fs f : Word) (s : State) :
    (runM (ncoSetBody fs f) s).ncoPhase = s.ncoPhase := by
  obtain ⟨p, inc, n, -, -, h⟩ := ncoSetBody_spec fs f s
  rw [h]

theorem PhasePath.of_eq {inc p q : Word} (h : q = p) : PhasePath inc p q := h ▸ .refl

theorem phasePath_effectOf (i : Instr) (s : State) :
    PhasePath s.ncoInc s.ncoPhase (effectOf i s).ncoPhase := by
  unfold effectOf
  split
  · obtain h | ⟨sel, addr, rfl⟩ | ⟨sel, addr, v, rfl⟩ | ⟨sel, imm, fs, f, rfl⟩ := bodyOf_cases i s
    · exact h.phase
    · exact .of_eq (regReadBody_ncoPhase addr s)
    · exact .of_eq (regWriteBody_ncoPhase addr v s)
    · exact .of_eq (runM_ncoSetBody_ncoPhase fs f s)
  · exact .refl

theorem phasePath_exec {i : Instr} {s t : State} (h : exec i s = .next t) :
    PhasePath s.ncoInc s.ncoPhase t.ncoPhase := by
  rw [exec_effectOf] at h
  obtain rfl := Host.Outcome.next.inj h
  exact phasePath_effectOf i s

theorem phasePath_step {s t : State} (h : step s = .next t) :
    PhasePath s.ncoInc s.ncoPhase t.ncoPhase := by
  obtain ⟨i, -, -, rfl⟩ | ⟨-, rfl⟩ | rfl := step_cases h
  · exact phasePath_effectOf i s
  · exact .refl
  · exact .refl

/-- R256 along a path: a reset gives +0.0, and each oscillator step keeps the range. -/
theorem PhaseInRange.along {s t : State} (hphase : PhaseInRange s) (hinc : IncInRange s)
    (hpath : PhasePath s.ncoInc s.ncoPhase t.ncoPhase) : PhaseInRange t :=
  (phaseInRange_iff t).mpr <| hpath.keeps PhaseOk phaseOk_posZero
    (fun _ _ hp => hp.next (incOk_of_incInRange hinc)) ((phaseInRange_iff s).mp hphase)

/-- Settles O33: commands and steps move the phase along a path, and the range is kept along it. -/
theorem phaseStaysInRange : Obligations.PhaseStaysInRange := by
  refine ⟨fun i s t hphase hinc h => hphase.along hinc (phasePath_exec h),
    fun s t hphase hinc h => ⟨hphase.along hinc (phasePath_step h), fun hsame => ?_⟩⟩
  rw [IncInRange, hsame]
  exact hinc

end Sys2Proof.Machine
end

section
/-! PROOFS. The three oscillator commands (41_nco_mixer.md R250 to R254), the loops of NCO_NEXT and MIX
as one kind of run, and the commands that leave the phase alone (R255). -/

namespace Sys2Proof.Machine

open Sys2Proof

/-! ## The commands (R250 to R254) -/

/-- Settles O29: the effect of NCO_SET, with `cp` moved past its three words. -/
theorem ncoSetWritesTheIncrement : Obligations.NcoSetWritesTheIncrement := by
  intro s fs f
  obtain ⟨p, inc, n, hp, hinc, hset⟩ := ncoSetBody_spec fs f s
  refine ⟨p, inc, n, hp, hinc, ?_⟩
  show Host.Outcome.next ((runM (ncoSetBody fs f) s).advance 3) = _
  rw [hset]
  rfl

/-- R252, R254: each run of `f` steps the oscillator once and emits one complex word, which `out` tells
from the input and the phase before the step. -/
def StepsOscillator {α : Type} (out : α → Word → Cplx → Prop) (f : α → M Unit) : Prop :=
  ∀ x s, ∃ z p n, PhaseNext s.ncoInc s.ncoPhase p ∧ out x s.ncoPhase z ∧
    (f x s).2 = { s with ncoPhase := p, resp := s.resp ++ [z.re, z.im], nanDraws := n }

/-- A loop of oscillator steps emits one complex word per input, at successive phases. -/
theorem StepsOscillator.forEach_run {α : Type} {out : α → Word → Cplx → Prop} {f : α → M Unit}
    (hf : StepsOscillator out f) (xs : List α) (s : State) :
    ∃ (phi : Nat → Word) (zs : List Cplx) (n : Nat),
      phi 0 = s.ncoPhase ∧ NcoRun s.ncoInc xs.length phi ∧ zs.length = xs.length ∧
      (∀ k x z, xs[k]? = some x → zs[k]? = some z → out x (phi k) z) ∧
      (forEach f xs s).2 = { s with
        ncoPhase := phi xs.length
        resp := s.resp ++ zs.flatMap fun z => [z.re, z.im]
        nanDraws := n } := by
  induction xs generalizing s with
  | nil =>
    refine ⟨fun _ => s.ncoPhase, [], s.nanDraws, rfl, fun _ hk => absurd hk (Nat.not_lt_zero _), rfl,
      fun _ _ _ hx => (nomatch hx), ?_⟩
    rw [List.flatMap_nil, List.append_nil]
    rfl
  | cons x xs ih =>
    obtain ⟨z, p, n, hp, hz, hstep⟩ := hf x s
    obtain ⟨phi, zs, n', hphi, hrun, hlen, hout, hloop⟩ := ih (f x s).2
    rw [hstep] at hphi hrun hloop
    refine ⟨consPhase s.ncoPhase phi, z :: zs, n', rfl, .cons (hphi ▸ hp) hrun,
      congrArg Nat.succ hlen, fun k x' z' hx' hz' => ?_, ?_⟩
    · cases k with
      | zero => cases hx'; cases hz'; exact hz
      | succ k => exact hout k x' z' hx' hz'
    · rw [forEach_cons, hstep, hloop, List.append_assoc]
      rfl

theorem emit_emit (s : State) (v w : Word) :
    (s.emit v).emit w = { s with resp := s.resp ++ [v, w] } :=
  congrArg (fun ws => { s with resp := ws }) (List.append_assoc s.resp [v] [w])

theorem ncoNextStep_stepsOscillator : StepsOscillator (fun (_ : Nat) phi z => z = conjSample phi)
    (fun _ => do
      let c ← ncoNext
      modify fun s => (s.emit c.re).emit c.im) := by
  intro _ s
  obtain ⟨p, n, hnext, hp⟩ := ncoNext_spec s
  refine ⟨conjSample s.ncoPhase, p, n, hp, rfl, ?_⟩
  beta_reduce
  rw [bind_apply, hnext, modify_apply, emit_emit]

theorem mixStep_stepsOscillator : StepsOscillator (fun x phi z => MixResult x (conjSample phi) z)
    (fun x => do
      let c ← ncoNext
      let y ← mixSample x c
      modify fun s => (s.emit y.re).emit y.im) := by
  intro x s
  obtain ⟨p, n, hnext, hp⟩ := ncoNext_spec s
  obtain ⟨y, n', hmix, hy⟩ := mixSample_spec x (conjSample s.ncoPhase)
    { s with ncoPhase := p, nanDraws := n }
  refine ⟨y, p, n', hp, hy, ?_⟩
  beta_reduce
  rw [bind_apply, hnext, bind_apply, hmix, modify_apply, emit_emit]

/-- Settles O30: the loop of NCO_NEXT emits the samples of its run's phases. -/
theorem ncoNextEmitsTheSinusoid : Obligations.NcoNextEmitsTheSinusoid := by
  intro s n
  obtain ⟨phi, zs, m, hphi, hrun, hlen, hout, hloop⟩ :=
    ncoNextStep_stepsOscillator.forEach_run (List.range n.toNat) s
  rw [List.length_range] at hrun hlen hloop
  have hzs : zs = (List.range n.toNat).map fun k => conjSample (phi k) := by
    refine List.ext_getElem (by rw [hlen, List.length_map, List.length_range]) fun k hk hk' => ?_
    rw [List.getElem_map, List.getElem_range]
    exact hout k k _ (List.getElem?_range (hlen ▸ hk)) (List.getElem?_eq_getElem hk)
  refine ⟨phi, m, hphi, hrun, ?_⟩
  show Host.Outcome.next ((runM (ncoNextBody n.toNat) s).advance 1) = _
  rw [runM, ncoNextBody, hloop, hzs, List.flatMap_map]
  rfl

/-- Settles O31: the loop of MIX emits the products of its run. -/
theorem mixMultipliesByTheSinusoid : Obligations.MixMultipliesByTheSinusoid := by
  intro s xs
  obtain ⟨phi, ys, m, hphi, hrun, hlen, hout, hloop⟩ := mixStep_stepsOscillator.forEach_run xs s
  refine ⟨phi, ys, m, hphi, hrun, hlen, hout, ?_⟩
  show Host.Outcome.next ((runM (mixBody xs) s).advance (1 + 2 * xs.length)) = _
  rw [runM, mixBody, hloop, State.advance, Nat.add_assoc]

/-! ## The commands that leave the phase alone (R255) -/

/-- R255: the phase stays, whatever the state. -/
def KeepsPhase {α : Type} (m : M α) : Prop := ∀ s, (m s).2.ncoPhase = s.ncoPhase

section

variable {α β : Type}

theorem KeepsPhase.bind {m : M α} {f : α → M β} (hm : KeepsPhase m) (hf : ∀ a, KeepsPhase (f a)) :
    KeepsPhase (m >>= f) := fun s => (hf _ _).trans (hm s)

theorem KeepsPhase.forEach {f : α → M Unit} (hf : ∀ x, KeepsPhase (f x)) (xs : List α) :
    KeepsPhase (forEach f xs) :=
  forEach_keeps (fun s t => t.ncoPhase = s.ncoPhase) (fun _ => rfl) (fun _ _ _ a b => b.trans a) f
    hf xs

theorem KeepsPhase.mapEach {f : α → M β} (hf : ∀ x, KeepsPhase (f x)) (xs : List α) :
    KeepsPhase (mapEach f xs) :=
  mapEach_keeps (fun s t => t.ncoPhase = s.ncoPhase) (fun _ => rfl) (fun _ _ _ a b => b.trans a) f
    hf xs

theorem KeepsPhase.keepOutputs {stp : α → M (Option β)} (hstp : ∀ x, KeepsPhase (stp x))
    (keep : Nat → Bool) (xs : List α) (m : Nat) : KeepsPhase (keepOutputs stp keep xs m) :=
  keepOutputs_keeps (fun s t => t.ncoPhase = s.ncoPhase) (fun _ => rfl) (fun _ _ _ a b => b.trans a)
    stp keep hstp xs m

end

theorem keepsPhase_firStepR (i : RealInst) (x : Word) : KeepsPhase (firStepR i x) := fun s => by
  obtain ⟨r, n, h, -⟩ := firStepR_spec i x s
  rw [h]
  exact State.setFir_ncoPhase s i _

theorem keepsPhase_firStepC (x : Cplx) : KeepsPhase (firStepC x) := fun s => by
  obtain ⟨r, n, h, -⟩ := firStepC_spec x s
  rw [h]

theorem keepsPhase_audStep (x : Word) : KeepsPhase (audStep x) := fun s => by
  obtain ⟨y, r, n, h, -⟩ := audStep_spec x s
  rw [h]

theorem keepsPhase_fmdStep (x : Cplx) : KeepsPhase (fmdStep x) := fun s => by
  obtain ⟨y, n, h, -⟩ := fmdStep_spec x s
  rw [h]

theorem keepsPhase_iqConv (w : Word) : KeepsPhase (iqConv w) := fun s => by
  obtain ⟨z, n, h⟩ := iqConv_frame w s
  rw [h]

theorem ncoPhase_of_blankChips {s t : State} (h : t.blankChips = s.blankChips) :
    t.ncoPhase = s.ncoPhase := (congrArg State.ncoPhase h :)

theorem keepsPhase_slice (l : Word) : KeepsPhase (slice l) := fun s => by
  obtain ⟨acc, n, h⟩ := slice_frame l s
  exact ncoPhase_of_blankChips (s := { s with chipAcc := acc, nanDraws := n }) h

theorem firReset_ncoPhase (i : Inst) (s : State) : (s.firReset i).ncoPhase = s.ncoPhase := by
  cases i with
  | ch => rfl
  | real j => exact State.setFir_ncoPhase s j _

/-- R511: of the units of RESET only that of mask bit 3 has the phase. -/
theorem resetUnits_ncoPhase (mask : BitVec 8) (s : State) :
    (resetUnits mask s).ncoPhase = if mask.getLsbD 3 then F32.posZero else s.ncoPhase := by
  simp only [resetUnits, reset_unit0, reset_unit1, reset_unit2, reset_unit3, reset_unit4]
  rfl

/-- R255: an effect of every other command keeps the phase. -/
theorem bodyOf_ncoPhase {i : Instr} (hi : movesPhase i = false) (s : State) :
    (bodyOf i s).ncoPhase = s.ncoPhase := by
  cases i with
  | nop => rfl
  | regRead _ addr => exact regReadBody_ncoPhase addr s
  | regWrite _ addr v => exact regWriteBody_ncoPhase addr v s
  | firProcC _ cap xs =>
    exact KeepsPhase.bind (.keepOutputs keepsPhase_firStepC _ xs 0) (fun _ _ => rfl) s
  | firProcR sel cap xs =>
    simp only [bodyOf]
    cases realOfSel sel with
    | none => rfl
    | some i => exact KeepsPhase.bind (.keepOutputs (keepsPhase_firStepR i) _ xs 0) (fun _ _ => rfl) s
  | firReset sel =>
    simp only [bodyOf]
    cases instOfSel sel with
    | none => rfl
    | some i => exact firReset_ncoPhase i s
  | ncoSet _ _ fs f => exact runM_ncoSetBody_ncoPhase fs f s
  | convU8 _ ws =>
    exact KeepsPhase.forEach (fun w => (keepsPhase_iqConv w).bind fun _ _ => rfl) ws s
  | fmdProc _ cap xs => exact KeepsPhase.bind (.mapEach keepsPhase_fmdStep _) (fun _ _ => rfl) s
  | audProc _ cap xs =>
    exact KeepsPhase.bind (.keepOutputs keepsPhase_audStep _ xs 0) (fun _ _ => rfl) s
  | rdsSlice _ xs => exact KeepsPhase.forEach keepsPhase_slice xs s
  | rdsChip _ ws => exact ncoPhase_of_blankChips (rdsChipBody_frame ws s)
  | rdsBit _ ws =>
    exact ncoPhase_of_blankChips (blankChips_of_blankSync (rdsBitBody_frame ws s))
  | crcSyn => rfl
  | rdsGroup _ _ a b c d =>
    exact ncoPhase_of_blankChips (blankChips_of_blankSync (blankSync_of_blankPs
      (groupDispatch_frame (operandDatum a) (operandDatum b) (operandDatum c) (operandDatum d) s)))
  | reset => cases hi
  | ncoNext => cases hi
  | mix => cases hi
  | rdsProc => cases hi
  | chainU8 => cases hi

theorem effectOf_ncoPhase {i : Instr}
    (hi : movesPhase i = false ∨ ∃ sel imm, i = .reset sel imm ∧ sel.getLsbD 3 = false) (s : State) :
    (effectOf i s).ncoPhase = s.ncoPhase := by
  unfold effectOf
  split
  · obtain hi | ⟨sel, imm, rfl, hbit⟩ := hi
    · exact bodyOf_ncoPhase hi s
    · exact (resetUnits_ncoPhase sel s).trans (if_neg (by rw [hbit]; exact Bool.false_ne_true))
  · rfl

/-- Settles O32: the contrapositive of `effectOf_ncoPhase`. -/
theorem phaseOnlyMovesWithTheOscillator : Obligations.PhaseOnlyMovesWithTheOscillator := by
  intro i s t h hmoved
  rw [exec_effectOf] at h
  obtain rfl := Host.Outcome.next.inj h
  rw [State.advance_ncoPhase] at hmoved
  refine ⟨?_, ?_⟩
  · by_contra hi
    exact hmoved (effectOf_ncoPhase (.inl (Bool.eq_false_of_not_eq_true hi)) s)
  · rintro sel imm rfl
    by_contra hbit
    exact hmoved (effectOf_ncoPhase
      (.inr ⟨sel, imm, rfl, Bool.eq_false_of_not_eq_true hbit⟩) s)

end Sys2Proof.Machine
end

section
/-! PROOFS. The input conversion is exact (42_input_demod.md R290): each of its three results has at most
24 significant bits, and rounding keeps such a number. -/

namespace Sys2Proof.Machine.F32

open Sys2Proof

/-! ## Numbers that rounding keeps (R10) -/

/-- R9: a number of at most 24 significant bits in the range of the exponents is that of a magnitude; a
short significand is first shifted to full length. -/
theorem exists_magUnits_eq {q sh : Nat} (hq : q < 2 ^ 24) (hsh : sh ≤ 253) :
    ∃ m, m < infMag ∧ magUnits m = q * 2 ^ sh := by
  rw [infMag]
  induction sh generalizing q with
  | zero =>
    exact ⟨0 * 2 ^ 23 + q, by omega, magUnits_encode (.inl rfl) hq.le⟩
  | succ sh ih =>
    obtain hshort | hfull := Nat.lt_or_ge q (2 ^ 23)
    · obtain ⟨m, hm, hunits⟩ := ih (q := 2 * q) (by omega) (by omega)
      exact ⟨m, hm, by rw [hunits, Nat.pow_succ']; ring⟩
    · exact ⟨(sh + 1) * 2 ^ 23 + q, by omega, magUnits_encode (.inr hfull) hq.le⟩

theorem exists_units_eq {q sh : Nat} (hq : q < 2 ^ 24) (hsh : sh ≤ 253) :
    ∃ c, isFinite c = true ∧ units c = q * 2 ^ sh := by
  obtain ⟨m, hm, hunits⟩ := exists_magUnits_eq hq hsh
  have hmag : mag (pack false m) = m := mag_pack (hm.trans (by decide)) false
  refine ⟨pack false m, ?_, ?_⟩
  · rwa [isFinite_iff_mag_lt, hmag]
  · rw [units_eq_magUnits, hmag, hunits]

/-- R10: a correctly rounded `num / den` that is the magnitude of a word is not changed by rounding. -/
theorem units_eq_of_nearestEven {neg : Bool} {num den n : Nat} {r : Word}
    (h : NearestEven neg num den r) (hden : 0 < den)
    (hword : ∃ c, isFinite c = true ∧ units c = n) (hnum : num = n * den) :
    isFinite r = true ∧ sign r = neg ∧ units r = n := by
  obtain ⟨c, hc, rfl⟩ := hword
  have hunder : num < (2 ^ 25 - 1) * 2 ^ 252 * den := by
    rw [hnum]
    refine Nat.mul_lt_mul_of_pos_right ?_ hden
    have hle := units_le_of_isFinite hc
    omega
  rw [NearestEven, if_neg (by omega)] at h
  obtain ⟨hfin, hsign, hbest⟩ := h
  obtain ⟨hle, -⟩ := hbest c hc
  simp only [← Nat.cast_mul] at hle
  exact ⟨hfin, hsign, Nat.eq_of_mul_eq_mul_right hden (by omega)⟩

/-! ## The operations of the conversion (R290) -/

/-- R12. -/
theorem ofByte_exact (b : Byte) :
    isFinite (ofByte b) = true ∧ value (ofByte b) = b.toNat * 2 ^ 149 := by
  have hb : b.toNat < 2 ^ 8 := b.isLt
  obtain ⟨hfin, hsign, hunits⟩ := units_eq_of_nearestEven
    (nearestEven_pack_roundMag false (b.toNat * unitsPerOne) Nat.one_pos) Nat.one_pos
    (exists_units_eq (q := b.toNat) (sh := 149) (by omega) (by decide)) (Nat.mul_one _).symm
  refine ⟨hfin, ?_⟩
  rw [value, ofByte, hsign, hunits, if_neg Bool.false_ne_true]
  push_cast
  rfl

variable {a b : Word}

/-- A difference that is not 0 and has a word's magnitude is exact. -/
theorem sub_exact (ha : isFinite a = true) (hb : isFinite b = true) (hne : value a - value b ≠ 0)
    (hword : ∃ c, isFinite c = true ∧ units c = (value a - value b).natAbs) :
    ∃ r, sub a b = some r ∧ isFinite r = true ∧ value r = value a - value b := by
  obtain ⟨r, hr, hnear⟩ := sub_nearestEven ha hb hne
  obtain ⟨hfin, hsign, hunits⟩ :=
    units_eq_of_nearestEven hnear Nat.one_pos hword (Nat.mul_one _).symm
  refine ⟨r, hr, hfin, ?_⟩
  rw [value, hsign, hunits]
  simp only [decide_eq_true_eq]
  split <;> omega

/-- A 128th part that is a word's magnitude is exact. -/
theorem div_c128_exact {n : Nat} (ha : isFinite a = true) (hn : units a = n * 128)
    (hword : ∃ c, isFinite c = true ∧ units c = n) :
    ∃ r, div a c128 = some r ∧ isFinite r = true ∧ value r * 128 = value a := by
  have hc128 : units c128 = 128 * unitsPerOne := by decide +kernel
  obtain ⟨hfin, hsign, hunits⟩ := units_eq_of_nearestEven
    (nearestEven_pack_roundMag (sign a != sign c128) (units a * unitsPerOne)
      (den := units c128) (by decide +kernel)) (by decide +kernel) hword
    (by rw [hn, hc128, Nat.mul_assoc])
  refine ⟨_, div_of_isFinite ha rfl rfl, hfin, ?_⟩
  rw [value, hsign, hunits, value, hn, show sign c128 = false from rfl, Bool.bne_false]
  split <;> push_cast <;> ring

end Sys2Proof.Machine.F32

namespace Sys2Proof.Machine

open Sys2Proof

/-! ## The conversion (R290) -/

theorem value_c127_5 : F32.value F32.c127_5 = 255 * 2 ^ 148 := by decide +kernel

/-- R290: 2b - 255 is odd, so no difference is 0, and it has at most 8 bits. -/
theorem convByte_spec (b : Byte) (s : State) : ∃ z, convByte b s = (z, s) ∧ ConvExact b z := by
  have hb : b.toNat < 2 ^ 8 := b.isLt
  obtain ⟨hbfin, hbval⟩ := F32.ofByte_exact b
  have hdiff : F32.value (F32.ofByte b) - F32.value F32.c127_5
      = (2 * (b.toNat : Int) - 255) * 2 ^ 148 := by
    rw [hbval, value_c127_5]
    ring
  have habs : (F32.value (F32.ofByte b) - F32.value F32.c127_5).natAbs
      = (2 * (b.toNat : Int) - 255).natAbs * 2 ^ 148 := by
    rw [hdiff, Int.natAbs_mul]
    rfl
  obtain ⟨d, hsub, hdfin, hdval⟩ := F32.sub_exact hbfin (b := F32.c127_5) rfl (by omega)
    (habs ▸ F32.exists_units_eq (by omega) (by decide))
  have hdunits : F32.units d = (2 * (b.toNat : Int) - 255).natAbs * 2 ^ 141 * 128 := by
    rw [← F32.natAbs_value, hdval, habs]
    omega
  obtain ⟨z, hdiv, hzfin, hzval⟩ :=
    F32.div_c128_exact hdfin hdunits (F32.exists_units_eq (by omega) (by decide))
  refine ⟨z, ?_, hzfin, by omega⟩
  rw [convByte, bind_apply, fsub, hsub, orNaN_some, fdiv, hdiv, orNaN_some]

theorem iqConv_spec (w : Word) (s : State) :
    ∃ z, iqConv w s = (z, s) ∧ ConvExact (iqI w) z.re ∧ ConvExact (iqQ w) z.im := by
  obtain ⟨re, hre, hreExact⟩ := convByte_spec (iqI w) s
  obtain ⟨im, him, himExact⟩ := convByte_spec (iqQ w) s
  refine ⟨⟨re, im⟩, ?_, hreExact, himExact⟩
  rw [iqConv, bind_apply, hre, bind_apply, him, pure_apply]

/-- R291: the loop of CONV_U8 emits the samples of its words and does nothing else. -/
theorem convU8Body_spec (ws : List Word) (s : State) : ∃ zs : List Cplx,
    List.Forall₂ (fun w z => ConvExact (iqI w) z.re ∧ ConvExact (iqQ w) z.im) ws zs ∧
      runM (convU8Body ws) s = { s with resp := s.resp ++ zs.flatMap fun z => [z.re, z.im] } := by
  rw [runM, convU8Body]
  induction ws generalizing s with
  | nil => exact ⟨[], .nil, by rw [forEach_nil, List.flatMap_nil, List.append_nil]⟩
  | cons w ws ih =>
    obtain ⟨z, hconv, hz⟩ := iqConv_spec w s
    obtain ⟨zs, hzs, hloop⟩ := ih { s with resp := s.resp ++ [z.re, z.im] }
    refine ⟨z :: zs, .cons hz hzs, ?_⟩
    rw [forEach_cons, bind_apply, hconv, modify_apply, emit_emit, hloop, List.append_assoc]
    rfl

/-- Settles O34: the loop of CONV_U8, with `cp` moved past its words. -/
theorem convU8IsExact : Obligations.ConvU8IsExact := by
  intro s ws
  obtain ⟨zs, hzs, hloop⟩ := convU8Body_spec ws s
  refine ⟨zs, hzs, ?_⟩
  show Host.Outcome.next ((runM (convU8Body ws) s).advance (1 + ws.length)) = _
  rw [hloop, State.advance, Nat.add_assoc]

end Sys2Proof.Machine
end

section
/-! PROOFS. The demodulator over a whole list (42_input_demod.md R292 to R294): each sample becomes the
previous one of the next, and the samples past the capacity are not processed. -/

namespace Sys2Proof.Machine

open Sys2Proof

/-! ## The previous sample (R54) -/

/-- R292: after one sample and then a list, `prev` is what it is after all of them. -/
theorem withPrev_cons (x : Cplx) (xs : List Cplx) (n : Nat) (s : State) :
    ({ s with fmdPrevI := x.re, fmdPrevQ := x.im, fmdHasPrev := true, nanDraws := n } :
      State).withPrev xs = { s.withPrev (x :: xs) with nanDraws := n } := by
  rw [State.withPrev, State.withPrev, List.getLast?_cons]
  cases xs.getLast? <;> rfl

theorem withPrev_resp (xs : List Cplx) (s : State) : (s.withPrev xs).resp = s.resp := by
  rw [State.withPrev]
  cases xs.getLast? <;> rfl

theorem withPrev_cp (xs : List Cplx) (s : State) : (s.withPrev xs).cp = s.cp := by
  rw [State.withPrev]
  cases xs.getLast? <;> rfl

/-! ## The loop and the command (R293) -/

theorem mapEach_fmdStep_spec (xs : List Cplx) (s : State) :
    ∃ ys n, mapEach fmdStep xs s = (ys, { s.withPrev xs with nanDraws := n }) ∧
      FmdRun s.fmdPrev xs ys := by
  induction xs generalizing s with
  | nil => exact ⟨[], s.nanDraws, rfl, rfl⟩
  | cons x xs ih =>
    obtain ⟨y, n, hstep, hy⟩ := fmdStep_spec x s
    obtain ⟨ys, n', hloop, hys⟩ := ih (fmdStep x s).2
    rw [hstep] at hloop hys
    refine ⟨y :: ys, n', ?_, y, ys, rfl, hy, hys⟩
    rw [mapEach_cons, hstep, hloop, withPrev_cons]

/-- R294: one output per processed input. -/
theorem FmdRun.length_eq {prev : Option Cplx} {xs : List Cplx} {ys : List Word}
    (h : FmdRun prev xs ys) : ys.length = xs.length := by
  induction xs generalizing prev ys with
  | nil => exact congrArg List.length h
  | cons x xs ih =>
    obtain ⟨y, rest, rfl, -, hrest⟩ := h
    exact congrArg Nat.succ (ih hrest)

/-- Settles O35: the loop of FMD_PROC over the samples within the capacity, their count, and `cp` moved
past the whole command. -/
theorem fmdProcRun : Obligations.FmdProcRun := by
  intro s cap xs
  obtain ⟨ys, n, hloop, hrun⟩ := mapEach_fmdStep_spec (xs.take cap.toNat) s
  refine ⟨ys, n, hrun, ?_, ?_⟩
  · rw [hrun.length_eq, List.length_take, Nat.min_comm]
  · show Host.Outcome.next ((runM (fmdProcBody cap xs) s).advance (2 + 2 * xs.length)) = _
    rw [runM, fmdProcBody, Nat.min_comm, ← List.take_eq_take_min, bind_apply, hloop, modify_apply,
      State.emitAll, State.advance, withPrev_resp, withPrev_cp, Nat.add_assoc]
    rfl

end Sys2Proof.Machine
end

section
/-! PROOFS. The audio resampler (43_audio.md R330 to R333). A product does not round past a word that
bounds it, so a clipped sample times 32767 is within 32767, and so is the integer nearest to it: every
PCM value fits the 16 bits of its word. One sample is one step of each of the streams of `AudRun`; of
the outputs of a whole list the loop keeps the first. -/

namespace Sys2Proof.Machine.F32

open Sys2Proof

/-! ## Products below a word (R10) -/

section

variable {a b c r : Word}

/-- A correctly rounded magnitude does not pass a word that bounds the exact one. -/
theorem units_le_of_nearestEven {neg : Bool} {num den : Nat} (h : NearestEven neg num den r)
    (hden : 0 < den) (hc : isFinite c = true) (hle : num ≤ units c * den) :
    isFinite r = true ∧ units r ≤ units c := by
  have hunder : num < (2 ^ 25 - 1) * 2 ^ 252 * den := by
    refine hle.trans_lt (Nat.mul_lt_mul_of_pos_right ?_ hden)
    have hmax := units_le_of_isFinite hc
    omega
  rw [NearestEven, if_neg (by omega)] at h
  obtain ⟨hfin, -, hbest⟩ := h
  obtain ⟨hnear, -⟩ := hbest c hc
  refine ⟨hfin, ?_⟩
  by_contra hlt
  have hpast := Nat.mul_lt_mul_of_pos_right (Nat.lt_of_not_le hlt) hden
  simp only [← Nat.cast_mul] at hnear
  omega

theorem units_le_of_res_mul (ha : isFinite a = true) (hb : isFinite b = true)
    (hc : isFinite c = true) (hle : units a * units b ≤ units c * unitsPerOne)
    (h : Res (mul a b) r) : isFinite r = true ∧ units r ≤ units c := by
  rw [mul_of_isFinite ha hb] at h
  obtain rfl : r = _ := h
  have hpos : 0 < unitsPerOne := Nat.two_pow_pos _
  exact units_le_of_nearestEven (nearestEven_pack_roundMag _ _ hpos) hpos hc hle

/-! ## Rounding half away from zero (R12) -/

/-- An integer that bounds a magnitude bounds the nearest integer. -/
theorem natAbs_roundHalfAway_le {n : Nat} (h : units a ≤ n * unitsPerOne) :
    (roundHalfAway a).natAbs ≤ n := by
  have hpos : 0 < 2 * unitsPerOne := Nat.mul_pos (by decide) (Nat.two_pow_pos _)
  have hquot : (2 * units a + unitsPerOne) / (2 * unitsPerOne) < n + 1 := by
    rw [Nat.div_lt_iff_lt_mul hpos]
    calc 2 * units a + unitsPerOne ≤ 2 * (n * unitsPerOne) + unitsPerOne := by omega
      _ < 2 * (n * unitsPerOne) + 2 * unitsPerOne := by omega
      _ = (n + 1) * (2 * unitsPerOne) := by ring
  rw [roundHalfAway]
  generalize (2 * units a + unitsPerOne) / (2 * unitsPerOne) = m at *
  split <;> omega

end

end Sys2Proof.Machine.F32

namespace Sys2Proof.Machine

open Sys2Proof

/-! ## PCM values (R331) -/

/-- R331: the range of a PCM value. -/
def PcmInRange (q : Int) : Prop := -32767 ≤ q ∧ q ≤ 32767

/-- R331: the clip gives a number, and its magnitude is at most 1.0. -/
theorem clip_spec (v : Word) : F32.isFinite (clip v) = true ∧ F32.units (clip v) ≤ F32.unitsPerOne := by
  have hone : F32.value F32.one = F32.unitsPerOne := by decide +kernel
  have hnegOne : F32.value F32.negOne = -F32.unitsPerOne := by decide +kernel
  rw [clip]
  split
  case isTrue => exact ⟨rfl, Nat.zero_le _⟩
  case isFalse hnan =>
    replace hnan := Bool.eq_false_of_not_eq_true hnan
    obtain ⟨-, hgt, -⟩ := F32.comparisons_eq_decide hnan (b := F32.one) rfl
    obtain ⟨hlt, -⟩ := F32.comparisons_eq_decide hnan (b := F32.negOne) rfl
    rw [hgt, hlt]
    split
    case isTrue => exact ⟨rfl, by decide +kernel⟩
    case isFalse hle =>
      split
      case isTrue => exact ⟨rfl, by decide +kernel⟩
      case isFalse hge =>
        rw [decide_eq_true_eq, Int.not_lt] at hle hge
        refine ⟨F32.isFinite_of_value_between (lo := F32.negOne) rfl rfl hnan hge hle, ?_⟩
        rw [← F32.natAbs_value]
        omega

/-- R331: whatever the sample and the gain. -/
theorem QuantResult.pcmInRange {gain z : Word} {q : Int} (h : QuantResult gain z q) :
    PcmInRange q := by
  obtain ⟨v, m, -, hm, rfl⟩ := h
  obtain ⟨hfin, hunits⟩ := clip_spec v
  have hscale : F32.units Config.PCM_SCALE = 32767 * F32.unitsPerOne := by decide +kernel
  obtain ⟨-, hle⟩ := F32.units_le_of_res_mul hfin (b := Config.PCM_SCALE) rfl rfl
    (by rw [Nat.mul_comm]; exact Nat.mul_le_mul_left _ hunits) hm
  have habs := F32.natAbs_roundHalfAway_le (hle.trans hscale.le)
  constructor <;> omega

theorem forall_pcmInRange {gain : Word} {zs : List Word} {qs : List Int}
    (h : List.Forall₂ (QuantResult gain) zs qs) : ∀ q ∈ qs, PcmInRange q := by
  induction h with
  | nil => exact List.forall_mem_nil _
  | cons hq _ ih => exact List.forall_mem_cons.2 ⟨hq.pcmInRange, ih⟩

/-- R149: a PCM value in range is the number its word stands for. -/
theorem toInt_pcmWord {q : Int} (h : PcmInRange q) : (pcmWord q).toInt = q := by
  obtain ⟨hlo, hhi⟩ := h
  rw [pcmWord, BitVec.toInt_signExtend_of_le (by decide), BitVec.toInt_ofInt]
  exact Int.bmod_eq_of_le (by omega) (by omega)

theorem pcmWord_eq_ofInt {q : Int} (h : PcmInRange q) : pcmWord q = BitVec.ofInt 32 q := by
  rw [← BitVec.ofInt_toInt (x := pcmWord q), toInt_pcmWord h]

/-! ## One sample (R332) -/

/-- R332: the de-emphasis goes on, AU takes its result, and an AU output is quantized. -/
theorem audStep_run (x : Word) (s : State) : ∃ y o q n,
    audStep x s = (q, { s with deemphY := y, au := s.au.insert F32.posZero y, nanDraws := n }) ∧
      DeemphNext s.deemphA x s.deemphY y ∧ FirOut F32.posZero DotReal s.au y o ∧
      List.Forall₂ (QuantResult s.audGain) o.toList q.toList := by
  obtain ⟨y, q, n, hstep, hy, hskip, hout⟩ := audStep_spec x s
  cases hdue : s.au.due with
  | false =>
    obtain rfl := hskip hdue
    exact ⟨y, none, none, n, hstep, hy, ⟨fun _ => rfl, fun h => (nomatch hdue.symm.trans h)⟩, .nil⟩
  | true =>
    obtain ⟨z, k, rfl, hk, hz⟩ := hout hdue
    exact ⟨y, some z, some k, n, hstep, hy,
      ⟨fun h => (nomatch hdue.symm.trans h), fun _ => ⟨z, rfl, hz⟩⟩, .cons hk .nil⟩

/-! ## The whole list (R333) -/

section

variable {α β : Type} (stp : α → M (Option β))

theorem allOutputs_cons (x : α) (xs : List α) (s : State) : allOutputs stp (x :: xs) s =
    ((stp x s).1.toList ++ (allOutputs stp xs (stp x s).2).1, (allOutputs stp xs (stp x s).2).2) := by
  have hone : allOutputs stp [x] s = ((stp x s).1.toList, (stp x s).2) := by
    rw [allOutputs, keepOutputs_cons]
    cases (stp x s).1 <;> rfl
  rw [← List.singleton_append, allOutputs_append, hone]

/-- R205: the outputs kept under a capacity are the first of all, and the rest are computed too. -/
theorem keepOutputs_underCap_eq_take (cap : Word) (xs : List α) (m : Nat) (s : State) :
    keepOutputs stp (underCap cap) xs m s =
      ((allOutputs stp xs s).1.take (cap.toNat - m), (allOutputs stp xs s).2) := by
  induction xs generalizing m s with
  | nil => exact Prod.ext List.take_nil.symm rfl
  | cons x xs ih =>
    rw [keepOutputs_cons, allOutputs_cons]
    cases (stp x s).1 with
    | none => exact ih m _
    | some y =>
      dsimp only [Option.toList_some, List.singleton_append]
      by_cases hm : m < cap.toNat
      · rw [underCap, decide_eq_true hm, if_pos rfl, ih,
          show cap.toNat - m = cap.toNat - (m + 1) + 1 by omega, List.take_succ_cons]
      · rw [underCap, decide_eq_false hm, if_neg Bool.false_ne_true, ih,
          show cap.toNat - m = 0 by omega, List.take_zero, List.take_zero]

end

section

variable {a gain y y' y₁ x : Word} {f f' : Fir Word} {xs : List Word} {qs : List Int}

theorem AudRun.nil (h : FirOk F32.posZero f) : AudRun a gain y f [] [] y f :=
  ⟨[], [], rfl, rfl, FirRun.nil _ h, .nil⟩

/-- R332: a run is its first sample's step and then the run from what that step leaves. -/
theorem AudRun.cons {o : Option Word} {q : Option Int} (h : FirOk F32.posZero f)
    (hy : DeemphNext a x y y₁) (ho : FirOut F32.posZero DotReal f y₁ o)
    (hq : List.Forall₂ (QuantResult gain) o.toList q.toList)
    (hrun : AudRun a gain y₁ (f.insert F32.posZero y₁) xs qs y' f') :
    AudRun a gain y f (x :: xs) (q.toList ++ qs) y' f' := by
  obtain ⟨ys, zs, hys, rfl, hzs, hqs⟩ := hrun
  exact ⟨y₁ :: ys, o.toList ++ zs, ⟨y₁, ys, rfl, hy, hys⟩, List.getLastD_cons.symm,
    FirRun.cons_out h ho hzs, List.rel_append hq hqs⟩

end

/-- R332: the steps of AUD_PROC are a run of the resampler. -/
theorem allOutputs_audStep_run (xs : List Word) (s : State) (h : FirOk F32.posZero s.au) :
    ∃ qs y f n, allOutputs audStep xs s = (qs, { s with deemphY := y, au := f, nanDraws := n }) ∧
      AudRun s.deemphA s.audGain s.deemphY s.au xs qs y f := by
  induction xs generalizing s with
  | nil => exact ⟨[], s.deemphY, s.au, s.nanDraws, rfl, .nil h⟩
  | cons x xs ih =>
    obtain ⟨y₁, o, q, n₁, hstep, hy, ho, hq⟩ := audStep_run x s
    obtain ⟨qs, y, f, n, hloop, hrun⟩ :=
      ih { s with deemphY := y₁, au := s.au.insert F32.posZero y₁, nanDraws := n₁ }
        (Fir.insert_ok h y₁)
    refine ⟨q.toList ++ qs, y, f, n, ?_, hrun.cons h hy ho hq⟩
    rw [allOutputs_cons, hstep, hloop]

/-- R333: every sample is stepped, and the first `cap` PCM values are emitted with their number. -/
theorem audProcBody_eq (cap : Word) (xs : List Word) (s : State) :
    runM (audProcBody cap xs) s =
      (allOutputs audStep xs s).2.emitCounted
        (((allOutputs audStep xs s).1.take cap.toNat).map pcmWord)
        ((allOutputs audStep xs s).1.take cap.toNat).length := by
  rw [runM, audProcBody, bind_apply, keepOutputs_underCap_eq_take]
  rfl

/-- Settles O36: the first `cap` outputs of the run, whose words are their numbers. -/
theorem audProcRun : Obligations.AudProcRun := by
  intro s cap xs hok
  obtain ⟨qs, y, f, n, hloop, hrun⟩ := allOutputs_audStep_run xs s hok
  refine ⟨qs, y, f, n, hrun, ?_⟩
  obtain ⟨_, _, -, -, -, hqs⟩ := hrun
  have hwords : (qs.take cap.toNat).map pcmWord
      = (qs.take cap.toNat).map fun q => BitVec.ofInt 32 q :=
    List.map_congr_left fun q hq => pcmWord_eq_ofInt (forall_pcmInRange hqs q (List.mem_of_mem_take hq))
  show Host.Outcome.next ((runM (audProcBody cap xs) s).advance (2 + xs.length)) = _
  rw [audProcBody_eq, hloop, State.emitCounted, hwords, countWord_take, Nat.add_assoc]
  rfl

/-! ## Every PCM word (R331, R149) -/

/-- `m` appends no response (R57). -/
def Silent {α : Type} (m : M α) : Prop := ∀ s, (m s).2.resp = s.resp

theorem Silent.pure {α : Type} (a : α) : Silent (pure a) := fun _ => rfl

theorem Silent.bind {α β : Type} {m : M α} {f : α → M β} (hm : Silent m) (hf : ∀ a, Silent (f a)) :
    Silent (m >>= f) := fun s => (hf _ _).trans (hm s)

theorem Silent.keepOutputs {α β : Type} {stp : α → M (Option β)} (h : ∀ x, Silent (stp x))
    (keep : Nat → Bool) (xs : List α) (m : Nat) : Silent (keepOutputs stp keep xs m) :=
  keepOutputs_keeps (fun s t => t.resp = s.resp) (fun _ => rfl) (fun _ _ _ hst htu => htu.trans hst) stp
    keep h xs m

theorem silent_iqConv (w : Word) : Silent (iqConv w) := by
  intro s
  obtain ⟨z, n, hstep⟩ := iqConv_frame w s
  rw [hstep]

theorem silent_firStepC (x : Cplx) : Silent (firStepC x) := by
  intro s
  obtain ⟨o, n, hstep, -⟩ := firStepC_spec x s
  rw [hstep]

theorem silent_fmdStep (x : Cplx) : Silent (fmdStep x) := by
  intro s
  obtain ⟨y, n, hstep, -⟩ := fmdStep_spec x s
  rw [hstep]

theorem silent_audStep (x : Word) : Silent (audStep x) := by
  intro s
  obtain ⟨y, o, n, hstep, -⟩ := audStep_spec x s
  rw [hstep]

/-- R370: the RDS path has no response. -/
theorem RdsStep.resp {s t : State} {m : Word} (h : RdsStep s m t) : t.resp = s.resp := by
  have hfront (chips : List Bool) (rb rl : Fir Word) (phase acc : Word) (n : Nat) :
      (s.afterFront chips rb rl phase acc n).resp = s.resp :=
    (congrArg State.resp (chipsEffect_eq_outside chips s) :)
  cases h <;> exact hfront ..

theorem silent_rdsGated (m : Word) : Silent (rdsGated m) := by
  intro s
  rw [rdsGated, bind_apply, get_apply]
  dsimp only
  split
  · exact (rdsFront_step m s).resp
  · rfl

theorem silent_chainStep (w : Word) : Silent (chainStep w) := by
  refine .bind (silent_iqConv w) fun z => .bind (silent_firStepC z) fun o => ?_
  cases o with
  | none => exact .pure _
  | some c =>
    exact .bind (silent_fmdStep c) fun m => .bind (silent_rdsGated m) fun _ => silent_audStep m

/-- Every value that a step gives is a PCM value in range. -/
def GivesPcm {α : Type} (stp : α → M (Option Int)) : Prop :=
  ∀ x s q, (stp x s).1 = some q → PcmInRange q

theorem givesPcm_audStep : GivesPcm audStep := by
  intro x s q hout
  obtain ⟨y, o, q', n, hstep, -, -, hq⟩ := audStep_run x s
  rw [hstep] at hout
  obtain rfl : q' = some q := hout
  exact forall_pcmInRange hq q (List.mem_singleton_self q)

/-- R515: the chain's PCM values are the resampler's. -/
theorem givesPcm_chainStep : GivesPcm chainStep := by
  intro w s q hout
  rw [chainStep, bind_apply, bind_apply] at hout
  generalize firStepC (iqConv w s).1 (iqConv w s).2 = p at hout
  obtain ⟨o, t⟩ := p
  cases o with
  | none => cases hout
  | some c => exact givesPcm_audStep _ _ q hout

theorem GivesPcm.keepOutputs {α : Type} {stp : α → M (Option Int)} (h : GivesPcm stp)
    (keep : Nat → Bool) (xs : List α) (m : Nat) (s : State) :
    ∀ q ∈ (keepOutputs stp keep xs m s).1, PcmInRange q := by
  induction xs generalizing m s with
  | nil => exact List.forall_mem_nil _
  | cons x xs ih =>
    rw [keepOutputs_cons]
    cases hout : (stp x s).1 with
    | none => exact ih m _
    | some q =>
      dsimp only
      split
      · exact List.forall_mem_cons.2 ⟨h x s q hout, ih _ _⟩
      · exact ih m _

/-- R333, R516: a loop over inputs, then the words of its PCM values and their count. -/
theorem resp_of_pcmLoop {α : Type} {stp : α → M (Option Int)} (hsilent : ∀ x, Silent (stp x))
    (hpcm : GivesPcm stp) (keep : Nat → Bool) (xs : List α) (s : State) :
    ∃ ws count, (runM (keepOutputs stp keep xs 0 >>= fun kept =>
        modify fun s => s.emitCounted (kept.map pcmWord) kept.length) s).resp
          = s.resp ++ (ws ++ [count]) ∧
      ∀ w ∈ ws, -32767 ≤ w.toInt ∧ w.toInt ≤ 32767 := by
  refine ⟨(keepOutputs stp keep xs 0 s).1.map pcmWord,
    countWord (keepOutputs stp keep xs 0 s).1.length, ?_, ?_⟩
  · rw [runM, bind_apply, modify_apply, State.emitCounted_resp,
      Silent.keepOutputs hsilent keep xs 0 s]
  · intro w hw
    obtain ⟨q, hq, rfl⟩ := List.mem_map.1 hw
    have hrange := hpcm.keepOutputs keep xs 0 s q hq
    rw [toInt_pcmWord hrange]
    exact hrange

/-- Settles O37: both commands are loops of steps that give PCM values in range. -/
theorem pcmStaysInRange : Obligations.PcmStaysInRange := by
  rintro i s t (⟨cap, xs, rfl⟩ | ⟨ws, rfl⟩) h
  · obtain rfl := exec_next _ s t h
    exact resp_of_pcmLoop silent_audStep givesPcm_audStep (underCap cap) xs s
  · obtain rfl := exec_next _ s t h
    exact resp_of_pcmLoop silent_chainStep givesPcm_chainStep (fun _ => true) ws s

end Sys2Proof.Machine
end

section
/-! PROOFS. RDS_SLICE over a list of samples (44_rds_bits.md R372, R373, R381): the loop is a run of the
slicer, and the accumulator's part of it is one function iterated, in which no sample stands. -/

namespace Sys2Proof.Machine

open Sys2Proof

/-! ## The run (R372, R373) -/

/-- The samples of RDS_SLICE are one run of the slicer, and of the front end only the slicer moves. -/
theorem forEach_slice_run (ls : List Word) (s : State) : ∃ acc chips n,
    (forEach slice ls s).2 = s.afterFront chips s.rb s.rl s.ncoPhase acc n ∧
      SliceRun s.chipInc s.chipAcc ls acc chips := by
  induction ls generalizing s with
  | nil => exact ⟨s.chipAcc, [], s.nanDraws, rfl, rfl, rfl⟩
  | cons l ls ih =>
    obtain ⟨acc₁, chips₁, n₁, hstep, hfirst⟩ := slice_run l s
    obtain ⟨acc, chips, n, hloop, hrest⟩ := ih (slice l s).2
    rw [hstep, afterFront_chipInc] at hrest
    refine ⟨acc, chips₁ ++ chips, n, ?_, hfirst.append hrest⟩
    rw [forEach_cons, hloop, hstep, afterFront_afterFront]
    rfl

/-- Chips leave the engines and the phase alone, so putting those of before there changes nothing. -/
theorem afterFront_same_front (s : State) (chips : List Bool) (acc : Word) (n : Nat) :
    s.afterFront chips s.rb s.rl s.ncoPhase acc n
      = { chipsEffect chips s with chipAcc := acc, nanDraws := n } := by
  rw [State.afterFront, chipsEffect_eq_outside chips s]
  rfl

/-- Settles O39: the loop of RDS_SLICE is a run of the slicer, which leaves `cp` alone. -/
theorem rdsSliceRun : Obligations.RdsSliceRun := by
  intro s ls
  obtain ⟨acc, chips, n, hloop, hrun⟩ := forEach_slice_run ls s
  have hcp : (forEach slice ls s).2.cp = s.cp := (keeps_forEach _ keeps_slice ls s).cp
  refine ⟨acc, chips, n, hrun, ?_⟩
  show Host.Outcome.next ((forEach slice ls s).2.advance (1 + ls.length)) = _
  rw [State.advance, hcp, hloop, afterFront_same_front, Nat.add_assoc]

/-! ## The accumulator alone (R381) -/

/-- R11: the word of an operation's result and the draw count after it, from the draw count before. -/
def resultAt (r : Option Word) (n : Nat) : Word × Nat :=
  match r with
  | some w => (w, n)
  | none => (F32.quietNaN (Config.nanBits n), n + 1)

theorem orNaN_eq_resultAt (r : Option Word) (s : State) :
    orNaN r s = ((resultAt r s.nanDraws).1, { s with nanDraws := (resultAt r s.nanDraws).2 }) := by
  cases r <;> rfl

/-- CHIP_ACC and the draw count, the part of the state that the accumulator of the slicer moves. -/
def State.slicer (s : State) : Word × Nat := (s.chipAcc, s.nanDraws)

/-- R372: one sample's step of the accumulator. -/
def accStep (inc : Word) (p : Word × Nat) : Word × Nat :=
  let sum := resultAt (F32.add p.1 inc) p.2
  if F32.ge sum.1 F32.one then resultAt (F32.sub sum.1 F32.one) sum.2 else sum

theorem manchester_slicer (c : Bool) (s : State) : (manchester c s).slicer = s.slicer :=
  (congrArg State.slicer (manchester_frame c s) :)

/-- R372, R381: `slice` moves the accumulator by a step in which its sample does not stand. -/
theorem slice_slicer (l : Word) (s : State) :
    (slice l s).2.slicer = accStep s.chipInc s.slicer := by
  have hsum := orNaN_eq_resultAt (F32.add s.chipAcc s.chipInc) s
  set sum := resultAt (F32.add s.chipAcc s.chipInc) s.nanDraws
  have hstep : accStep s.chipInc s.slicer =
      if F32.ge sum.1 F32.one then resultAt (F32.sub sum.1 F32.one) sum.2 else sum := rfl
  rw [hstep, slice, bind_apply, get_apply, bind_apply, fadd, hsum]
  dsimp only
  split
  · rw [bind_apply, fsub, orNaN_eq_resultAt]
    exact manchester_slicer (chipOf l) _
  · rfl

/-- R381: over a list of samples the accumulator's step is iterated, once for each. -/
theorem forEach_slice_slicer (ls : List Word) (s : State) :
    (forEach slice ls s).2.slicer = (accStep s.chipInc)^[ls.length] s.slicer := by
  induction ls generalizing s with
  | nil => rfl
  | cons l ls ih =>
    have hinc : (slice l s).2.chipInc = s.chipInc := by
      obtain ⟨acc, chips, n, hstep, -⟩ := slice_run l s
      rw [hstep, afterFront_chipInc]
    rw [forEach_cons, ih, hinc, slice_slicer, List.length_cons, Function.iterate_succ_apply]

/-- R373: what RDS_SLICE leaves of the accumulator. -/
theorem exec_rdsSlice_slicer {s t : State} {ls : List Word}
    (h : exec (.rdsSlice 0 ls) s = .next t) :
    t.slicer = (accStep s.chipInc)^[ls.length] s.slicer := by
  obtain rfl := exec_next _ s t h
  exact forEach_slice_slicer ls s

/-- Settles O40: both commands iterate the same step as often from the same accumulator. -/
theorem slicerIsOpenLoop : Obligations.SlicerIsOpenLoop := by
  intro s s' t t' ls ls' hinc hacc hdraws hlen ht ht'
  have hslicer : s.slicer = s'.slicer := Prod.ext hacc hdraws
  have heq : t.slicer = t'.slicer := by
    rw [exec_rdsSlice_slicer ht, exec_rdsSlice_slicer ht', hinc, hlen, hslicer]
  exact congrArg Prod.fst heq

end Sys2Proof.Machine
end

section
/-! PROOFS. RDS_CHIP and RDS_BIT (44_rds_bits.md R374 to R380, 45_rds_sync.md R427): what one chip does,
that both commands take their words one after another, and that differentially encoded chip pairs have
the effect of the bits they encode. -/

namespace Sys2Proof.Machine

open Sys2Proof

/-! ## The commands as effects -/

theorem exec_rdsChip (ws : List Word) (s : State) :
    exec (.rdsChip 0 ws) s = .next ((rdsChipBody ws s).advance (1 + ws.length)) := rfl

theorem exec_rdsBit (ws : List Word) (s : State) :
    exec (.rdsBit 0 ws) s = .next ((rdsBitBody ws s).advance (1 + ws.length)) := rfl

theorem rdsChipBody_singleton (w : Word) (s : State) :
    rdsChipBody [w] s = manchester (w.getLsbD 0) s := rfl

theorem rdsBitBody_bitWord (b : Bool) (s : State) : rdsBitBody [bitWord b] s = blockStep b s :=
  congrArg (blockStep · s) (operandBit_bitWord b)

/-! ## One chip (R374 to R379) -/

/-- Settles O41: the three cases of `manchester`, by whether a chip is held and equals the new one. -/
theorem rdsChipOne : Obligations.RdsChipOne := by
  intro s w
  refine ⟨fun hpend => ?_, fun hpend hne => ?_, fun hpend heq => ?_⟩
  · rw [exec_rdsChip, rdsChipBody_singleton, manchester_first _ s hpend]
    rfl
  · rw [exec_rdsChip, rdsChipBody_singleton, manchester_valid _ s hpend hne, exec_rdsBit,
      rdsBitBody_bitWord]
    rfl
  · rw [exec_rdsChip, rdsChipBody_singleton, manchester_invalid _ s hpend heq]
    rfl

/-! ## Words in order (R375, R427) -/

/-- The effect `f` reads nothing but the RDS bit path and CTRL, and writes nothing but the bit path. -/
def OnBitPath (f : State → State) : Prop := ∀ s t, f (s.outside t) = (f s).outside t

/-- Outside the bit path such an effect leaves the state before. -/
theorem OnBitPath.eq_outside {f : State → State} (hf : OnBitPath f) (s : State) :
    f s = (f s).outside s := hf s s

/-- Such an effect does not depend on `cp`. -/
theorem OnBitPath.advance {f : State → State} (hf : OnBitPath f) (s : State) (n : Nat) :
    f (s.advance n) = (f s).advance n :=
  calc f (s.advance n) = (f s).outside (s.advance n) := hf s (s.advance n)
    _ = ((f s).outside s).advance n := rfl
    _ = (f s).advance n := by rw [← hf.eq_outside s]

/-- Such an effect leaves `cp` alone. -/
theorem OnBitPath.cp {f : State → State} (hf : OnBitPath f) (s : State) : (f s).cp = s.cp := by
  rw [hf.eq_outside s]
  rfl

/-- `cmd` takes a list of words whose effect, one word after another, is `body`. -/
structure TakesInOrder (cmd : List Word → Instr) (body : List Word → State → State) : Prop where
  exec_eq : ∀ ws s, exec (cmd ws) s = .next ((body ws s).advance (1 + ws.length))
  body_nil : ∀ s, body [] s = s
  body_append : ∀ ws vs s, body (ws ++ vs) s = body vs (body ws s)
  onBitPath : ∀ ws, OnBitPath (body ws)

theorem rdsChip_takesInOrder : TakesInOrder (.rdsChip 0) rdsChipBody where
  exec_eq := exec_rdsChip
  body_nil _ := rfl
  body_append _ _ _ := List.foldl_append
  onBitPath := rdsChipBody_outside

theorem rdsBit_takesInOrder : TakesInOrder (.rdsBit 0) rdsBitBody where
  exec_eq := exec_rdsBit
  body_nil _ := rfl
  body_append _ _ _ := List.foldl_append
  onBitPath := rdsBitBody_outside

/-- A command with one more word is the shorter command and then a command of that word, but for the
second command word. -/
theorem TakesInOrder.snoc {cmd : List Word → Instr} {body : List Word → State → State}
    (h : TakesInOrder cmd body) (s : State) (ws : List Word) :
    ∃ t, exec (cmd ws) s = .next t ∧ (ws = [] → t = { s with cp := s.cp + 1 }) ∧
      ∀ w, ∃ u, exec (cmd [w]) t = .next u ∧
        exec (cmd (ws ++ [w])) s = .next { u with cp := s.cp + 2 + ws.length } := by
  refine ⟨_, h.exec_eq ws s, ?_, fun w => ⟨_, h.exec_eq [w] _, ?_⟩⟩
  · rintro rfl
    rw [h.body_nil]
    rfl
  · have hcp : (body [w] (body ws s)).cp = s.cp :=
      ((h.onBitPath [w]).cp _).trans ((h.onBitPath ws).cp s)
    have hlen : s.cp + (1 + (ws ++ [w]).length) = s.cp + 2 + ws.length := by
      rw [List.length_append, List.length_singleton]
      omega
    rw [h.exec_eq, h.body_append, (h.onBitPath [w]).advance, State.advance, hcp, hlen]
    rfl

/-- Settles O42: both commands take their words in order. -/
theorem chipsAndBitsAreTakenInOrder : Obligations.ChipsAndBitsAreTakenInOrder := fun s ws =>
  ⟨rdsChip_takesInOrder.snoc s ws, rdsBit_takesInOrder.snoc s ws⟩

/-! ## Bits do not see PREV_BIT (R424 to R426, R470) -/

/-- The state with PREV_BIT set. -/
def State.withPrevBit (s : State) (p : Bool) : State := { s with prevBit := p }

theorem storeSegment_withPrevBit (seg : Nat) (d : BitVec 16) (s : State) (p : Bool) :
    (s.withPrevBit p).storeSegment seg d = (s.storeSegment seg d).withPrevBit p := by
  unfold State.storeSegment State.setPsChar
  split <;> split <;> rfl

theorem groupDispatch_withPrevBit (a b c d : BitVec 16) (s : State) (p : Bool) :
    groupDispatch a b c d (s.withPrevBit p) = (groupDispatch a b c d s).withPrevBit p := by
  by_cases h : b.extractLsb' 12 4 = 0
  · rw [groupDispatch_zero a b c d _ _ h rfl, groupDispatch_zero a b c d s _ h rfl]
    set t := { s with groupCount := s.groupCount + 1 }.storeSegment (b.extractLsb' 0 2).toNat d
    have hstore : { s.withPrevBit p with groupCount := s.groupCount + 1 }.storeSegment
        (b.extractLsb' 0 2).toNat d = t.withPrevBit p :=
      storeSegment_withPrevBit _ d { s with groupCount := s.groupCount + 1 } p
    refine (congrArg (fun u : State => if u.publishes then u.publish else u) hstore).trans ?_
    show (if t.publishes then _ else _) = _
    cases t.publishes <;> rfl
  · rw [groupDispatch_other a b c d _ h, groupDispatch_other a b c d _ h]
    rfl

theorem storeBlock_withPrevBit (slot : BitVec 2) (v : BitVec 16) (s : State) (p : Bool) :
    (s.withPrevBit p).storeBlock slot v = (s.storeBlock slot v).withPrevBit p := by
  unfold State.storeBlock
  split
  · rfl
  · split
    · rfl
    · split <;> rfl

theorem nextSlot_withPrevBit (s : State) (p : Bool) :
    (s.withPrevBit p).nextSlot = s.nextSlot.withPrevBit p := by
  unfold State.nextSlot
  show (if s.slot = 3 then _ else _) = State.withPrevBit (if s.slot = 3 then _ else _) p
  split
  · exact groupDispatch_withPrevBit _ _ _ _ { s with bitcnt := 0, slot := 0 } p
  · rfl

theorem syncStep_withPrevBit (s : State) (p : Bool) :
    syncStep (s.withPrevBit p) = (syncStep s).withPrevBit p := by
  unfold syncStep
  show (if (s.bitcnt + 1 == 26) then _ else _)
    = State.withPrevBit (if (s.bitcnt + 1 == 26) then _ else _) p
  split
  · exact (congrArg State.nextSlot (storeBlock_withPrevBit s.slot (windowData s.shift)
      { s with bitcnt := s.bitcnt + 1 } p)).trans (nextSlot_withPrevBit _ p)
  · rfl

theorem huntStep_withPrevBit (s : State) (p : Bool) :
    huntStep (s.withPrevBit p) = (huntStep s).withPrevBit p := by
  have hcount : (s.withPrevBit p).countBit = s.countBit.withPrevBit p := by
    unfold State.countBit
    show (if s.bitcnt.toNat < 26 then _ else _)
      = State.withPrevBit (if s.bitcnt.toNat < 26 then _ else _) p
    split <;> rfl
  unfold huntStep
  rw [hcount]
  show (if s.countBit.locks then _ else _) = _
  cases s.countBit.locks <;> rfl

/-- R424: a bit neither reads nor writes PREV_BIT. -/
theorem blockStep_withPrevBit (d : Bool) (s : State) (p : Bool) :
    blockStep d (s.withPrevBit p) = (blockStep d s).withPrevBit p := by
  unfold blockStep
  show (if s.haveSync then _ else _) = State.withPrevBit (if s.haveSync then _ else _) p
  split
  · exact syncStep_withPrevBit { s with shift := (s.shift.extractLsb' 0 25).concat d } p
  · exact huntStep_withPrevBit { s with shift := (s.shift.extractLsb' 0 25).concat d } p

theorem rdsBitBody_withPrevBit (ws : List Word) (s : State) (p : Bool) :
    rdsBitBody ws (s.withPrevBit p) = (rdsBitBody ws s).withPrevBit p := by
  induction ws generalizing s with
  | nil => rfl
  | cons w ws ih => exact (congrArg (rdsBitBody ws) (blockStep_withPrevBit _ s p)).trans (ih _)

/-! ## Differentially encoded chip pairs (R380) -/

/-- R374 to R378: from no chip held, the chip pair of a raw bit completes one valid pair. -/
theorem chipsEffect_chipPair (raw : Bool) (s : State) (hpend : s.chipPend = false)
    (hchip : s.chip0 = false) :
    chipsEffect (chipPair raw) s = blockStep (raw != s.prevBit) (s.withPrevBit raw) := by
  have hpair : chipPair raw = [!raw, raw] := by cases raw <;> rfl
  have hempty : { s with chipPend := false, chip0 := false } = s := by
    cases s; cases hpend; cases hchip; rfl
  rw [hpair, chipsEffect_cons, chipsEffect_cons, manchester_first _ s hpend,
    manchester_valid raw _ rfl (Bool.not_ne_self raw)]
  exact congrArg (fun t : State => blockStep (raw != s.prevBit) (t.withPrevBit raw)) hempty

theorem diffEncode_length (p : Bool) (ds : List Bool) : (diffEncode p ds).length = ds.length := by
  induction ds generalizing p with
  | nil => rfl
  | cons d ds ih => exact congrArg Nat.succ (ih _)

theorem length_flatMap_chipPair (raws : List Bool) :
    (raws.flatMap chipPair).length = 2 * raws.length := by
  induction raws with
  | nil => rfl
  | cons raw raws ih =>
    have hpair : (chipPair raw).length = 2 := by cases raw <;> rfl
    rw [List.flatMap_cons, List.length_append, hpair, ih, List.length_cons]
    omega

/-- R380: the chips of differentially encoded bits have the effect of the bits, and leave the last raw
bit in PREV_BIT. -/
theorem chipsEffect_diffEncode (ds : List Bool) (s : State) (hpend : s.chipPend = false)
    (hchip : s.chip0 = false) :
    chipsEffect ((diffEncode s.prevBit ds).flatMap chipPair) s
      = (rdsBitBody (ds.map bitWord) s).withPrevBit
          ((diffEncode s.prevBit ds).getLastD s.prevBit) := by
  induction ds generalizing s with
  | nil => rfl
  | cons d ds ih =>
    set raw := d != s.prevBit with hraw
    set t := (blockStep d s).withPrevBit raw
    have hfirst : chipsEffect (chipPair raw) s = t := by
      rw [chipsEffect_chipPair raw s hpend hchip, hraw, Bool.bne_assoc, bne_self_eq_false,
        Bool.bne_false, blockStep_withPrevBit]
    have hframe := blockStep_frame d s
    have hpend' : t.chipPend = false := (congrArg State.chipPend hframe :).trans hpend
    have hchip' : t.chip0 = false := (congrArg State.chip0 hframe :).trans hchip
    calc chipsEffect ((diffEncode s.prevBit (d :: ds)).flatMap chipPair) s
        = chipsEffect ((diffEncode raw ds).flatMap chipPair) t := by
          rw [diffEncode, List.flatMap_cons, chipsEffect_append, hfirst]
      _ = (rdsBitBody (ds.map bitWord) t).withPrevBit ((diffEncode raw ds).getLastD raw) :=
          ih t hpend' hchip'
      _ = (rdsBitBody (ds.map bitWord) (blockStep d s)).withPrevBit
            ((diffEncode raw ds).getLastD raw) := by
          rw [rdsBitBody_withPrevBit]
          rfl
      _ = (rdsBitBody ((d :: ds).map bitWord) s).withPrevBit
            ((diffEncode s.prevBit (d :: ds)).getLastD s.prevBit) := by
          rw [diffEncode, List.getLastD_cons, ← rdsBitBody_bitWord d s]
          rfl

/-- Settles O43: the chip pairs have the effect of the bits, and are two words for each bit. -/
theorem manchesterRoundTrip : Obligations.ManchesterRoundTrip := by
  intro s ds hpend hchip
  refine ⟨_, exec_rdsBit _ s, ?_⟩
  have hbody : rdsChipBody (((diffEncode s.prevBit ds).flatMap chipPair).map bitWord) s = _ :=
    chipsEffect_diffEncode ds s hpend hchip
  have hcp : (rdsBitBody (ds.map bitWord) s).cp = s.cp := (rdsBit_takesInOrder.onBitPath _).cp s
  rw [exec_rdsChip, hbody, List.length_map, length_flatMap_chipPair, diffEncode_length,
    State.advance, State.withPrevBit, hcp, Nat.add_assoc]
  rfl

end Sys2Proof.Machine
end

section
/-! PROOFS. The syndrome of a window (45_rds_sync.md R420 to R423, R430): its class, its linearity over
xor, on which single flipped bits and offset words rest, and `crc10` as a division of polynomials over
GF(2), one bit of the datum at a time. -/

namespace Sys2Proof.Machine

open Sys2Proof

/-! ## The class of a syndrome (R422, R423) -/

theorem classify_spec (syn : BitVec 10) :
    (syn, classify syn) ∈ offsetClasses ∨
      (classify syn = 0 ∧ ∀ c, (syn, c) ∉ offsetClasses) := by
  unfold classify
  split_ifs with hA hB hC hC' hD
  · subst hA; exact .inl (by decide)
  · subst hB; exact .inl (by decide)
  · subst hC; exact .inl (by decide)
  · subst hC'; exact .inl (by decide)
  · subst hD; exact .inl (by decide)
  · refine .inr ⟨rfl, fun c hmem => ?_⟩
    simp only [offsetClasses, List.mem_cons, Prod.mk.injEq, List.not_mem_nil, or_false] at hmem
    obtain ⟨h, -⟩ | ⟨h, -⟩ | ⟨h, -⟩ | ⟨h, -⟩ | ⟨h, -⟩ := hmem
    exacts [hA h, hB h, hC h, hC' h, hD h]

theorem crcWord_eq_ofNat (cls : BitVec 3) (syn : BitVec 10) :
    crcWord cls syn = BitVec.ofNat 32 (cls.toNat * 2 ^ 16 + syn.toNat) := by
  have hsyn : syn.toNat < 2 ^ 16 := syn.isLt.trans (by decide)
  have hword : (cls ++ (0#6 ++ syn)).toNat = cls.toNat * 2 ^ 16 + syn.toNat := by
    rw [BitVec.toNat_append, BitVec.toNat_append, BitVec.toNat_ofNat, Nat.zero_mod, Nat.zero_shiftLeft,
      Nat.zero_or, ← Nat.shiftLeft_add_eq_or_of_lt hsyn, Nat.shiftLeft_eq]
  rw [crcWord, ← hword, BitVec.ofNat_toNat]

/-- Settles O44: `classify` finds the offset word by its definition, and the fields of the response do
not overlap. -/
theorem crcSynEmitsSyndromeAndClass : Obligations.CrcSynEmitsSyndromeAndClass := by
  intro s w
  refine ⟨classify (syndrome (w.extractLsb' 0 26)), ?_, classify_spec _⟩
  rw [← crcWord_eq_ofNat]
  rfl

/-! ## Linearity (R421) -/

/-- R421: a step of the division shifts, and subtracts `crcPoly` where a bit falls out. -/
theorem crcStep_eq (r : BitVec 10) (b : Bool) :
    crcStep r b = r <<< 1 ^^^ (if r.getLsbD 9 ^^ b then crcPoly else 0) := by
  unfold crcStep
  cases r.getLsbD 9 <;> cases b <;> simp

theorem crcStep_xor (r r' : BitVec 10) (b b' : Bool) :
    crcStep (r ^^^ r') (b ^^ b') = crcStep r b ^^^ crcStep r' b' := by
  have hgen : ∀ x y : Bool, (if x ^^ y then crcPoly else 0)
      = (if x then crcPoly else 0) ^^^ (if y then crcPoly else 0) := by decide
  have hbits : ((r ^^^ r').getLsbD 9 ^^ (b ^^ b'))
      = ((r.getLsbD 9 ^^ b) ^^ (r'.getLsbD 9 ^^ b')) := by
    rw [BitVec.getLsbD_xor, Bool.xor_assoc, Bool.xor_assoc, Bool.xor_left_comm b]
  rw [crcStep_eq, crcStep_eq, crcStep_eq, hbits, hgen, BitVec.shiftLeft_xor_distrib]
  ac_rfl

theorem foldl_crcStep_xor {f g : Nat → Bool} (ks : List Nat) (r r' : BitVec 10) :
    ks.foldl (fun r k => crcStep r (f k ^^ g k)) (r ^^^ r')
      = ks.foldl (fun r k => crcStep r (f k)) r ^^^ ks.foldl (fun r k => crcStep r (g k)) r' := by
  induction ks generalizing r r' with
  | nil => rfl
  | cons k ks ih => rw [List.foldl_cons, List.foldl_cons, List.foldl_cons, crcStep_xor, ih]

theorem crc10_xor (a b : BitVec 16) : crc10 (a ^^^ b) = crc10 a ^^^ crc10 b := by
  simp only [crc10, BitVec.getLsbD_xor]
  exact foldl_crcStep_xor (List.range 16) 0 0

theorem crc10_zero : crc10 0 = 0 := by
  have h : crc10 (0 ^^^ 0) = 0 := (crc10_xor 0 0).trans BitVec.xor_self
  rwa [BitVec.xor_self] at h

theorem syndrome_xor (v w : BitVec 26) : syndrome (v ^^^ w) = syndrome v ^^^ syndrome w := by
  unfold syndrome windowData windowCheck
  rw [BitVec.extractLsb'_xor, BitVec.extractLsb'_xor, crc10_xor]
  ac_rfl

/-! ## Offset words and single flipped bits (R430) -/

/-- R430: a datum with its check xor an offset word has that syndrome. -/
theorem syndrome_append (d : BitVec 16) (o : BitVec 10) :
    syndrome (d ++ (crc10 d ^^^ o)) = o := by
  have hdata : windowData (d ++ (crc10 d ^^^ o)) = d := BitVec.extractLsb'_append_eq_left
  have hcheck : windowCheck (d ++ (crc10 d ^^^ o)) = crc10 d ^^^ o :=
    BitVec.extractLsb'_append_eq_right
  rw [syndrome, hdata, hcheck, BitVec.xor_comm, ← BitVec.xor_assoc, BitVec.xor_self, BitVec.zero_xor]

theorem flipSyndromes_eq :
    flipSyndromes = (List.range 26).map fun p => syndrome (1#26 <<< p) := by decide +kernel

theorem flipSyndromes_nodup : flipSyndromes.Nodup := by decide

theorem ne_zero_of_mem_flipSyndromes : ∀ e ∈ flipSyndromes, e ≠ 0 := by decide

theorem syndrome_of_flipSyndromes {p : Nat} {e : BitVec 10} (h : flipSyndromes[p]? = some e) :
    syndrome (1#26 <<< p) = e := by
  rw [flipSyndromes_eq, List.getElem?_map, Option.map_eq_some_iff] at h
  obtain ⟨k, hk, rfl⟩ := h
  obtain ⟨hp, rfl⟩ := List.getElem?_eq_some_iff.mp hk
  rw [List.getElem_range]

/-- R430: of the xors of two offset words only that of C and D is the syndrome of a single bit. -/
theorem offset_xor_mem_flipSyndromes : ∀ x ∈ offsetClasses, ∀ y ∈ offsetClasses,
    x.1 ^^^ y.1 ∈ flipSyndromes →
      (x.1 = offsetC ∧ y.1 = offsetD) ∨ (x.1 = offsetD ∧ y.1 = offsetC) := by
  simp [offsetClasses, flipSyndromes, offsetC, offsetD]

theorem flipSyndromes_offsetC_xor_offsetD : flipSyndromes[18]? = some (offsetC ^^^ offsetD) := rfl

/-- Settles O46: linearity reduces a flip to the window with that bit alone, and the table has each entry
once. -/
theorem offsetWordsAndSingleFlips : Obligations.OffsetWordsAndSingleFlips := by
  refine ⟨fun d o c _ => syndrome_append d o, fun w p e he => ⟨?_, ?_⟩,
    fun p e o o' c c' he ho ho' => ⟨fun hxor => ?_, ?_⟩⟩
  · rw [syndrome_xor, syndrome_of_flipSyndromes he]
  · exact ne_zero_of_mem_flipSyndromes e (List.mem_of_getElem? he)
  · subst hxor
    have hCD := offset_xor_mem_flipSyndromes _ ho _ ho' (List.mem_of_getElem? he)
    refine ⟨?_, hCD⟩
    have hentry : o ^^^ o' = offsetC ^^^ offsetD := by
      obtain ⟨h, h'⟩ | ⟨h, h'⟩ := hCD
      · exact congrArg₂ _ h h'
      · exact (congrArg₂ _ h h').trans (BitVec.xor_comm _ _)
    exact (List.getElem?_inj (List.getElem?_eq_some_iff.mp he).1 flipSyndromes_nodup).mp
      (he.trans (hentry ▸ flipSyndromes_offsetC_xor_offsetD.symm))
  · rintro ⟨rfl, ⟨rfl, rfl⟩ | ⟨rfl, rfl⟩⟩ <;> exact Option.some.inj he

/-! ## The division of polynomials over GF(2) (R421) -/

section

open Polynomial

/-- X^k where the bit is 1: one bit of a word as a coefficient. -/
noncomputable def bitTerm (b : Bool) (k : Nat) : (ZMod 2)[X] := if b then X ^ k else 0

/-- The polynomial whose coefficients are the first `n` bits of `f`. -/
noncomputable def bitsPoly (n : Nat) (f : Nat → Bool) : (ZMod 2)[X] :=
  ∑ k ∈ Finset.range n, bitTerm (f k) k

/-- R421: the generator g(x); `crcPoly` is its part below x^10. -/
noncomputable def crcGenerator : (ZMod 2)[X] := X ^ 10 + X ^ 8 + X ^ 7 + X ^ 5 + X ^ 4 + X ^ 3 + 1

theorem bitTerm_xor (a b : Bool) (k : Nat) : bitTerm (a ^^ b) k = bitTerm a k + bitTerm b k := by
  cases a <;> cases b <;> simp [bitTerm, CharTwo.add_self_eq_zero]

theorem X_mul_bitTerm (b : Bool) (k : Nat) : X * bitTerm b k = bitTerm b (k + 1) := by
  cases b
  · exact mul_zero X
  · exact (pow_succ' X k).symm

theorem bitTerm_mul_X_pow (b : Bool) (k : Nat) : bitTerm b 0 * X ^ k = bitTerm b k := by
  cases b
  · exact zero_mul _
  · exact one_mul _

theorem bitsPoly_xor {w : Nat} (n : Nat) (x y : BitVec w) :
    bitsPoly n (x ^^^ y).getLsbD = bitsPoly n x.getLsbD + bitsPoly n y.getLsbD := by
  simp only [bitsPoly, BitVec.getLsbD_xor, bitTerm_xor, Finset.sum_add_distrib]

theorem bitsPoly_last (n : Nat) (f : Nat → Bool) :
    bitsPoly (n + 1) f = bitsPoly n f + bitTerm (f n) n := Finset.sum_range_succ _ n

theorem bitsPoly_congr {n : Nat} {f g : Nat → Bool} (h : ∀ k < n, f k = g k) :
    bitsPoly n f = bitsPoly n g :=
  Finset.sum_congr rfl fun k hk => by rw [h k (Finset.mem_range.mp hk)]

/-- A new lowest bit moves the others up by one. -/
theorem bitsPoly_first (n : Nat) (f : Nat → Bool) :
    bitsPoly (n + 1) f = X * bitsPoly n (fun k => f (k + 1)) + bitTerm (f 0) 0 := by
  simp only [bitsPoly, Finset.sum_range_succ', Finset.mul_sum, X_mul_bitTerm]

theorem bitsPoly_crcPoly : bitsPoly 10 crcPoly.getLsbD + X ^ 10 = crcGenerator := by
  have hbits : bitsPoly 10 crcPoly.getLsbD = 1 + X ^ 3 + X ^ 4 + X ^ 5 + X ^ 7 + X ^ 8 := by
    simp [bitsPoly, bitTerm, Finset.sum_range_succ, crcPoly]
  rw [hbits, crcGenerator]
  ring

/-- A shift multiplies by X and drops what then is the coefficient of X^10. -/
theorem X_mul_bitsPoly (r : BitVec 10) :
    X * bitsPoly 10 r.getLsbD = bitsPoly 10 (r <<< 1).getLsbD + bitTerm (r.getLsbD 9) 10 := by
  have hlow : bitsPoly 10 (r <<< 1).getLsbD = X * bitsPoly 9 r.getLsbD := by
    have hnext : ∀ k < 9, (r <<< 1).getLsbD (k + 1) = r.getLsbD k := fun k hk => by
      rw [BitVec.getLsbD_shiftLeft, decide_eq_true (by omega), decide_eq_false (by omega)]
      rfl
    have hzero : (r <<< 1).getLsbD 0 = false := by simp
    rw [bitsPoly_first, bitsPoly_congr hnext, hzero]
    exact add_zero _
  rw [hlow, bitsPoly_last, mul_add, X_mul_bitTerm]

/-- R421: a step takes the register times X, plus the next bit, to its remainder. -/
theorem bitsPoly_crcStep (r : BitVec 10) (b : Bool) :
    X * bitsPoly 10 r.getLsbD + bitTerm b 10
      = bitTerm (r.getLsbD 9 ^^ b) 0 * crcGenerator + bitsPoly 10 (crcStep r b).getLsbD := by
  have hstep : bitsPoly 10 (crcStep r b).getLsbD = bitsPoly 10 (r <<< 1).getLsbD
      + bitTerm (r.getLsbD 9 ^^ b) 0 * bitsPoly 10 crcPoly.getLsbD := by
    rw [crcStep_eq, bitsPoly_xor]
    cases r.getLsbD 9 ^^ b <;> simp [bitsPoly, bitTerm]
  have hcancel := CharTwo.add_self_eq_zero
    (bitTerm (r.getLsbD 9 ^^ b) 0 * bitsPoly 10 crcPoly.getLsbD)
  rw [X_mul_bitsPoly, hstep, ← bitsPoly_crcPoly, mul_add, bitTerm_mul_X_pow,
    bitTerm_xor _ _ 10]
  linear_combination -hcancel

/-- R421: after the first `n` bits of a datum the register holds the remainder of those bits. -/
theorem foldl_crcStep_remainder (d : BitVec 16) (n : Nat) (hn : n ≤ 16) :
    ∃ q, bitsPoly n (fun k => d.getLsbD (16 - n + k)) * X ^ 10
      = q * crcGenerator + bitsPoly 10
          ((List.range n).foldl (fun r k => crcStep r (d.getLsbD (15 - k))) 0).getLsbD := by
  induction n with
  | zero => exact ⟨0, by simp [bitsPoly, bitTerm]⟩
  | succ n ih =>
    obtain ⟨q, hq⟩ := ih (Nat.le_of_succ_le hn)
    rw [List.range_succ, List.foldl_append]
    set r := (List.range n).foldl (fun r k => crcStep r (d.getLsbD (15 - k))) 0
    set b := d.getLsbD (15 - n)
    have hbits : bitsPoly (n + 1) (fun k => d.getLsbD (16 - (n + 1) + k))
        = X * bitsPoly n (fun k => d.getLsbD (16 - n + k)) + bitTerm b 0 := by
      have hnext : ∀ k < n, d.getLsbD (16 - (n + 1) + (k + 1)) = d.getLsbD (16 - n + k) :=
        fun k _ => congrArg d.getLsbD (by omega)
      have hlast : 16 - (n + 1) + 0 = 15 - n := by omega
      rw [bitsPoly_first, bitsPoly_congr hnext, hlast]
    refine ⟨X * q + bitTerm (r.getLsbD 9 ^^ b) 0, ?_⟩
    calc bitsPoly (n + 1) (fun k => d.getLsbD (16 - (n + 1) + k)) * X ^ 10
        = X * (bitsPoly n (fun k => d.getLsbD (16 - n + k)) * X ^ 10) + bitTerm b 10 := by
          rw [hbits, add_mul, bitTerm_mul_X_pow, mul_assoc]
      _ = X * q * crcGenerator + (X * bitsPoly 10 r.getLsbD + bitTerm b 10) := by rw [hq]; ring
      _ = (X * q + bitTerm (r.getLsbD 9 ^^ b) 0) * crcGenerator
            + bitsPoly 10 (crcStep r b).getLsbD := by rw [bitsPoly_crcStep]; ring

/-- Settles O45: all 16 bits of the datum are divided. -/
theorem crcIsThePolynomialRemainder : Obligations.CrcIsThePolynomialRemainder := by
  refine ⟨fun d => ?_, fun _ => rfl, crc10_xor, crc10_zero, syndrome_xor⟩
  obtain ⟨q, hq⟩ := foldl_crcStep_remainder d 16 (Nat.le_refl 16)
  simp only [Nat.sub_self, Nat.zero_add] at hq
  exact ⟨q, hq⟩

end

end Sys2Proof.Machine
end

section
/-! PROOFS. The synchronizer (45_rds_sync.md R424 to R429): what one bit does while hunting and while
synchronized, and that only a lost chip pair or a reset ends a synchronization. The last rests on one
relation, `SyncTo`, between the states before and after every command's effect. -/

namespace Sys2Proof.Machine

open Sys2Proof

/-! ## One bit (R424, R427) -/

/-- R424: the window after a bit, as a number. -/
theorem concat_eq_ofNat (v : BitVec 26) (w : Word) :
    (v.extractLsb' 0 25).concat (operandBit w) = BitVec.ofNat 26 (2 * v.toNat + w.toNat % 2) := by
  have hbit : (operandBit w).toNat = w.toNat % 2 := by
    rw [operandBit, BitVec.getLsbD, Nat.toNat_testBit, pow_zero, Nat.div_one]
  apply BitVec.eq_of_toNat_eq
  rw [BitVec.toNat_concat, BitVec.extractLsb'_toNat, BitVec.toNat_ofNat, hbit, Nat.shiftRight_zero]
  omega

theorem exec_rdsBit_singleton (w : Word) (s : State) :
    exec (.rdsBit 0 [w]) s = .next ((blockStep (operandBit w) s).advance 2) := rfl

section

variable {s : State} {w : Word} {win : BitVec 26}

theorem blockStep_hunting (hs : s.haveSync = false)
    (hwin : win = BitVec.ofNat 26 (2 * s.shift.toNat + w.toNat % 2)) :
    blockStep (operandBit w) s = huntStep { s with shift := win } := by
  rw [blockStep, concat_eq_ofNat, ← hwin]
  exact if_neg (by rw [hs]; exact Bool.false_ne_true)

theorem blockStep_synced (hs : s.haveSync = true)
    (hwin : win = BitVec.ofNat 26 (2 * s.shift.toNat + w.toNat % 2)) :
    blockStep (operandBit w) s = syncStep { s with shift := win } := by
  rw [blockStep, concat_eq_ofNat, ← hwin]
  exact if_pos hs

end

/-! ## Hunting (R425) -/

/-- R425: the count saturates at 26. -/
theorem countBit_eq {s : State} (h : s.bitcnt.toNat ≤ 26) :
    s.countBit = { s with bitcnt := BitVec.ofNat 5 (min 26 (s.bitcnt.toNat + 1)) } := by
  unfold State.countBit
  split
  · next hlt =>
    have hsucc : s.bitcnt + 1 = BitVec.ofNat 5 (min 26 (s.bitcnt.toNat + 1)) := by
      rw [min_eq_right hlt, ← bitcnt_succ hlt, BitVec.ofNat_toNat, BitVec.setWidth_eq]
    rw [hsucc]
  · next hge =>
    have hfull : s.bitcnt = BitVec.ofNat 5 (min 26 (s.bitcnt.toNat + 1)) := by
      rw [min_eq_left (by omega), ← le_antisymm h (not_lt.mp hge), BitVec.ofNat_toNat,
        BitVec.setWidth_eq]
    rw [← hfull]

/-- R425: a full window with the syndrome of block A locks, after the bit is counted. -/
theorem huntStep_eq {s : State} {n : Nat} (h : s.bitcnt.toNat ≤ 26)
    (hn : n = min 26 (s.bitcnt.toNat + 1)) :
    huntStep s = if n = 26 ∧ syndrome s.shift = offsetA
      then { s with bitcnt := BitVec.ofNat 5 n }.lock else { s with bitcnt := BitVec.ofNat 5 n } := by
  have hfull : BitVec.ofNat 5 n = 26 ↔ n = 26 := by
    rw [← BitVec.toNat_inj, BitVec.toNat_ofNat, Nat.mod_eq_of_lt (by omega)]
    rfl
  have hlocks : { s with bitcnt := BitVec.ofNat 5 n }.locks = true
      ↔ n = 26 ∧ syndrome s.shift = offsetA := by
    rw [State.locks, Bool.and_eq_true, beq_iff_eq, beq_iff_eq, hfull]
  rw [huntStep, countBit_eq h, ← hn]
  simp only [hlocks]

/-- Settles O47: `huntStep` on the shifted window. -/
theorem huntingBit : Obligations.HuntingBit := by
  intro s w win n hs hcnt hwin hn
  rw [exec_rdsBit_singleton, blockStep_hunting hs hwin,
    huntStep_eq (s := { s with shift := win }) hcnt hn]
  show Host.Outcome.next ((if n = 26 ∧ syndrome win = 0x0FC#10 then _ else _ : State).advance 2) = _
  split <;> rfl

/-! ## Synchronized (R426) -/

/-- R426: below the 26th bit a bit is only counted. -/
theorem syncStep_of_lt {s : State} (h : s.bitcnt.toNat < 25) :
    syncStep s = { s with bitcnt := s.bitcnt + 1 } := by
  have hne : s.bitcnt + 1 ≠ 26 := fun h26 => by
    have hsucc := bitcnt_succ (h.trans (by decide))
    rw [h26, show (26 : BitVec 5).toNat = 26 from rfl] at hsucc
    omega
  exact if_neg (by rwa [beq_iff_eq])

/-- R426: the 26th bit completes a block. -/
theorem syncStep_last {s : State} (h : s.bitcnt.toNat = 25) :
    syncStep s = { s with bitcnt := 26 }.completeBlock := by
  have h26 : s.bitcnt + 1 = 26 := by
    rw [show s.bitcnt = 25 from BitVec.eq_of_toNat_eq h]
    rfl
  simp only [syncStep, h26]
  rfl

section

variable {s : State} (h : s.bitcnt.toNat = 25)

include h

theorem syncStep_slotA (hslot : s.slot = 0) : syncStep s
    = { s with bitcnt := 0, slot := 1, group0 := windowData s.shift } := by
  rw [syncStep_last h]
  cases s; cases hslot; rfl

theorem syncStep_slotB (hslot : s.slot = 1) : syncStep s
    = { s with bitcnt := 0, slot := 2, group1 := windowData s.shift } := by
  rw [syncStep_last h]
  cases s; cases hslot; rfl

theorem syncStep_slotC (hslot : s.slot = 2) : syncStep s
    = { s with bitcnt := 0, slot := 3, group2 := windowData s.shift } := by
  rw [syncStep_last h]
  cases s; cases hslot; rfl

/-- R426: after slot D the group is dispatched. -/
theorem syncStep_slotD (hslot : s.slot = 3) : syncStep s
    = groupDispatch s.group0 s.group1 s.group2 (windowData s.shift)
        { s with bitcnt := 0, slot := 0, group3 := windowData s.shift } := by
  rw [syncStep_last h]
  cases s; cases hslot; rfl

end

theorem operandDatum_setWidth (v : BitVec 16) : operandDatum (v.setWidth 32) = v :=
  BitVec.eq_of_getLsbD_eq fun k hk => by
    rw [operandDatum, BitVec.getLsbD_extractLsb', BitVec.getLsbD_setWidth, Nat.zero_add,
      decide_eq_true hk, decide_eq_true (by omega), Bool.true_and, Bool.true_and]

theorem exec_rdsGroup (a b c d : Word) (s : State) :
    exec (.rdsGroup 0 0 a b c d) s = .next ((groupDispatch (operandDatum a) (operandDatum b)
      (operandDatum c) (operandDatum d) s).advance 5) := rfl

/-- Settles O48: `syncStep` on the shifted window, by the count and the slot. -/
theorem syncedBit : Obligations.SyncedBit := by
  rintro s w win v hs - hwin rfl
  have hexec : ∀ {t}, syncStep { s with shift := win } = t →
      exec (.rdsBit 0 [w]) s = .next (t.advance 2) := by
    rintro _ rfl
    rw [exec_rdsBit_singleton, blockStep_synced hs hwin]
  refine ⟨fun h => hexec (syncStep_of_lt h), fun h hslot => hexec (syncStep_slotA h hslot),
    fun h hslot => hexec (syncStep_slotB h hslot), fun h hslot => hexec (syncStep_slotC h hslot),
    fun h hslot => ⟨_, exec_rdsGroup _ _ _ _ _, ?_⟩⟩
  have hframe := groupDispatch_frame s.group0 s.group1 s.group2 (windowData win)
    { s with shift := win, bitcnt := 0, slot := 0, group3 := windowData win }
  have hcp := (congrArg State.cp hframe :)
  refine (hexec (syncStep_slotD h hslot)).trans ?_
  simp only [operandDatum_setWidth]
  exact congrArg (fun n => Host.Outcome.next { groupDispatch _ _ _ _ _ with cp := n + 2 }) hcp

/-! ## Synchronization ends (R428, R44) -/

/-- R44: what STATUS shows of the synchronizer. -/
def State.sync (s : State) : Bool × BitVec 2 := (s.haveSync, s.slot)

/-- In `t` the synchronizer is locked, is as it was in `s` or, where it may, has lost synchronization. -/
def SyncTo (mayLose : Prop) (s t : State) : Prop :=
  t.haveSync = true ∨ t.sync = s.sync ∨ (mayLose ∧ t.sync = (false, 0))

section

variable {mayLose : Prop}

theorem SyncTo.of_eq {s t : State} (h : t.sync = s.sync) : SyncTo mayLose s t := .inr (.inl h)

theorem SyncTo.refl (s : State) : SyncTo mayLose s s := .of_eq rfl

theorem SyncTo.lost {s t : State} (hl : mayLose) (h : t.sync = (false, 0)) : SyncTo mayLose s t :=
  .inr (.inr ⟨hl, h⟩)

theorem SyncTo.trans {s t u : State} (a : SyncTo mayLose s t) (b : SyncTo mayLose t u) :
    SyncTo mayLose s u := by
  obtain hlock | hsame | hlost := b
  · exact .inl hlock
  · obtain ha | ha | ⟨hl, ha⟩ := a
    · exact .inl ((congrArg Prod.fst hsame).trans ha)
    · exact .of_eq (hsame.trans ha)
    · exact .lost hl (hsame.trans ha)
  · exact .inr (.inr hlost)

/-! ### Bits and chips -/

theorem nextSlot_haveSync (s : State) : s.nextSlot.haveSync = s.haveSync := by
  unfold State.nextSlot
  dsimp only
  split
  · exact (congrArg State.haveSync (groupDispatch_frame _ _ _ _ _) :)
  · rfl

theorem syncStep_haveSync (s : State) : (syncStep s).haveSync = s.haveSync := by
  unfold syncStep
  dsimp only
  split
  · exact (nextSlot_haveSync _).trans (storeBlock_haveSync _ _ _)
  · rfl

theorem huntStep_syncTo (s : State) : SyncTo mayLose s (huntStep s) := by
  unfold huntStep
  split
  · exact .inl rfl
  · unfold State.countBit
    split <;> exact .of_eq rfl

/-- R425, R426: a bit may lock, and never ends a synchronization. -/
theorem blockStep_syncTo (d : Bool) (s : State) : SyncTo mayLose s (blockStep d s) := by
  unfold blockStep
  dsimp only
  split
  · next hs => exact .inl ((syncStep_haveSync _).trans hs)
  · exact huntStep_syncTo { s with shift := _ }

theorem rdsBitBody_syncTo (ws : List Word) (s : State) : SyncTo mayLose s (rdsBitBody ws s) := by
  induction ws generalizing s with
  | nil => exact .refl s
  | cons w ws ih => exact (blockStep_syncTo _ s).trans (ih _)

/-- R379: an invalid pair ends a synchronization. -/
theorem manchester_syncTo (hl : mayLose) (c : Bool) (s : State) :
    SyncTo mayLose s (manchester c s) := by
  by_cases hp : s.chipPend = true
  · by_cases hc : s.chip0 = c
    · rw [manchester_invalid c s hp hc]
      exact .lost hl rfl
    · rw [manchester_valid c s hp hc]
      exact blockStep_syncTo _ { s with chipPend := false, chip0 := false, prevBit := c }
  · rw [manchester_first c s (Bool.eq_false_iff.mpr hp)]
    exact .of_eq rfl

theorem rdsChipBody_syncTo (hl : mayLose) (ws : List Word) (s : State) :
    SyncTo mayLose s (rdsChipBody ws s) := by
  induction ws generalizing s with
  | nil => exact .refl s
  | cons w ws ih => exact (manchester_syncTo hl _ s).trans (ih _)

end

/-! ### Computations -/

/-- A computation that takes the synchronizer nowhere else. -/
def Syncs (mayLose : Prop) {α : Type} (m : M α) : Prop := ∀ s, SyncTo mayLose s (m s).2

section

variable {mayLose : Prop} {α β : Type}

theorem Syncs.bind {m : M α} {f : α → M β} (hm : Syncs mayLose m) (hf : ∀ a, Syncs mayLose (f a)) :
    Syncs mayLose (m >>= f) := fun s => (hm s).trans (hf _ _)

theorem Syncs.forEach {f : α → M Unit} (hf : ∀ x, Syncs mayLose (f x)) (xs : List α) :
    Syncs mayLose (forEach f xs) :=
  forEach_keeps (SyncTo mayLose) .refl (fun _ _ _ => .trans) f hf xs

theorem Syncs.mapEach {f : α → M β} (hf : ∀ x, Syncs mayLose (f x)) (xs : List α) :
    Syncs mayLose (mapEach f xs) :=
  mapEach_keeps (SyncTo mayLose) .refl (fun _ _ _ => .trans) f hf xs

theorem Syncs.keepOutputs {stp : α → M (Option β)} (hstp : ∀ x, Syncs mayLose (stp x))
    (keep : Nat → Bool) (xs : List α) (m : Nat) : Syncs mayLose (keepOutputs stp keep xs m) :=
  keepOutputs_keeps (SyncTo mayLose) .refl (fun _ _ _ => .trans) stp keep hstp xs m

theorem syncs_pure (a : α) : Syncs mayLose (pure a) := .refl

theorem syncs_emitTwo (z : Cplx) : Syncs mayLose (modify fun s => (s.emit z.re).emit z.im) :=
  fun _ => .of_eq rfl

theorem syncs_firStepR (i : RealInst) (x : Word) : Syncs mayLose (firStepR i x) := fun s => by
  obtain ⟨r, n, h, -⟩ := firStepR_spec i x s
  rw [h]
  cases i <;> exact .of_eq rfl

theorem syncs_firStepC (x : Cplx) : Syncs mayLose (firStepC x) := fun s => by
  obtain ⟨r, n, h, -⟩ := firStepC_spec x s
  rw [h]
  exact .of_eq rfl

theorem syncs_audStep (x : Word) : Syncs mayLose (audStep x) := fun s => by
  obtain ⟨y, r, n, h, -⟩ := audStep_spec x s
  rw [h]
  exact .of_eq rfl

theorem syncs_fmdStep (x : Cplx) : Syncs mayLose (fmdStep x) := fun s => by
  obtain ⟨y, n, h, -⟩ := fmdStep_spec x s
  rw [h]
  exact .of_eq rfl

theorem syncs_iqConv (w : Word) : Syncs mayLose (iqConv w) := fun s => by
  obtain ⟨z, n, h⟩ := iqConv_frame w s
  rw [h]
  exact .of_eq rfl

theorem syncs_ncoNext : Syncs mayLose ncoNext := fun s => by
  obtain ⟨p, n, h, -⟩ := ncoNext_spec s
  rw [h]
  exact .of_eq rfl

theorem syncs_mixSample (x c : Cplx) : Syncs mayLose (mixSample x c) := fun s => by
  obtain ⟨y, n, h, -⟩ := mixSample_spec x c s
  rw [h]
  exact .of_eq rfl

/-- R372: a sample acts on the synchronizer by its chips alone. -/
theorem syncs_slice (hl : mayLose) (l : Word) : Syncs mayLose (slice l) := fun s => by
  obtain ⟨acc, chips, n, h, -⟩ := slice_run l s
  rw [h]
  exact rdsChipBody_syncTo hl (chips.map bitWord) s

/-- R370: so does a sample through the front end. -/
theorem syncs_rdsFront (hl : mayLose) (m : Word) : Syncs mayLose (rdsFront m) := fun s => by
  have h := rdsFront_step m s
  generalize (rdsFront m s).2 = t at h
  cases h with
  | held => exact .refl s
  | mixed _ _ _ _ _ chips => exact rdsChipBody_syncTo hl (chips.map bitWord) s

theorem syncs_rdsGated (hl : mayLose) (m : Word) : Syncs mayLose (rdsGated m) := fun s => by
  rw [rdsGated, bind_apply, get_apply]
  dsimp only
  split
  · exact syncs_rdsFront hl m s
  · exact .refl s

theorem syncs_chainStep (hl : mayLose) (w : Word) : Syncs mayLose (chainStep w) := by
  refine .bind (syncs_iqConv w) fun z => .bind (syncs_firStepC z) fun o => ?_
  cases o with
  | none => exact syncs_pure _
  | some c => exact .bind (syncs_fmdStep c) fun m => .bind (syncs_rdsGated hl m) fun _ => syncs_audStep m

end

/-! ### Commands -/

theorem firReset_sync (i : Inst) (s : State) : (s.firReset i).sync = s.sync := by
  rcases i with _ | (_ | _ | _) <;> rfl

theorem regReadBody_sync (addr : BitVec 16) (s : State) : (regReadBody addr s).sync = s.sync := by
  obtain h | ⟨r, -, h⟩ := regReadBody_cases addr s
  all_goals rw [h]; rfl

theorem regWriteBody_sync (addr : BitVec 16) (v : Word) (s : State) :
    (regWriteBody addr v s).sync = s.sync := by
  obtain h | ⟨r, -, h⟩ := regWriteBody_cases addr v s
  · rw [h]; rfl
  · rw [h]; exact (congrArg State.sync (memWrite_frame r v s) :)

/-- R511: of the units of RESET only that of mask bit 3 has the synchronizer. -/
theorem resetUnits_sync (mask : BitVec 8) (s : State) :
    (resetUnits mask s).sync = if mask.getLsbD 3 then (false, 0) else s.sync := by
  simp only [resetUnits, reset_unit0, reset_unit1, reset_unit2, reset_unit3, reset_unit4]
  cases mask.getLsbD 3 <;> rfl

/-- R428: what each command's effect does to the synchronizer. -/
theorem bodyOf_syncTo (i : Instr) (s : State) : SyncTo (canUnsync i = true) s (bodyOf i s) := by
  cases i with
  | nop => exact .refl s
  | reset sel =>
    have h := resetUnits_sync sel s
    cases hbit : sel.getLsbD 3 with
    | false => exact .of_eq (h.trans (by rw [hbit]; rfl))
    | true => exact .lost hbit (h.trans (by rw [hbit]; rfl))
  | regRead _ addr => exact .of_eq (regReadBody_sync addr s)
  | regWrite _ addr v => exact .of_eq (regWriteBody_sync addr v s)
  | firProcC _ cap xs =>
    exact Syncs.bind (.keepOutputs syncs_firStepC _ xs 0) (fun _ _ => .of_eq rfl) s
  | firProcR sel cap xs =>
    simp only [bodyOf]
    cases realOfSel sel with
    | none => exact .refl s
    | some i => exact Syncs.bind (.keepOutputs (syncs_firStepR i) _ xs 0) (fun _ _ => .of_eq rfl) s
  | firReset sel =>
    simp only [bodyOf]
    cases instOfSel sel with
    | none => exact .refl s
    | some i => exact .of_eq (firReset_sync i s)
  | ncoSet _ _ fs f =>
    obtain ⟨p, inc, n, -, -, hset⟩ := ncoSetBody_spec fs f s
    rw [bodyOf, hset]
    exact .of_eq rfl
  | ncoNext _ n => exact Syncs.forEach (fun _ => .bind syncs_ncoNext syncs_emitTwo) _ s
  | mix _ xs =>
    exact Syncs.forEach (fun x => .bind syncs_ncoNext fun c =>
      .bind (syncs_mixSample x c) syncs_emitTwo) xs s
  | convU8 _ ws => exact Syncs.forEach (fun w => .bind (syncs_iqConv w) syncs_emitTwo) ws s
  | fmdProc _ cap xs => exact Syncs.bind (.mapEach syncs_fmdStep _) (fun _ _ => .of_eq rfl) s
  | audProc _ cap xs =>
    exact Syncs.bind (.keepOutputs syncs_audStep _ xs 0) (fun _ _ => .of_eq rfl) s
  | rdsProc _ xs => exact Syncs.forEach (syncs_rdsFront rfl) xs s
  | rdsSlice _ xs => exact Syncs.forEach (syncs_slice rfl) xs s
  | rdsChip _ ws => exact rdsChipBody_syncTo rfl ws s
  | rdsBit _ ws => exact rdsBitBody_syncTo ws s
  | crcSyn => exact .of_eq rfl
  | rdsGroup _ _ a b c d =>
    exact .of_eq (congrArg State.sync (groupDispatch_frame (operandDatum a) (operandDatum b)
      (operandDatum c) (operandDatum d) s) :)
  | chainU8 _ ws =>
    exact Syncs.bind (.keepOutputs (syncs_chainStep rfl) _ ws 0) (fun _ _ => .of_eq rfl) s

theorem effectOf_syncTo (i : Instr) (s : State) : SyncTo (canUnsync i = true) s (effectOf i s) := by
  unfold effectOf
  split
  · exact bodyOf_syncTo i s
  · exact .of_eq rfl

/-- Settles O49: from a synchronized state to one that is not, synchronization was lost. -/
theorem syncEndsOnlyByChipsOrReset : Obligations.SyncEndsOnlyByChipsOrReset := by
  intro i s t h hs ht
  have hto : SyncTo (canUnsync i = true) s t := by
    rw [exec_next i s t h]
    exact effectOf_syncTo i s
  obtain hlock | hsame | ⟨hl, hlost⟩ := hto
  · exact absurd (ht.symm.trans hlock) Bool.false_ne_true
  · exact absurd (ht.symm.trans ((congrArg Prod.fst hsame).trans hs)) Bool.false_ne_true
  · exact ⟨hl, congrArg Prod.snd hlost⟩

end Sys2Proof.Machine
end

section
/-! PROOFS. The group parser (46_rds_group.md R470 to R477). One relation, `StoresSegment`, says what
a type-0 group does to the PS state; the effect of RDS_GROUP and the run of the name "RADIO   " are
both read off it. -/

namespace Sys2Proof.Machine

open Sys2Proof

/-! ## Operands -/

/-- The field of `n` bits at bit `lo` of a data word, as a number. -/
theorem operandDatum_field_toNat (w : Word) {lo n : Nat} (h : lo + n ≤ 16) :
    ((operandDatum w).extractLsb' lo n).toNat = w.toNat / 2 ^ lo % 2 ^ n := by
  rw [operandDatum, BitVec.extractLsb'_toNat, BitVec.extractLsb'_toNat, Nat.shiftRight_zero,
    Nat.shiftRight_eq_div_pow, show 16 = lo + (16 - lo) by omega, pow_add,
    Nat.mod_mul_right_div_self, Nat.mod_mod_of_dvd _ (pow_dvd_pow 2 (by omega))]

/-- R472: type 0 is read in bits 15:12 of block B. -/
theorem groupType_eq_zero_iff (b : Word) :
    (operandDatum b).extractLsb' 12 4 = 0 ↔ b.toNat / 2 ^ 12 % 16 = 0 := by
  rw [← BitVec.toNat_inj, operandDatum_field_toNat b (by decide)]
  rfl

/-- R473: the stored character as a number. -/
theorem printable_toNat (c : Byte) :
    (printable c).toNat = if 32 ≤ c.toNat ∧ c.toNat ≤ 126 then c.toNat else 32 := by
  simp only [printable, Bool.and_eq_true, decide_eq_true_eq]
  split <;> rfl

/-! ## Names (10_state.md R55) -/

theorem word_eq_of_bytes {v w : Word}
    (h : ∀ k, k < 4 → v.extractLsb' (8 * k) 8 = w.extractLsb' (8 * k) 8) : v = w := by
  apply BitVec.eq_of_getLsbD_eq
  intro i hi
  have hbit := congrArg (·.getLsbD (i % 8)) (h (i / 8) (by omega))
  simpa only [BitVec.getLsbD_extractLsb', decide_eq_true (Nat.mod_lt i (by decide : 8 > 0)),
    Bool.true_and, Nat.div_add_mod] using hbit

/-- A name is its eight characters. -/
theorem name_eq_of_nameChar {v0 v1 w0 w1 : Word}
    (h : ∀ k, k < 8 → nameChar v0 v1 k = nameChar w0 w1 k) : v0 = w0 ∧ v1 = w1 := by
  constructor
  · apply word_eq_of_bytes
    intro k hk
    have hchar := h k (by omega)
    rwa [nameChar, nameChar, if_pos (by omega), if_pos (by omega), Nat.mod_eq_of_lt hk] at hchar
  · apply word_eq_of_bytes
    intro k hk
    have hchar := h (k + 4) (by omega)
    rwa [nameChar, nameChar, if_neg (by omega), if_neg (by omega), Nat.add_mod_right,
      Nat.mod_eq_of_lt hk] at hchar

/-! ## A stored segment (R470, R474) -/

/-- R474: the published name, PS_VALID, PS_NEW and PS_PUB_COUNT. -/
def State.publication (s : State) : Word × Word × Bool × Bool × Word :=
  (s.psPub0, s.psPub1, s.psValid, s.psNew, s.psPubCount)

theorem publication_eq_iff {s : State} {name0 name1 : Word} {valid new : Bool} {count : Word} :
    s.publication = (name0, name1, valid, new, count) ↔ s.psPub0 = name0 ∧ s.psPub1 = name1 ∧
      s.psValid = valid ∧ s.psNew = new ∧ s.psPubCount = count := by
  simp only [State.publication, Prod.mk.injEq]

/-- R470: the condition of a publication, of `t`'s buffer over `s`'s published name. -/
def PublishesOver (s t : State) : Prop :=
  t.psMask = 0xF#4 ∧ (s.psValid = false ∨ t.psBuf0 ≠ s.psPub0 ∨ t.psBuf1 ≠ s.psPub1)

/-- R470: what a type-0 group with segment `seg` and block D `d` does to the PS state of `s`. -/
structure StoresSegment (seg : BitVec 2) (d : BitVec 16) (s t : State) : Prop where
  counted : t.groupCount = s.groupCount + 1
  mask : t.psMask = s.psMask ||| 1#4 <<< seg.toNat
  chars : ∀ k, k < 8 → nameChar t.psBuf0 t.psBuf1 k =
    if k = 2 * seg.toNat then printable (d.extractLsb' 8 8)
    else if k = 2 * seg.toNat + 1 then printable (d.extractLsb' 0 8)
    else nameChar s.psBuf0 s.psBuf1 k
  published : PublishesOver s t →
    t.publication = (t.psBuf0, t.psBuf1, true, true, s.psPubCount + 1)
  kept : ¬ PublishesOver s t → t.publication = s.publication

/-- R470: the model's test of a publication, for a buffer stored over the published name of `s`. -/
theorem publishes_iff {s t : State} (h : t.publication = s.publication) :
    t.publishes = true ↔ PublishesOver s t := by
  obtain ⟨hpub0, hpub1, hvalid, -⟩ := publication_eq_iff.mp h
  simp only [State.publishes, PublishesOver, hpub0, hpub1, hvalid, Bool.and_eq_true, Bool.or_eq_true,
    beq_iff_eq, bne_iff_ne, Bool.not_eq_true', or_assoc]

/-- R470, R55: the characters after a segment is stored. -/
theorem nameChar_storeSegment (s : State) (seg : BitVec 2) (d : BitVec 16) {k : Nat} (hk : k < 8) :
    nameChar (s.storeSegment seg.toNat d).psBuf0 (s.storeSegment seg.toNat d).psBuf1 k =
      if k = 2 * seg.toNat then printable (d.extractLsb' 8 8)
      else if k = 2 * seg.toNat + 1 then printable (d.extractLsb' 0 8)
      else nameChar s.psBuf0 s.psBuf1 k := by
  have hseg := seg.isLt
  refine (nameChar_setPsChar (s.setPsChar (2 * seg.toNat) _) _ (by omega) hk).trans ?_
  rw [nameChar_setPsChar s _ (by omega) hk]
  by_cases hfirst : k = 2 * seg.toNat
  · rw [if_neg (by omega), if_pos hfirst, if_pos hfirst]
  · rw [if_neg hfirst, if_neg hfirst]

/-- R470: what storing a segment does but for the characters. -/
theorem storeSegment_fields (s : State) (seg : Nat) (d : BitVec 16) :
    (s.storeSegment seg d).groupCount = s.groupCount ∧
      (s.storeSegment seg d).psMask = s.psMask ||| 1#4 <<< seg ∧
      (s.storeSegment seg d).publication = s.publication := by
  unfold State.storeSegment State.setPsChar
  split <;> split <;> exact ⟨rfl, rfl, rfl⟩

/-- R470: the group dispatch of type 0 stores its segment, and publishes where that is due. -/
theorem groupDispatch_storesSegment (a c d : BitVec 16) {b : BitVec 16} (s : State)
    (hb : b.extractLsb' 12 4 = 0) :
    StoresSegment (b.extractLsb' 0 2) d s (groupDispatch a b c d s) := by
  rw [groupDispatch_zero a b c d s _ hb rfl]
  obtain ⟨hcounted, hmask, hpub⟩ := storeSegment_fields
    { s with groupCount := s.groupCount + 1 } (b.extractLsb' 0 2).toNat d
  have hchars := fun k => nameChar_storeSegment { s with groupCount := s.groupCount + 1 }
    (b.extractLsb' 0 2) d (k := k)
  generalize State.storeSegment _ _ d = t at *
  replace hpub : t.publication = s.publication := hpub
  obtain ⟨-, -, -, -, hcount⟩ := publication_eq_iff.mp hpub
  split
  · next hdue =>
    refine ⟨hcounted, hmask, hchars, fun _ => ?_, fun hn => absurd ((publishes_iff hpub).mp hdue) hn⟩
    rw [← hcount]
    rfl
  · next hkeep =>
    exact ⟨hcounted, hmask, hchars, fun h => absurd ((publishes_iff hpub).mpr h) hkeep, fun _ => hpub⟩

/-! ## One group (R470 to R474) -/

/-- R470: what the frame of a group leaves open, filled in. -/
theorem groupDispatch_eq (a b c d : BitVec 16) (s t : State) (h : t = groupDispatch a b c d s) :
    t = { s with
      groupCount := t.groupCount, psPubCount := t.psPubCount, psBuf0 := t.psBuf0, psBuf1 := t.psBuf1
      psMask := t.psMask, psPub0 := t.psPub0, psPub1 := t.psPub1, psValid := t.psValid
      psNew := t.psNew } := by
  have hframe : t.blankPs = s.blankPs := h ▸ groupDispatch_frame a b c d s
  exact congrArg (fun u : State => { u with
    groupCount := t.groupCount, psPubCount := t.psPubCount, psBuf0 := t.psBuf0, psBuf1 := t.psBuf1
    psMask := t.psMask, psPub0 := t.psPub0, psPub1 := t.psPub1, psValid := t.psValid
    psNew := t.psNew }) hframe

/-- One bit of the segment mask. -/
theorem getLsbD_segmentBit (m : BitVec 4) (seg : BitVec 2) {j : Nat} (hj : j < 4) :
    (m ||| 1#4 <<< seg.toNat).getLsbD j = (m.getLsbD j || decide (j = seg.toNat)) := by
  have hbit : ∀ seg : BitVec 2, ∀ j < 4, (1#4 <<< seg.toNat).getLsbD j = decide (j = seg.toNat) := by
    decide
  rw [BitVec.getLsbD_or, hbit seg j hj]

/-- Settles O50: by the type; for type 0 each clause is one of `StoresSegment`. -/
theorem rdsGroupEffect : Obligations.RdsGroupEffect := by
  intro s a b c d
  have hexec := exec_rdsGroup a b c d s
  constructor
  · intro htype
    rw [hexec, groupDispatch_other _ _ _ _ s (mt (groupType_eq_zero_iff b).mp htype)]
    rfl
  · intro htype
    have hgroup := groupDispatch_storesSegment (operandDatum a) (operandDatum c) (operandDatum d) s
      ((groupType_eq_zero_iff b).mpr htype)
    obtain ⟨t, ht⟩ : ∃ t, t = groupDispatch (operandDatum a) (operandDatum b) (operandDatum c)
      (operandDatum d) s := ⟨_, rfl⟩
    rw [← ht] at hgroup hexec
    obtain ⟨hcount, hmask, hchars, hpublished, hkept⟩ := hgroup
    have hseg : ((operandDatum b).extractLsb' 0 2).toNat = b.toNat % 4 := by
      rw [operandDatum_field_toNat b (by decide), pow_zero, Nat.div_one]
      rfl
    refine ⟨t.psBuf0, t.psBuf1, t.psMask, t.psPub0, t.psPub1, t.psValid, t.psNew, t.psPubCount,
      ?_, fun j hj => ?_, fun j hj => ?_, ?_⟩
    · have heq := groupDispatch_eq _ _ _ _ s t ht
      rw [hcount] at heq
      exact hexec.trans (congrArg (fun u : State => Host.Outcome.next (u.advance 5)) heq)
    · rw [hchars j hj, hseg, apply_ite BitVec.toNat, apply_ite BitVec.toNat, printable_toNat,
        printable_toNat, operandDatum_field_toNat d (by decide),
        operandDatum_field_toNat d (by decide), pow_zero, Nat.div_one]
      rfl
    · rw [hmask, getLsbD_segmentBit _ _ hj, hseg]
    · split
      · next hdue => exact publication_eq_iff.mp (hpublished hdue)
      · next hdue => exact publication_eq_iff.mp (hkept hdue)

/-! ## The name "RADIO   " (R477) -/

/-- RDS_GROUP stores the segment that blocks B and D give. -/
theorem afterGroup_storesSegment (a c : Word) {b d : Word} {seg : BitVec 2} {v : BitVec 16} (s : State)
    (htype : (operandDatum b).extractLsb' 12 4 = 0) (hseg : (operandDatum b).extractLsb' 0 2 = seg)
    (hv : operandDatum d = v) : StoresSegment seg v s (afterGroup s a b c d) := by
  subst hseg hv
  obtain ⟨hcounted, hmask, hchars, hpublished, hkept⟩ :=
    groupDispatch_storesSegment (operandDatum a) (operandDatum c) (operandDatum d) s htype
  exact ⟨hcounted, hmask, hchars, hpublished, hkept⟩

/-- "RADIO   " is complete in the buffer and published, PS_PUB_COUNT `n`. -/
def RadioPublished (n : Word) (s : State) : Prop :=
  s.psMask = 0xF#4 ∧ (s.psBuf0 = 0x49444152#32 ∧ s.psBuf1 = 0x2020204F#32) ∧
    s.publication = (0x49444152#32, 0x2020204F#32, true, true, n)

section

variable {s s1 s2 s3 s4 t : State} {n : Word}

theorem StoresSegment.kept_of_incomplete {seg : BitVec 2} {v : BitVec 16} (h : StoresSegment seg v s t)
    (hmask : t.psMask ≠ 0xF#4) : t.publication = s.publication :=
  h.kept fun ⟨hfull, _⟩ => hmask hfull

/-- R477: the mask is complete only with the fourth group, which publishes. -/
theorem radioPublished_of_four (hmask : s.psMask = 0) (hvalid : s.psValid = false)
    (h1 : StoresSegment 0 0x5241 s s1) (h2 : StoresSegment 1 0x4449 s1 s2)
    (h3 : StoresSegment 2 0x4F20 s2 s3) (h4 : StoresSegment 3 0x2020 s3 s4) :
    RadioPublished (s.psPubCount + 1) s4 := by
  have hm1 : s1.psMask = 0x1#4 := by rw [h1.mask, hmask]; rfl
  have hm2 : s2.psMask = 0x3#4 := by rw [h2.mask, hm1]; rfl
  have hm3 : s3.psMask = 0x7#4 := by rw [h3.mask, hm2]; rfl
  have hm4 : s4.psMask = 0xF#4 := by rw [h4.mask, hm3]; rfl
  have hpub3 : s3.publication = s.publication :=
    calc s3.publication
      _ = s2.publication := h3.kept_of_incomplete (by rw [hm3]; decide)
      _ = s1.publication := h2.kept_of_incomplete (by rw [hm2]; decide)
      _ = s.publication := h1.kept_of_incomplete (by rw [hm1]; decide)
  obtain ⟨-, -, hvalid3, -, hcount3⟩ := publication_eq_iff.mp hpub3
  have hname : s4.psBuf0 = 0x49444152#32 ∧ s4.psBuf1 = 0x2020204F#32 :=
    name_eq_of_nameChar fun k hk => by
      rw [h4.chars k hk, h3.chars k hk, h2.chars k hk, h1.chars k hk]
      interval_cases k <;> rfl
  refine ⟨hm4, hname, ?_⟩
  rw [h4.published ⟨hm4, .inl (hvalid3.trans hvalid)⟩, hname.1, hname.2, hcount3]

/-- R477: the last group again stores what stands in the buffer, so nothing is published. -/
theorem RadioPublished.repeated (h : RadioPublished n s) (hg : StoresSegment 3 0x2020 s t) :
    RadioPublished n t := by
  obtain ⟨hmask, ⟨hbuf0, hbuf1⟩, hpub⟩ := h
  have hname : t.psBuf0 = 0x49444152#32 ∧ t.psBuf1 = 0x2020204F#32 :=
    name_eq_of_nameChar fun k hk => by
      rw [hg.chars k hk, hbuf0, hbuf1]
      interval_cases k <;> rfl
  have hkept : t.publication = s.publication := by
    obtain ⟨hpub0, hpub1, hvalid, -⟩ := publication_eq_iff.mp hpub
    refine hg.kept ?_
    rintro ⟨-, hunpub | hnew0 | hnew1⟩
    · exact Bool.false_ne_true (hunpub.symm.trans hvalid)
    · exact hnew0 (hname.1.trans hpub0.symm)
    · exact hnew1 (hname.2.trans hpub1.symm)
  exact ⟨by rw [hg.mask, hmask]; rfl, hname, hkept.trans hpub⟩

/-- R477: one other character is a new name, which is published. -/
theorem RadioPublished.changed (h : RadioPublished n s) (hg : StoresSegment 1 0x444A s t) :
    t.publication = (0x4A444152#32, 0x2020204F#32, true, true, n + 1) := by
  obtain ⟨hmask, ⟨hbuf0, hbuf1⟩, hpub⟩ := h
  obtain ⟨hname0, hname1⟩ : t.psBuf0 = 0x4A444152#32 ∧ t.psBuf1 = 0x2020204F#32 :=
    name_eq_of_nameChar fun k hk => by
      rw [hg.chars k hk, hbuf0, hbuf1]
      interval_cases k <;> rfl
  obtain ⟨hpub0, -, -, -, hcount⟩ := publication_eq_iff.mp hpub
  have hfull : t.psMask = 0xF#4 := by rw [hg.mask, hmask]; rfl
  have hnew : t.psBuf0 ≠ s.psPub0 := by rw [hname0, hpub0]; decide
  rw [hg.published ⟨hfull, .inr (.inl hnew)⟩, hname0, hname1, hcount]

end

/-- Settles O51: the four groups, the repeated fourth and the changed character, one lemma each. -/
theorem psNamePublishedOnce : Obligations.PsNamePublishedOnce := by
  intro s s4 s5 s6 a c hmask hvalid hs4 hs5 hs6
  have hRA := fun u => afterGroup_storesSegment a c (b := 0) (d := 0x5241) u rfl rfl rfl
  have hDI := fun u => afterGroup_storesSegment a c (b := 1) (d := 0x4449) u rfl rfl rfl
  have hO := fun u => afterGroup_storesSegment a c (b := 2) (d := 0x4F20) u rfl rfl rfl
  have hlast := fun u => afterGroup_storesSegment a c (b := 3) (d := 0x2020) u rfl rfl rfl
  have hDJ := fun u => afterGroup_storesSegment a c (b := 1) (d := 0x444A) u rfl rfl rfl
  have hradio4 : RadioPublished (s.psPubCount + 1) s4 := by
    rw [hs4]
    exact radioPublished_of_four hmask hvalid (hRA _) (hDI _) (hO _) (hlast _)
  have hradio5 : RadioPublished (s.psPubCount + 1) s5 := by
    rw [hs5]
    exact hradio4.repeated (hlast _)
  have hpub6 : s6.publication = (0x4A444152#32, 0x2020204F#32, true, true, s.psPubCount + 1 + 1) := by
    rw [hs6]
    exact hradio5.changed (hDJ _)
  have hcounted : s4.groupCount = s.groupCount + 1 + 1 + 1 + 1 := by
    rw [hs4, (hlast _).counted, (hO _).counted, (hDI _).counted, (hRA _).counted]
  obtain ⟨-, -, hpub4⟩ := hradio4
  obtain ⟨-, -, hpub5⟩ := hradio5
  obtain ⟨h4name0, h4name1, h4valid, h4new, h4count⟩ := publication_eq_iff.mp hpub4
  obtain ⟨h5name0, h5name1, -, -, h5count⟩ := publication_eq_iff.mp hpub5
  obtain ⟨h6name0, h6name1, -, -, h6count⟩ := publication_eq_iff.mp hpub6
  have hfour : s4.groupCount = s.groupCount + 4 := by
    rw [hcounted]
    simp only [BitVec.add_assoc]
    rfl
  have htwo : s6.psPubCount = s.psPubCount + 2 := by
    rw [h6count, BitVec.add_assoc]
    rfl
  exact ⟨h4count, h4name0, h4name1, h4valid, h4new, hfour, h5count, h5name0.trans h4name0.symm,
    h5name1.trans h4name1.symm, htwo, h6name0, h6name1⟩

end Sys2Proof.Machine
end

section
/-! PROOFS. CHAIN_U8 over a list of IQ words (47_control.md R515, R516). The state falls into two parts
that do not see each other: the audio path (CH, the demodulator and the resampler), and the RDS path
with CTRL. One word is one step of each stage, and a run is its first word's step and then the rest. -/

namespace Sys2Proof.Machine

open Sys2Proof

/-! ## The audio path and the RDS path -/

/-- `r` with the audio path of `a`: what the stages of R515 but the RDS front end read and write. -/
def State.withAudioPath (r a : State) : State :=
  { r with
    ch := a.ch, fmdPrevI := a.fmdPrevI, fmdPrevQ := a.fmdPrevQ, fmdHasPrev := a.fmdHasPrev
    deemphA := a.deemphA, deemphY := a.deemphY, au := a.au, audGain := a.audGain
    nanDraws := a.nanDraws }

theorem withAudioPath_self (s : State) : s.withAudioPath s = s := rfl

/-- The RDS front end reads nothing of the audio path: it has the same effect beside another one. -/
theorem afterFront_withAudioPath (r a : State) (chips : List Bool) (rb rl : Fir Word)
    (phase acc : Word) (n : Nat) :
    (r.withAudioPath a).afterFront chips rb rl phase acc n
      = (r.afterFront chips rb rl phase acc n).withAudioPath { a with nanDraws := n } := by
  have hsplit : r.withAudioPath a = r.outside (r.withAudioPath a) := rfl
  rw [State.afterFront, hsplit, chipsEffect_outside, State.afterFront, chipsEffect_eq_outside chips r]
  rfl

theorem RdsStep.withAudioPath {r a t : State} {m : Word} (h : RdsStep (r.withAudioPath a) m t) :
    ∃ r' n, t = r'.withAudioPath { a with nanDraws := n } ∧ RdsStep r m r' := by
  cases h with
  | held n hb => exact ⟨_, n, afterFront_withAudioPath .., .held n hb⟩
  | mixed b r phase acc o chips n hb hphase hr ho hslice =>
    exact ⟨_, n, afterFront_withAudioPath .., .mixed b r phase acc o chips n hb hphase hr ho hslice⟩

/-- A run of the front end moves the RDS path alone: not the audio path, the responses or `cp`. -/
theorem RdsRun.frame {s u : State} {ms : List Word} (h : RdsRun s ms u) :
    u.withAudioPath s = { u with nanDraws := s.nanDraws } ∧ u.resp = s.resp ∧ u.cp = s.cp := by
  obtain ⟨_, _, _, _, _, chips, _, _, _, -, -, -, -, -, -, -, rfl⟩ := h
  rw [chipsEffect_eq_outside chips s]
  exact ⟨rfl, rfl, rfl⟩

/-! ## The gated front end (R515, 10_state.md R43) -/

/-- R515: one sample at the RDS front end when RDS_EN is 1, nothing when it is 0. -/
def GatedStep (r : State) (m : Word) (r' : State) : Prop :=
  if r.ctrl.getLsbD 0 then RdsStep r m r' else r' = r

/-- R515, R371: the samples of a list at the gated front end. -/
def GatedRun (r : State) (ms : List Word) (u : State) : Prop :=
  if r.ctrl.getLsbD 0 then RdsRun r ms u else u = r

theorem rdsGated_step (m : Word) (r a : State) : ∃ r' n,
    (rdsGated m (r.withAudioPath a)).2 = r'.withAudioPath { a with nanDraws := n } ∧
      GatedStep r m r' := by
  have hgate : (rdsGated m (r.withAudioPath a)).2
      = if r.ctrl.getLsbD 0 then (rdsFront m (r.withAudioPath a)).2 else r.withAudioPath a := by
    show ((if r.ctrl.getLsbD 0 then rdsFront m else pure ()) (r.withAudioPath a)).2 = _
    split <;> rfl
  rw [hgate]
  unfold GatedStep
  split
  · exact (rdsFront_step m (r.withAudioPath a)).withAudioPath
  · exact ⟨r, a.nanDraws, rfl, rfl⟩

theorem RdsStep.ctrl {r r' : State} {m : Word} (h : RdsStep r m r') : r'.ctrl = r.ctrl := by
  cases h <;> exact (congrArg State.ctrl (rdsChipBody_frame _ r) :)

section

variable {r r' u : State} {m : Word} {ms : List Word}

theorem GatedStep.firOk (h : GatedStep r m r') (hrb : FirOk F32.posZero r.rb)
    (hrl : FirOk F32.posZero r.rl) : FirOk F32.posZero r'.rb ∧ FirOk F32.posZero r'.rl := by
  unfold GatedStep at h
  split at h
  · exact h.firOk hrb hrl
  · subst h
    exact ⟨hrb, hrl⟩

theorem GatedRun.nil (hrb : FirOk F32.posZero r.rb) (hrl : FirOk F32.posZero r.rl) :
    GatedRun r [] r := by
  unfold GatedRun
  split
  · exact .nil hrb hrl
  · rfl

/-- RDS_EN stays as it is along a run, since the RDS path does not write CTRL. -/
theorem GatedRun.cons (hrb : FirOk F32.posZero r.rb) (hrl : FirOk F32.posZero r.rl)
    (hstep : GatedStep r m r') (hrun : GatedRun r' ms u) : GatedRun r (m :: ms) u := by
  unfold GatedStep at hstep
  unfold GatedRun at hrun ⊢
  split at hstep
  · next hen =>
    rw [hstep.ctrl, if_pos hen] at hrun
    rw [if_pos hen]
    exact .cons hrb hrl hstep hrun
  · next hen =>
    subst hstep
    rwa [if_neg hen] at hrun ⊢

theorem GatedRun.frame (h : GatedRun r ms u) :
    u.withAudioPath r = { u with nanDraws := r.nanDraws } ∧ u.resp = r.resp ∧ u.cp = r.cp := by
  unfold GatedRun at h
  split at h
  · exact RdsRun.frame h
  · subst h
    exact ⟨rfl, rfl, rfl⟩

end

/-! ## One word (R515) -/

/-- R515: what `chain_step(w)` can do from RDS path `r` and audio path `a`. Without a CH output only CH
moves; with one, the demodulator's output goes to the gated front end and to the resampler. -/
inductive ChainStep (r a : State) (w : Word) : Option Int → State → State → Prop
  | held (z : Cplx) (n : Nat) (hre : ConvExact (iqI w) z.re) (him : ConvExact (iqQ w) z.im)
    (hc : FirOut cplxZero DotCplx a.ch z none) :
    ChainStep r a w none r { a with ch := a.ch.insert cplxZero z, nanDraws := n }
  | heard (z c : Cplx) (m y : Word) (o : Option Word) (q : Option Int) (r' : State) (n : Nat)
    (hre : ConvExact (iqI w) z.re) (him : ConvExact (iqQ w) z.im)
    (hc : FirOut cplxZero DotCplx a.ch z (some c)) (hm : FmdResult a.fmdPrev c m)
    (hrds : GatedStep r m r') (hy : DeemphNext a.deemphA m a.deemphY y)
    (ho : FirOut F32.posZero DotReal a.au y o)
    (hq : List.Forall₂ (QuantResult a.audGain) o.toList q.toList) :
    ChainStep r a w q r'
      { a with
        ch := a.ch.insert cplxZero z, fmdPrevI := c.re, fmdPrevQ := c.im, fmdHasPrev := true
        deemphY := y, au := a.au.insert F32.posZero y, nanDraws := n }

/-- R515: the stages after the CH filter, from RDS path `r` and audio path `a`. -/
theorem chainTail_step (c : Cplx) (r a : State) : ∃ m y o q r' n,
    chainTail c (r.withAudioPath a) = (q, r'.withAudioPath { a with
      fmdPrevI := c.re, fmdPrevQ := c.im, fmdHasPrev := true
      deemphY := y, au := a.au.insert F32.posZero y, nanDraws := n }) ∧
    FmdResult a.fmdPrev c m ∧ GatedStep r m r' ∧ DeemphNext a.deemphA m a.deemphY y ∧
    FirOut F32.posZero DotReal a.au y o ∧
    List.Forall₂ (QuantResult a.audGain) o.toList q.toList := by
  obtain ⟨m, n₁, hfmd, hm⟩ := fmdStep_spec c (r.withAudioPath a)
  obtain ⟨r', n₂, hgated, hrds⟩ := rdsGated_step m r
    { a with fmdPrevI := c.re, fmdPrevQ := c.im, fmdHasPrev := true, nanDraws := n₁ }
  obtain ⟨y, o, q, n₃, haud, hy, ho, hq⟩ := audStep_run m (r'.withAudioPath
    { a with fmdPrevI := c.re, fmdPrevQ := c.im, fmdHasPrev := true, nanDraws := n₂ })
  refine ⟨m, y, o, q, r', n₃, ?_, hm, hrds, hy, ho, hq⟩
  rw [chainTail, bind_apply, hfmd, bind_apply]
  exact (congrArg (audStep m) hgated).trans haud

theorem chainStep_step (w : Word) (r a : State) : ∃ q r' a',
    chainStep w (r.withAudioPath a) = (q, r'.withAudioPath a') ∧ ChainStep r a w q r' a' := by
  obtain ⟨z, hconv, hre, him⟩ := iqConv_spec w (r.withAudioPath a)
  obtain ⟨oc, n₁, hfir, hc⟩ := firStepC_spec z (r.withAudioPath a)
  rw [chainStep, bind_apply, hconv, bind_apply, hfir]
  cases oc with
  | none => exact ⟨none, r, _, rfl, .held z n₁ hre him hc⟩
  | some c =>
    obtain ⟨m, y, o, q, r', n, htail, hm, hrds, hy, ho, hq⟩ :=
      chainTail_step c r { a with ch := a.ch.insert cplxZero z, nanDraws := n₁ }
    exact ⟨q, r', _, htail, .heard z c m y o q r' n hre him hc hm hrds hy ho hq⟩

/-- The engines a step leaves are the ones before or have taken one input, so they stay legal. -/
theorem ChainStep.firOk {r a r' a' : State} {w : Word} {q : Option Int}
    (h : ChainStep r a w q r' a') (hch : FirOk cplxZero a.ch) (hau : FirOk F32.posZero a.au)
    (hrb : FirOk F32.posZero r.rb) (hrl : FirOk F32.posZero r.rl) :
    FirOk cplxZero a'.ch ∧ FirOk F32.posZero a'.au ∧ FirOk F32.posZero r'.rb ∧
      FirOk F32.posZero r'.rl := by
  cases h with
  | held z => exact ⟨Fir.insert_ok hch z, hau, hrb, hrl⟩
  | heard z _ _ y _ _ _ _ _ _ _ _ hrds =>
    exact ⟨Fir.insert_ok hch z, Fir.insert_ok hau y, hrds.firOk hrb hrl⟩

/-! ## The whole list (R516) -/

/-- R516: what the words `ws` do, one stage after another, from RDS path `r` and audio path `a`: the PCM
values `qs`, and both paths afterwards. -/
def StagesRun (r a : State) (ws : List Word) (qs : List Int) (u b : State) : Prop :=
  ∃ zs cs ms y' ch' au' n,
    List.Forall₂ (fun w z => ConvExact (iqI w) z.re ∧ ConvExact (iqQ w) z.im) ws zs ∧
    FirRun cplxZero DotCplx a.ch zs cs ch' ∧ FmdRun a.fmdPrev cs ms ∧ GatedRun r ms u ∧
    AudRun a.deemphA a.audGain a.deemphY a.au ms qs y' au' ∧
    b = { a.withPrev cs with ch := ch', au := au', deemphY := y', nanDraws := n }

/-- The previous sample is apart from the rest of the audio path. -/
theorem withPrev_update (s : State) (xs : List Cplx) (ch : Fir Cplx) (au : Fir Word) (y : Word)
    (n : Nat) :
    ({ s with ch := ch, au := au, deemphY := y, nanDraws := n } : State).withPrev xs
      = { s.withPrev xs with ch := ch, au := au, deemphY := y, nanDraws := n } := by
  unfold State.withPrev
  cases xs.getLast? <;> rfl

theorem StagesRun.nil {r a : State} (hch : FirOk cplxZero a.ch) (hau : FirOk F32.posZero a.au)
    (hrb : FirOk F32.posZero r.rb) (hrl : FirOk F32.posZero r.rl) : StagesRun r a [] [] r a :=
  ⟨[], [], [], a.deemphY, a.ch, a.au, a.nanDraws, .nil, FirRun.nil _ hch, rfl, .nil hrb hrl, .nil hau,
    rfl⟩

/-- R515, R516: a run is its first word's step and then the run from the paths that step leaves. -/
theorem StagesRun.cons {r a r' a' u b : State} {w : Word} {ws : List Word} {q : Option Int}
    {qs : List Int} (hch : FirOk cplxZero a.ch) (hau : FirOk F32.posZero a.au)
    (hrb : FirOk F32.posZero r.rb) (hrl : FirOk F32.posZero r.rl) (hstep : ChainStep r a w q r' a')
    (hrun : StagesRun r' a' ws qs u b) : StagesRun r a (w :: ws) (q.toList ++ qs) u b := by
  obtain ⟨zs, cs, ms, y', ch', au', n', hzs, hcs, hms, hrds, hqs, rfl⟩ := hrun
  cases hstep with
  | held z n hre him hc =>
    refine ⟨z :: zs, cs, ms, y', ch', au', n', .cons ⟨hre, him⟩ hzs, FirRun.cons_out hch hc hcs, hms,
      hrds, hqs, ?_⟩
    rw [withPrev_update a cs (a.ch.insert cplxZero z) a.au a.deemphY n]
  | heard z c m y o q r' n hre him hc hm hgated hy ho hq =>
    refine ⟨z :: zs, c :: cs, m :: ms, y', ch', au', n', .cons ⟨hre, him⟩ hzs,
      FirRun.cons_out hch hc hcs, ⟨m, ms, rfl, hm, hms⟩, .cons hrb hrl hgated hrds,
      hqs.cons hau hy ho hq, ?_⟩
    rw [withPrev_cons c cs n { a with
        ch := a.ch.insert cplxZero z, au := a.au.insert F32.posZero y, deemphY := y },
      withPrev_update a (c :: cs) (a.ch.insert cplxZero z) (a.au.insert F32.posZero y) y a.nanDraws]

theorem allOutputs_chainStep_run (ws : List Word) {r a : State} (hch : FirOk cplxZero a.ch)
    (hau : FirOk F32.posZero a.au) (hrb : FirOk F32.posZero r.rb) (hrl : FirOk F32.posZero r.rl) :
    ∃ qs u b, allOutputs chainStep ws (r.withAudioPath a) = (qs, u.withAudioPath b) ∧
      StagesRun r a ws qs u b := by
  induction ws generalizing r a with
  | nil => exact ⟨[], r, a, rfl, .nil hch hau hrb hrl⟩
  | cons w ws ih =>
    obtain ⟨q, r', a', hword, hstep⟩ := chainStep_step w r a
    obtain ⟨hch', hau', hrb', hrl'⟩ := hstep.firOk hch hau hrb hrl
    obtain ⟨qs, u, b, hloop, hrun⟩ := ih hch' hau' hrb' hrl'
    refine ⟨q.toList ++ qs, u, b, ?_, .cons hch hau hrb hrl hstep hrun⟩
    rw [allOutputs_cons, hword, hloop]

/-- After a run the two paths are put together again: the RDS path has kept the audio path of `s`. -/
theorem withAudioPath_withPrev {s u : State} {ms : List Word} (h : GatedRun s ms u) (cs : List Cplx)
    (ch : Fir Cplx) (au : Fir Word) (y : Word) (n : Nat) :
    u.withAudioPath { s.withPrev cs with ch := ch, au := au, deemphY := y, nanDraws := n }
      = { u.withPrev cs with ch := ch, au := au, deemphY := y, nanDraws := n } := by
  obtain ⟨hpath, -, -⟩ := h.frame
  unfold State.withPrev
  cases cs.getLast? with
  | none =>
    exact (congrArg (fun t : State => { t with ch := ch, au := au, deemphY := y, nanDraws := n })
      hpath :)
  | some x =>
    exact (congrArg (fun t : State => { t with
      fmdPrevI := x.re, fmdPrevQ := x.im, fmdHasPrev := true, ch := ch, au := au, deemphY := y
      nanDraws := n }) hpath :)

/-- Settles O52: the loop of CHAIN_U8 is a run of the stages, whose PCM words are their numbers. -/
theorem chainRun : Obligations.ChainRun := by
  intro s ws hch hau hrb hrl
  obtain ⟨qs, u, b, hloop, zs, cs, ms, y', ch', au', n, hzs, hcs, hms, hrds, hqs, rfl⟩ :=
    allOutputs_chainStep_run ws hch hau hrb hrl
  rw [withAudioPath_self, withAudioPath_withPrev hrds] at hloop
  obtain ⟨-, hresp, hcp⟩ := hrds.frame
  refine ⟨zs, cs, ms, qs, y', ch', au', u, n, hzs, hcs, hms, hrds, hqs, ?_⟩
  obtain ⟨_, _, -, -, -, hquant⟩ := hqs
  have hwords : qs.map pcmWord = qs.map fun q => BitVec.ofInt 32 q :=
    List.map_congr_left fun q hq => pcmWord_eq_ofInt (forall_pcmInRange hquant q hq)
  show Host.Outcome.next (((allOutputs chainStep ws s).2.emitCounted
    ((allOutputs chainStep ws s).1.map pcmWord) (allOutputs chainStep ws s).1.length).advance
      (1 + ws.length)) = _
  rw [hloop, State.emitCounted, State.emitAll, State.advance, hwords, withPrev_resp, withPrev_cp, hresp,
    hcp, Nat.add_assoc]
  rfl

end Sys2Proof.Machine
end

section
/-! PROOFS. Errors, NOP, RESET and the writes of the FIR registers (47_control.md R510 to R514,
60_exceptions.md R560 to R574). Which commands set an error bit, and what they do besides, is said once,
in `ErrorEffect`; that no other command sets one is `effectOf_errorEffect`. -/

namespace Sys2Proof.Machine

open Sys2Proof

/-! ## Errors (60_exceptions.md R560 to R569) -/

/-- R45, R569: no bit of ERR is set that was clear. -/
def NoNewError (s t : State) : Prop := t.err &&& ~~~s.err = 0

theorem noNewError_of_eq {s t : State} (h : t.err = s.err) : NoNewError s t := by
  rw [NoNewError, h]
  exact BitVec.and_not_self _

theorem noNewError_writeErr (s : State) (v : Word) : NoNewError s (s.writeErr v) := by
  rw [NoNewError, State.writeErr, BitVec.and_assoc, BitVec.and_comm (~~~_), ← BitVec.and_assoc,
    BitVec.and_not_self]
  exact BitVec.zero_and

theorem NoNewError.getLsbD {s t : State} (h : NoNewError s t) {b : Nat} (ht : t.err.getLsbD b = true) :
    s.err.getLsbD b = true := by
  have hbit := congrArg (BitVec.getLsbD · b) h
  have hb : b < 3 := BitVec.lt_of_getLsbD ht
  simpa [ht, hb] using hbit

/-- R560 to R565: the effects of a command `i` in state `s` that raise an error. -/
inductive ErrorEffect (i : Instr) (s : State) : State → Prop
  | illegal (h : i.legal = false) : ErrorEffect i s (s.raise .illegal)
  | badRead (addr : BitVec 16) (h : i = .regRead 0 addr) : ErrorEffect i s ((s.raise .badReg).emit 0)
  | badWrite (addr : BitVec 16) (v : Word) (e : ErrCause) (h : i = .regWrite 0 addr v)
    (he : e ≠ .illegal) : ErrorEffect i s (s.raise e)

theorem memWrite_noNewError (r : Reg) (v : Word) (s : State) :
    NoNewError s (memWrite r v s) ∨ memWrite r v s = s.raise .badCfg := by
  by_cases hr : r = .err
  · subst hr
    exact .inl (noNewError_writeErr s v)
  · exact (memWrite_err hr v s).imp_left noNewError_of_eq

/-- R569: every command sets no bit of ERR or has one of the error effects and no other. -/
theorem effectOf_errorEffect (i : Instr) (s : State) :
    NoNewError s (effectOf i s) ∨ ErrorEffect i s (effectOf i s) := by
  unfold effectOf
  split
  · next hlegal =>
    obtain h | ⟨sel, addr, rfl⟩ | ⟨sel, addr, v, rfl⟩ | ⟨sel, imm, fs, f, rfl⟩ := bodyOf_cases i s
    · exact .inl (noNewError_of_eq h.err)
    · obtain rfl : sel = 0 := eq_of_beq hlegal
      show NoNewError s (regReadBody addr s) ∨ ErrorEffect _ s (regReadBody addr s)
      obtain h | ⟨r, -, h⟩ := regReadBody_cases addr s <;> rw [h]
      · exact .inr (.badRead addr rfl)
      · exact .inl (noNewError_of_eq rfl)
    · obtain rfl : sel = 0 := eq_of_beq hlegal
      show NoNewError s (regWriteBody addr v s) ∨ ErrorEffect _ s (regWriteBody addr v s)
      obtain h | ⟨r, -, h⟩ := regWriteBody_cases addr v s <;> rw [h]
      · exact .inr (.badWrite addr v .badReg rfl nofun)
      · obtain hw | hw := memWrite_noNewError r v s
        · exact .inl hw
        · rw [hw]
          exact .inr (.badWrite addr v .badCfg rfl nofun)
    · obtain ⟨p, inc, n, -, -, h⟩ := ncoSetBody_spec fs f s
      exact .inl (noNewError_of_eq (congrArg State.err h :))
  · next hlegal => exact .inr (.illegal (Bool.eq_false_iff.mpr hlegal))

theorem effectOf_of_illegal {i : Instr} (h : i.legal = false) (s : State) :
    effectOf i s = s.raise .illegal := by
  rw [effectOf, h, if_neg Bool.false_ne_true]

/-- R147: a word whose opcode byte is no known opcode is not decoded. -/
theorem decode_of_unknown {w : Word} (h : ∀ o, opcodeByte o ≠ fieldOpc w) (rest : List Word) :
    decode (w :: rest) = .error (.unknownOpcode (fieldOpc w)) := by
  have hnone : opcodeOf (fieldOpc w) = none :=
    List.find?_eq_none.mpr fun o _ => by rw [beq_iff_eq]; exact h o
  rw [decode, hnone]

/-- Settles O8: an illegal command is ILLEGAL in the frame of a command, and so is an unknown opcode. -/
theorem illegalCommandOnlySetsIllegal : Obligations.IllegalCommandOnlySetsIllegal := by
  refine ⟨fun i s h => ?_, fun s w rest hw ho => ?_⟩
  · rw [exec_effectOf, effectOf_of_illegal h]
    rfl
  · rw [step, fetch, hw, decode_of_unknown ho]
    rfl

/-- R562: the causes other than ILLEGAL do not touch its bit. -/
theorem raise_getLsbD_zero {e : ErrCause} (he : e ≠ .illegal) (s : State) :
    (s.raise e).err.getLsbD 0 = s.err.getLsbD 0 := by
  cases e with
  | illegal => exact absurd rfl he
  | badReg => exact (BitVec.getLsbD_or ..).trans (Bool.or_false _)
  | badCfg => exact (BitVec.getLsbD_or ..).trans (Bool.or_false _)

section

variable {i : Instr} {s t : State}

/-- R560: the error effects of a legal command raise another cause than ILLEGAL. -/
theorem ErrorEffect.getLsbD_zero (h : ErrorEffect i s t) (hlegal : i.legal = true) :
    t.err.getLsbD 0 = s.err.getLsbD 0 := by
  cases h with
  | illegal hi => exact absurd (hi.symm.trans hlegal) Bool.false_ne_true
  | badRead => exact raise_getLsbD_zero (e := .badReg) nofun s
  | badWrite _ _ e _ he => exact raise_getLsbD_zero he s

/-- R562: legal commands other than the register commands have no error effect. -/
theorem ErrorEffect.illegal_or_isRegCommand (h : ErrorEffect i s t) :
    i.legal = false ∨ isRegCommand i = true := by
  cases h with
  | illegal hi => exact .inl hi
  | badRead addr hi => exact .inr (hi ▸ rfl)
  | badWrite addr v e hi => exact .inr (hi ▸ rfl)

theorem ErrCause.bit_cases (e : ErrCause) : e.bit = 1 ∨ e.bit = 2 ∨ e.bit = 4 := by
  cases e <;> decide

/-- R569, R563: an error effect sets one bit and appends nothing, but for the 0 word of a bad read. -/
theorem ErrorEffect.eq_update (h : ErrorEffect i s t) : ∃ (bit : BitVec 3) (ws : List Word),
    (bit = 1 ∨ bit = 2 ∨ bit = 4) ∧ t = { s with err := s.err ||| bit, resp := s.resp ++ ws } ∧
      (ws = [] ∨ (ws = [0] ∧ bit = 2 ∧ ∃ addr, i = .regRead 0 addr)) := by
  have hraise (e : ErrCause) : s.raise e = { s with err := s.err ||| e.bit, resp := s.resp ++ [] } := by
    rw [List.append_nil]
    rfl
  cases h with
  | illegal => exact ⟨_, [], ErrCause.bit_cases _, hraise .illegal, .inl rfl⟩
  | badRead addr hi => exact ⟨2, [0], .inr (.inl rfl), rfl, .inr ⟨rfl, rfl, addr, hi⟩⟩
  | badWrite _ _ e => exact ⟨_, [], ErrCause.bit_cases _, hraise e, .inl rfl⟩

end

/-- Settles O9: neither kind of effect of a legal command sets the bit. -/
theorem legalCommandNeverSetsIllegal : Obligations.LegalCommandNeverSetsIllegal := by
  intro i s t hlegal h ht
  rw [exec_effectOf] at h
  obtain rfl := Host.Outcome.next.inj h
  have hbit : (effectOf i s).err.getLsbD 0 = true := ht
  obtain hnone | heffect := effectOf_errorEffect i s
  · exact hnone.getLsbD hbit
  · rwa [heffect.getLsbD_zero hlegal] at hbit

/-- Settles O10: a new error bit comes from an error effect, which raises one cause. -/
theorem errorsAreSingleAndPrecise : Obligations.ErrorsAreSingleAndPrecise := by
  intro i s t h hnew
  rw [exec_effectOf] at h
  obtain rfl := Host.Outcome.next.inj h
  obtain hnone | heffect := effectOf_errorEffect i s
  · exact absurd hnone hnew
  · obtain ⟨bit, ws, hbit, heq, hws⟩ := heffect.eq_update
    exact ⟨bit, ws, hbit, by rw [heq]; rfl, hws⟩

/-- Settles O12: a legal command with an error effect would be a register command. -/
theorem legalUnitCommandsAreSafe : Obligations.LegalUnitCommandsAreSafe := by
  intro s i rest hdecode hlegal hreg
  have hcp : s.cp < (effectOf i s).cp + (encode i).length := by
    rw [(keepsStreams_effectOf i s).cp, encode_length]
    omega
  refine ⟨_, (step_of_decode hdecode).trans (exec_effectOf i s), hcp, ?_⟩
  obtain hnone | heffect := effectOf_errorEffect i s
  · exact hnone
  · obtain hi | hi := heffect.illegal_or_isRegCommand
    · exact absurd (hi.symm.trans hlegal) Bool.false_ne_true
    · exact absurd (hreg.symm.trans hi) Bool.false_ne_true

/-- Settles O7: each branch of the step answers a next state. -/
theorem machineNeverStops : Obligations.MachineNeverStops := by
  intro s
  unfold step
  split
  · next i _ _ => exact ⟨_, exec_effectOf i s⟩
  · exact ⟨_, rfl⟩
  · exact ⟨_, rfl⟩
  · exact ⟨_, rfl⟩

/-! ## NOP and RESET (47_control.md R510, R511) -/

/-- Settles O13: the effect of NOP is none, and it is legal with SEL and IMM 0. -/
theorem nopOnlyAdvances : Obligations.NopOnlyAdvances := by
  refine ⟨rfl, fun sel imm s => ?_⟩
  by_cases h : sel = 0 ∧ imm = 0
  · obtain ⟨rfl, rfl⟩ := h
    rfl
  · have hillegal : (Instr.nop sel imm).legal = false := by
      simpa [Instr.legal] using h
    rw [exec_effectOf, effectOf_of_illegal hillegal, if_neg h]
    rfl

/-- Settles O14: the units of the mask, each by its record update. -/
theorem resetClearsTheMaskedUnits : Obligations.ResetClearsTheMaskedUnits := by
  intro mask s hmask
  have hlegal : (Instr.reset mask 0).legal = true := by
    simp [Instr.legal, hmask]
  have hunits : effectOf (.reset mask 0) s = resetUnits mask s := by
    rw [effectOf, if_pos hlegal, bodyOf]
  rw [exec_effectOf, hunits, resetUnits, reset_unit0, reset_unit1, reset_unit2, reset_unit3, reset_unit4]
  rfl

/-! ## FIR registers (47_control.md R514, 60_exceptions.md R565) -/

section

variable {addr : BitVec 16} {i : Inst}

/-- R565: a write of FIR_T stores a legal tap count and resets the engine, or raises BAD_CFG. -/
theorem exec_regWrite_firT (h : regAt addr = some (.firT i)) (v : Word) (s : State) :
    exec (.regWrite 0 addr v) s = .next
      (if v.toNat % 2 = 1 ∧ v.toNat ≤ 1023 then
        ((s.storeT i (BitVec.ofNat 16 v.toNat)).firReset i).advance 2
      else (s.raise .badCfg).advance 2) := by
  rw [exec_regWrite_of_regAt h rfl, memWrite, State.writeFirT, apply_ite (State.advance · 2), low16]
  simp only [legalT_iff]

/-- R565: a write of FIR_D stores a legal factor and resets the engine, or raises BAD_CFG. -/
theorem exec_regWrite_firD (h : regAt addr = some (.firD i)) (v : Word) (s : State) :
    exec (.regWrite 0 addr v) s = .next
      (if 1 ≤ v.toNat ∧ v.toNat ≤ 65535 then
        ((s.storeD i (BitVec.ofNat 16 v.toNat)).firReset i).advance 2
      else (s.raise .badCfg).advance 2) := by
  rw [exec_regWrite_of_regAt h rfl, memWrite, State.writeFirD, apply_ite (State.advance · 2), low16]
  simp only [legalD_iff]

end

/-- Settles O20: the FIR_T and FIR_D rows of the register table, engine by engine. -/
theorem firConfigurationWrites : Obligations.FirConfigurationWrites := by
  intro s v
  refine ⟨exec_regWrite_firT (i := .ch) rfl v s, exec_regWrite_firD (i := .ch) rfl v s,
    fun n i hi => ?_⟩
  simp only [List.mem_cons, Prod.mk.injEq, List.not_mem_nil, or_false] at hi
  obtain ⟨rfl, rfl⟩ | ⟨rfl, rfl⟩ | ⟨rfl, rfl⟩ := hi
  · exact ⟨exec_regWrite_firT (i := .real .au) rfl v s, exec_regWrite_firD (i := .real .au) rfl v s⟩
  · exact ⟨exec_regWrite_firT (i := .real .rb) rfl v s, exec_regWrite_firD (i := .real .rb) rfl v s⟩
  · exact ⟨exec_regWrite_firT (i := .real .rl) rfl v s, exec_regWrite_firD (i := .real .rl) rfl v s⟩

/-! ## Taps (47_control.md R514, 10_state.md R52) -/

/-- R52: a written memory reads as before but at the index written. -/
theorem Memory.read_write {α : Type} [DecidableEq α] {zero : α} {m : Memory α}
    (h : Memory.wf zero m = true) (k : Nat) (v : α) (j : Nat) :
    Memory.read zero (Memory.write zero m k v) j = if j = k then v else Memory.read zero m j := by
  split
  · next hj =>
    subst hj
    exact Memory.read_write_same zero m j v h
  · next hj => exact Memory.read_write_other zero m k j v hj

theorem exec_regWrite_tap {n k : Nat} {i : Inst} (hk : k < 1023) (hn : insts[n]? = some i) (v : Word)
    (s : State) :
    exec (.regWrite 0 (BitVec.ofNat 16 (0x1000 + 0x1000 * n + k)) v) s
      = .next ((s.storeTap i k v).advance 2) :=
  exec_regWrite_of_regAt (regAt_tap n k i hk hn) rfl v s

/-- Settles O21: the tap memory written at the index that the address names. -/
theorem tapWritesStoreOneWord : Obligations.TapWritesStoreOneWord := by
  intro s k v hk
  refine ⟨fun hwf => ⟨Memory.write F32.posZero s.ch.taps k v,
    exec_regWrite_tap (n := 0) (i := .ch) hk rfl v s, Memory.write_wf _ _ _ _ hwf,
    Memory.read_write hwf k v⟩, fun n i hi hwf => ?_⟩
  have hn : insts[n]? = some (.real i) := by
    simp only [List.mem_cons, Prod.mk.injEq, List.not_mem_nil, or_false] at hi
    obtain ⟨rfl, rfl⟩ | ⟨rfl, rfl⟩ | ⟨rfl, rfl⟩ := hi <;> rfl
  refine ⟨Memory.write F32.posZero (s.fir i).taps k v, ?_, Memory.write_wf _ _ _ _ hwf,
    Memory.read_write hwf k v⟩
  rw [exec_regWrite_tap hk hn, State.storeTap, State.advance, State.setFir_cp]

end Sys2Proof.Machine
end
